-- ==== Sys2Proof/Word.lean ====
section
/-! DEFINITION. The word types of the DSTP core and its plainest arithmetic (00_scope.md R9): a byte is an
unsigned 8-bit value, `len` and the payload indices are 16-bit values, and `add8` is addition modulo 256. -/

namespace Sys2Proof

/-- R9: a byte is an unsigned 8-bit value 0..255. -/
abbrev Byte := BitVec 8

/-- A 16-bit unsigned value: `len`, `p_idx`, `e_idx`, `disp_raddr` (R29, R32, R86). -/
abbrev Half := BitVec 16

/-- R9: `add8(a, b) = (a + b) mod 256`. -/
abbrev add8 (a b : Byte) : Byte := a + b

end Sys2Proof
end

