-- ==== Sys2Proof/Config.lean ====
section
/-! DEFINITION. The implementation parameters of 00_scope.md R7 and R8: what an instance of the block fixes before
reset and never changes (R314). A value outside its legal range (93_implementation_defined.md U16) cannot be built:
the ranges are fields of `Params`. The six timeout budgets are OPEN in the spec (D9): the default instance takes
them from constants with no body, so nothing can be proved about their values beyond the legal range. -/

namespace Sys2Proof

/-- R7, R102: what a push into a full queue does. -/
inductive OverflowPolicy where
  | dropOldest
  | wrapToEmpty
deriving DecidableEq, Repr

/-- R8: TAIL_MAGIC has exactly two legal values, (0xFA, 0xE3) and the compatibility variant (0xFE, 0x5A). -/
inductive TailMagic where
  | standard
  | sameAsHead
deriving DecidableEq, Repr

/-- R7: the parameters of one instance of the block, each with the range the spec gives it (R7, R8, D5, D9, U16). -/
structure Params where
  /-- C, the queue capacity in byte slots. -/
  cap : Nat
  /-- OVERFLOW_POLICY. -/
  policy : OverflowPolicy
  /-- PAYLOAD_MAX, the payload buffer size in bytes. -/
  payloadMax : Nat
  /-- TW, the width of the timeout counter in bits. -/
  tw : Nat
  /-- T_HEAD, in ticks. -/
  tHead : Nat
  /-- T_CMD, in ticks. -/
  tCmd : Nat
  /-- T_LEN, in ticks. -/
  tLen : Nat
  /-- T_PAYLOAD, in ticks. -/
  tPayload : Nat
  /-- T_TAIL, in ticks. -/
  tTail : Nat
  /-- T_SUM, in ticks. -/
  tSum : Nat
  /-- CHECKSUM_INCLUDES_CMD. -/
  sumsCmd : Bool
  /-- TAIL_MAGIC. -/
  tail : TailMagic
  cap_legal : 2 ≤ cap
  payloadMax_legal : payloadMax ≤ 65535
  tHead_legal : 1 ≤ tHead ∧ tHead < 2 ^ tw
  tCmd_legal : 1 ≤ tCmd ∧ tCmd < 2 ^ tw
  tLen_legal : 1 ≤ tLen ∧ tLen < 2 ^ tw
  tPayload_legal : 1 ≤ tPayload ∧ tPayload < 2 ^ tw
  tTail_legal : 1 ≤ tTail ∧ tTail < 2 ^ tw
  tSum_legal : 1 ≤ tSum ∧ tSum < 2 ^ tw
deriving DecidableEq, Repr

/-- R7: QW = ceil(log2 C), the width of each queue cursor in bits. -/
def Params.qw (P : Params) : Nat := Nat.clog 2 P.cap

namespace Config

/-- OPEN (R7, D9): one less than T_HEAD, a free value (log 2). -/
opaque openHead : Fin 65535
/-- OPEN (R7, D9): one less than T_CMD, a free value (log 2). -/
opaque openCmd : Fin 65535
/-- OPEN (R7, D9): one less than T_LEN, a free value (log 2). -/
opaque openLen : Fin 65535
/-- OPEN (R7, D9): one less than T_PAYLOAD, a free value (log 2). -/
opaque openPayload : Fin 65535
/-- OPEN (R7, D9): one less than T_TAIL, a free value (log 2). -/
opaque openTail : Fin 65535
/-- OPEN (R7, D9): one less than T_SUM, a free value (log 2). -/
opaque openSum : Fin 65535

/-- Every budget taken from an open value lies in the legal range 1..2^16 - 1 (R7, D9). -/
theorem budget_legal (x : Fin 65535) : 1 ≤ x.val + 1 ∧ x.val + 1 < 2 ^ 16 := by
  have := x.isLt
  omega

/-- R7: the default instance, C = 512, DROP_OLDEST, PAYLOAD_MAX = C - 9 = 503, TW = 16, cmd summed, TAIL_MAGIC
(0xFA, 0xE3), and the six OPEN budgets left free. -/
def params : Params where
  cap := 512
  policy := .dropOldest
  payloadMax := 503
  tw := 16
  tHead := openHead.val + 1
  tCmd := openCmd.val + 1
  tLen := openLen.val + 1
  tPayload := openPayload.val + 1
  tTail := openTail.val + 1
  tSum := openSum.val + 1
  sumsCmd := true
  tail := .standard
  cap_legal := by decide
  payloadMax_legal := by decide
  tHead_legal := budget_legal openHead
  tCmd_legal := budget_legal openCmd
  tLen_legal := budget_legal openLen
  tPayload_legal := budget_legal openPayload
  tTail_legal := budget_legal openTail
  tSum_legal := budget_legal openSum

end Config

end Sys2Proof
end

