-- ==== Sys2Proof/Syntax.lean ====
section
/-! DEFINITION. The operations of the block as syntax: `Instr` has one constructor per row of
spec/opcode_table.json. 30_encoding.md: the block's "instructions" are the bytes of a wire frame, whose `cmd` byte
selects a dispatch action, and the operations driven on its ports. `PortWord` is an operation as it stands on the
wires: bytes on the link, or the bits of one port's lines with the widths of R86 and the bit order of the table's
`encoding` column (log 10). -/

namespace Sys2Proof

/-- R160: a present frame as the checksum sees it: its command byte and its payload (whose length is `len`). -/
structure Frame where
  cmd : Byte
  payload : List Byte
deriving DecidableEq, Repr

/-- One constructor per row of spec/opcode_table.json; the operands are the row's variable bits. -/
inductive Instr where
  /-- TRANS_CMD, a wire frame with cmd 0x01 (R83, R197). -/
  | transCmd (payload : List Byte)
  /-- ACK, a wire frame with cmd 0x02 (R83, R197). -/
  | ack (payload : List Byte)
  /-- FILE_PARAM, a wire frame with cmd 0x03 (R83, R197). -/
  | fileParam (payload : List Byte)
  /-- FILE_PACKET, a wire frame with cmd 0x04 (R83, R197). -/
  | filePacket (payload : List Byte)
  /-- CUSTOMIZE, a wire frame with cmd 0x05 (R83, R197). -/
  | customize (payload : List Byte)
  /-- set_mode AsciiRepl (R131, R85). -/
  | setModeAsciiRepl
  /-- set_mode BinaryFrame (R131, R85). -/
  | setModeBinaryFrame
  /-- rst, the hardware reset (R310). -/
  | rst
  /-- push / feed_byte (R101). -/
  | push (b : Byte)
  /-- try_pop by the REPL (R106). -/
  | tryPopRepl
  /-- try_pop by the parser, with its bit s = step_en (R105, R181). -/
  | tryPopParser (stepEn : Bool)
  /-- pop_blocking, with its bits s = step_en and t = tick (R107, R183). -/
  | popBlocking (stepEn tick : Bool)
  /-- is_empty (R108). -/
  | isEmpty
  /-- current_mode (R130). -/
  | currentMode
  /-- current_state (R133). -/
  | currentState
  /-- reset(), driven on soft_reset (R134, R135). -/
  | reset
  /-- a REPL error, driven on repl_err (R135). -/
  | replError
  /-- process_step, driven on step_en (R137). -/
  | processStep
  /-- checksum of a present frame, or of an absent one (R160, R162). -/
  | checksum (frame : Option Frame)
  /-- the return of the dispatch call, with its bit a = disp_ack (R198). -/
  | dispatchDone (ackBit : Bool)
  /-- send_frame, with tx_cmd and tx_len (R243). -/
  | sendFrame (cmd : Byte) (len : Half)
  /-- send_ack, the parser's hand-over to the encoder (R199, R242). -/
  | sendAck
  /-- byte_out, with its bit r = out_ready (R247). -/
  | byteOut (ready : Bool)
deriving DecidableEq, Repr

/-- An operation as it stands on the wires. A parallel port's word has the bits of the table's `encoding` string,
its first character the most significant bit; a status read drives no input line and its word has no bits (log 10). -/
inductive PortWord where
  /-- format frame.cmd: the bytes of a frame on the link (R80). -/
  | link (bytes : List Byte)
  /-- format port.mode_val: mode_wr = 1 with these 8 bits (R85). -/
  | modeVal (w : BitVec 8)
  /-- format port.rst. -/
  | rstLine (w : BitVec 1)
  /-- format port.in: in_valid then in_byte. -/
  | inPort (w : BitVec 9)
  /-- format port.repl: repl_pop. -/
  | replPort (w : BitVec 1)
  /-- format internal, try_pop.parser: step_en. -/
  | parserPop (w : BitVec 1)
  /-- format port.step, pop_blocking: step_en then tick. -/
  | stepTick (w : BitVec 2)
  /-- format port.status, q_empty_o sampled. -/
  | sampleEmpty
  /-- format port.status, mode_o sampled. -/
  | sampleMode
  /-- format port.status, pstate_o sampled. -/
  | sampleState
  /-- format port.soft_reset. -/
  | softReset (w : BitVec 1)
  /-- format port.repl_err. -/
  | replErr (w : BitVec 1)
  /-- format port.step, process_step: step_en. -/
  | stepEn (w : BitVec 1)
  /-- format internal, checksum: the frame's bytes before its sum, or no frame. -/
  | frameSum (bytes : Option (List Byte))
  /-- format port.disp: disp_done then disp_ack. -/
  | dispPort (w : BitVec 2)
  /-- format port.tx: tx_req, tx_cmd, tx_len. -/
  | txPort (w : BitVec 25)
  /-- format internal, send_ack. -/
  | ackHandOver
  /-- format port.out: out_ready. -/
  | outPort (w : BitVec 1)
deriving DecidableEq, Repr

/-- The `format` column of spec/opcode_table.json for each row. -/
def Instr.format : Instr → String
  | .transCmd _ => "frame.cmd"
  | .ack _ => "frame.cmd"
  | .fileParam _ => "frame.cmd"
  | .filePacket _ => "frame.cmd"
  | .customize _ => "frame.cmd"
  | .setModeAsciiRepl => "port.mode_val"
  | .setModeBinaryFrame => "port.mode_val"
  | .rst => "port.rst"
  | .push _ => "port.in"
  | .tryPopRepl => "port.repl"
  | .tryPopParser _ => "internal"
  | .popBlocking _ _ => "port.step"
  | .isEmpty => "port.status"
  | .currentMode => "port.status"
  | .currentState => "port.status"
  | .reset => "port.soft_reset"
  | .replError => "port.repl_err"
  | .processStep => "port.step"
  | .checksum _ => "internal"
  | .dispatchDone _ => "port.disp"
  | .sendFrame _ _ => "port.tx"
  | .sendAck => "internal"
  | .byteOut _ => "port.out"

/-- The table's format that a port word stands on. -/
def PortWord.format : PortWord → String
  | .link _ => "frame.cmd"
  | .modeVal _ => "port.mode_val"
  | .rstLine _ => "port.rst"
  | .inPort _ => "port.in"
  | .replPort _ => "port.repl"
  | .parserPop _ => "internal"
  | .stepTick _ => "port.step"
  | .sampleEmpty => "port.status"
  | .sampleMode => "port.status"
  | .sampleState => "port.status"
  | .softReset _ => "port.soft_reset"
  | .replErr _ => "port.repl_err"
  | .stepEn _ => "port.step"
  | .frameSum _ => "internal"
  | .dispPort _ => "port.disp"
  | .txPort _ => "port.tx"
  | .ackHandOver => "internal"
  | .outPort _ => "port.out"

end Sys2Proof
end

