-- ==== Sys2Proof/WellFormed.lean ====
section
/-! DEFINITION. Which terms of `Instr` are operations of the block. Every operand but a payload has the width of its
type; a payload is well formed when its length fits the 16-bit `len` field (30_encoding.md R80, R81). A frame longer
than PAYLOAD_MAX is still a frame on the wire: the block answers it with AllocationFailure (R81, R189). -/

namespace Sys2Proof

/-- R81: the wire allows L in 0..65535. -/
def payloadFits (payload : List Byte) : Bool := decide (payload.length ≤ 65535)

/-- The check on the syntax, one case per constructor. -/
def Instr.wf : Instr → Bool
  | .transCmd payload => payloadFits payload
  | .ack payload => payloadFits payload
  | .fileParam payload => payloadFits payload
  | .filePacket payload => payloadFits payload
  | .customize payload => payloadFits payload
  | .setModeAsciiRepl => true
  | .setModeBinaryFrame => true
  | .rst => true
  | .push _ => true
  | .tryPopRepl => true
  | .tryPopParser _ => true
  | .popBlocking _ _ => true
  | .isEmpty => true
  | .currentMode => true
  | .currentState => true
  | .reset => true
  | .replError => true
  | .processStep => true
  | .checksum none => true
  | .checksum (some frame) => payloadFits frame.payload
  | .dispatchDone _ => true
  | .sendFrame _ _ => true
  | .sendAck => true
  | .byteOut _ => true

end Sys2Proof
end

