-- ==== Sys2Proof/Decode.lean ====
section
/-! DEFINITION. The encodings of 30_encoding.md: the magics, the command codes, the byte order of `len`, the checksum
that ends a frame (42_checksum.md R160), the decoder from port words to operations, and the encoder back. The decoder is
total and rejects by name; a rejected word still has the effect the spec gives its bits (Machine/Operands.lean and
Machine/Fetch.lean). -/

namespace Sys2Proof

/-! ### Byte order (20_memory.md R64: `len` is big-endian) -/

/-- `v[15:8]`. -/
def hiByte (v : Half) : Byte := v.extractLsb' 8 8

/-- `v[7:0]`. -/
def loByte (v : Half) : Byte := v.extractLsb' 0 8

/-- R9: `{hi, lo}` is the 16-bit value hi*256 + lo. -/
def joinBytes (hi lo : Byte) : Half := hi ++ lo

/-! ### Magics and codes (R7, R82, R83) -/

/-- HEAD_MAGIC[0]. -/
abbrev headMagic0 : Byte := 0xFE

/-- HEAD_MAGIC[1]. -/
abbrev headMagic1 : Byte := 0x5A

/-- TAIL_MAGIC[0] (R8). -/
def tailMagic0 (P : Params) : Byte :=
  match P.tail with
  | .standard => 0xFA
  | .sameAsHead => 0xFE

/-- TAIL_MAGIC[1] (R8). -/
def tailMagic1 (P : Params) : Byte :=
  match P.tail with
  | .standard => 0xE3
  | .sameAsHead => 0x5A

/-- R83: TRANS_CMD. -/
abbrev cmdTransCmd : Byte := 0x01
/-- R83: ACK. -/
abbrev cmdAck : Byte := 0x02
/-- R83: FILE_PARAM. -/
abbrev cmdFileParam : Byte := 0x03
/-- R83: FILE_PACKET. -/
abbrev cmdFilePacket : Byte := 0x04
/-- R83: CUSTOMIZE. -/
abbrev cmdCustomize : Byte := 0x05

/-- R7, R63: ACK_PAYLOAD, the contents of ACK_ROM ("ACK" and a terminating zero; conflict C1). -/
def ackPayload : List Byte := [0x41, 0x43, 0x4B, 0x00]

/-! ### The checksum (42_checksum.md) -/

/-- The modular sum of a list of bytes. -/
def sumBytes : List Byte → Byte
  | [] => 0
  | b :: bs => add8 b (sumBytes bs)

/-- R163: what the `cmd` byte adds to the running sum. -/
def cmdTerm (P : Params) (c : Byte) : Byte := if P.sumsCmd then c else 0

/-- R160: `checksum(c, L, p)` of a present frame; L is the length of p. -/
def frameChecksum (P : Params) (c : Byte) (payload : List Byte) : Byte :=
  let L : Half := BitVec.ofNat 16 payload.length
  headMagic0 + headMagic1 + cmdTerm P c + hiByte L + loByte L + sumBytes payload + tailMagic0 P + tailMagic1 P

/-- R7, R162: NULL_SUM, the reserved checksum of an absent frame. -/
abbrev nullSum : Byte := 0xFF

/-- R160, R162: `checksum(frame)`. -/
def checksumOf (P : Params) : Option Frame → Byte
  | none => nullSum
  | some f => frameChecksum P f.cmd f.payload

/-- R162, R164: whether a received sum byte matches the frame's checksum; an absent frame never matches. -/
def sumMatches (P : Params) (f : Option Frame) (s : Byte) : Bool :=
  match f with
  | none => false
  | some f => s == frameChecksum P f.cmd f.payload

/-! ### The wire frame (R80) -/

/-- R80: head, cmd, len high, len low and payload. -/
def frameFront (c : Byte) (payload : List Byte) : List Byte :=
  let L : Half := BitVec.ofNat 16 payload.length
  headMagic0 :: headMagic1 :: c :: hiByte L :: loByte L :: payload

/-- R160: the bytes a checksum is taken over, head to tail. -/
def summedBytes (P : Params) (f : Frame) : List Byte :=
  frameFront f.cmd f.payload ++ [tailMagic0 P, tailMagic1 P]

/-- R80: the L + 8 bytes of a frame. -/
def frameBytes (P : Params) (c : Byte) (payload : List Byte) : List Byte :=
  frameFront c payload ++ [tailMagic0 P, tailMagic1 P, frameChecksum P c payload]

/-! ### Decoding -/

/-- Why a port word is no operation of the table. -/
inductive DecodeError where
  /-- fewer than the five bytes up to `len` -/
  | tooShort
  /-- the first two bytes are not HEAD_MAGIC (R82) -/
  | badHead
  /-- the number of bytes is not the one `len` fixes (R81) -/
  | badLength
  /-- the two bytes after the payload are not TAIL_MAGIC (R82) -/
  | badTail
  /-- the last byte is not the checksum of the bytes before it (R164) -/
  | badSum
  /-- a `cmd` byte outside 0x01..0x05 (R84) -/
  | unknownCommand
  /-- a mode code outside 0x00 and 0x01 (R85) -/
  | invalidMode
  /-- the operation's own strobe (in_valid, repl_pop, rst, ...) is 0 -/
  | notAsserted
deriving DecidableEq, Repr

/-- R80, R81: the front of a frame taken apart into cmd, the payload that `len` says, and the bytes after it. -/
def splitFrame (bytes : List Byte) : Except DecodeError (Byte × List Byte × List Byte) :=
  match bytes with
  | h0 :: h1 :: c :: lh :: ll :: rest =>
    if h0 = headMagic0 ∧ h1 = headMagic1 then
      let n := (joinBytes lh ll).toNat
      .ok (c, rest.take n, rest.drop n)
    else .error .badHead
  | _ => .error .tooShort

/-- R83, R84: the command a `cmd` byte selects. -/
def decodeCmd (c : Byte) (payload : List Byte) : Except DecodeError Instr :=
  if c = cmdTransCmd then .ok (.transCmd payload)
  else if c = cmdAck then .ok (.ack payload)
  else if c = cmdFileParam then .ok (.fileParam payload)
  else if c = cmdFilePacket then .ok (.filePacket payload)
  else if c = cmdCustomize then .ok (.customize payload)
  else .error .unknownCommand

/-- R80 to R84: a whole frame on the link, checked in wire order and the sum before the command (R196). -/
def decodeLink (P : Params) (bytes : List Byte) : Except DecodeError Instr :=
  match splitFrame bytes with
  | .error e => .error e
  | .ok (c, payload, t0 :: t1 :: [s]) =>
    if t0 = tailMagic0 P ∧ t1 = tailMagic1 P then
      if s = frameChecksum P c payload then decodeCmd c payload else .error .badSum
    else .error .badTail
  | .ok _ => .error .badLength

/-- R160: the bytes a checksum is asked of. -/
def decodeSummed (P : Params) (bytes : List Byte) : Except DecodeError Instr :=
  match splitFrame bytes with
  | .error e => .error e
  | .ok (c, payload, t0 :: [t1]) =>
    if t0 = tailMagic0 P ∧ t1 = tailMagic1 P then .ok (.checksum (some ⟨c, payload⟩)) else .error .badTail
  | .ok _ => .error .badLength

/-- A one-bit strobe: the operation is there when the bit is 1. -/
def onStrobe (w : BitVec 1) (i : Instr) : Except DecodeError Instr :=
  if w = 1 then .ok i else .error .notAsserted

/-- The decoder, total on port words. -/
def decode (P : Params) : PortWord → Except DecodeError Instr
  | .link bytes => decodeLink P bytes
  | .modeVal w =>
    if w = 0x00 then .ok .setModeAsciiRepl
    else if w = 0x01 then .ok .setModeBinaryFrame
    else .error .invalidMode
  | .rstLine w => onStrobe w .rst
  | .inPort w => if w.getLsbD 8 then .ok (.push (w.extractLsb' 0 8)) else .error .notAsserted
  | .replPort w => onStrobe w .tryPopRepl
  | .parserPop w => .ok (.tryPopParser (w.getLsbD 0))
  | .stepTick w => .ok (.popBlocking (w.getLsbD 1) (w.getLsbD 0))
  | .sampleEmpty => .ok .isEmpty
  | .sampleMode => .ok .currentMode
  | .sampleState => .ok .currentState
  | .softReset w => onStrobe w .reset
  | .replErr w => onStrobe w .replError
  | .stepEn w => onStrobe w .processStep
  | .frameSum none => .ok (.checksum none)
  | .frameSum (some bytes) => decodeSummed P bytes
  | .dispPort w => if w.getLsbD 1 then .ok (.dispatchDone (w.getLsbD 0)) else .error .notAsserted
  | .txPort w =>
    if w.getLsbD 24 then .ok (.sendFrame (w.extractLsb' 16 8) (w.extractLsb' 0 16)) else .error .notAsserted
  | .ackHandOver => .ok .sendAck
  | .outPort w => .ok (.byteOut (w.getLsbD 0))

/-! ### Encoding -/

/-- The word of an operation, from the encoding tables R80, R85, R86 and the table's `encoding` column. -/
def encode (P : Params) : Instr → PortWord
  | .transCmd payload => .link (frameBytes P cmdTransCmd payload)
  | .ack payload => .link (frameBytes P cmdAck payload)
  | .fileParam payload => .link (frameBytes P cmdFileParam payload)
  | .filePacket payload => .link (frameBytes P cmdFilePacket payload)
  | .customize payload => .link (frameBytes P cmdCustomize payload)
  | .setModeAsciiRepl => .modeVal 0x00
  | .setModeBinaryFrame => .modeVal 0x01
  | .rst => .rstLine 1
  | .push b => .inPort ((1 : BitVec 1) ++ b)
  | .tryPopRepl => .replPort 1
  | .tryPopParser stepEn => .parserPop (BitVec.ofBool stepEn)
  | .popBlocking stepEn tick => .stepTick (BitVec.ofBool stepEn ++ BitVec.ofBool tick)
  | .isEmpty => .sampleEmpty
  | .currentMode => .sampleMode
  | .currentState => .sampleState
  | .reset => .softReset 1
  | .replError => .replErr 1
  | .processStep => .stepEn 1
  | .checksum none => .frameSum none
  | .checksum (some f) => .frameSum (some (summedBytes P f))
  | .dispatchDone ackBit => .dispPort ((1 : BitVec 1) ++ BitVec.ofBool ackBit)
  | .sendFrame cmd len => .txPort (((1 : BitVec 1) ++ cmd ++ len : BitVec 25))
  | .sendAck => .ackHandOver
  | .byteOut ready => .outPort (BitVec.ofBool ready)

/-! ### The table's own numbering of bits -/

/-- The port word that a word of spec/opcode_table.json's numbering stands for (log 9). An 8-bit row is a `cmd` byte
(format frame.cmd): the rest of the frame is what R80 fixes around it, with `len` 0 and no payload. The one 8-bit value
that is no command and is a mode code, 0x00, is the row set_mode AsciiRepl. Nine bits are the in port's, twenty-five
the tx port's. -/
def tableWord (P : Params) (nbits w : Nat) : PortWord :=
  if nbits ≤ 8 then
    if w = 0 then .modeVal 0x00 else .link (frameBytes P (BitVec.ofNat 8 w) [])
  else if nbits ≤ 16 then .inPort (BitVec.ofNat 9 w)
  else .txPort (BitVec.ofNat 25 w)

/-- The instruction the decoder reads from a word numbered as spec/opcode_table.json numbers it. -/
def decodeTableWord (nbits w : Nat) : Option Instr :=
  match decode Config.params (tableWord Config.params nbits w) with
  | .ok i => some i
  | .error _ => none

end Sys2Proof
end

