-- ==== Sys2Proof/Machine/State.lean ====
section
/-! DEFINITION. The state of the machine as plain data. `Block` is the record of 10_state.md R20, unit by unit;
`Inputs` and `Outputs` are the ports of 30_encoding.md R86 and R87. `State` holds the block, the parameters it was
built with, and the model's own fields: the levels of the input lines, the stimulus still to come, and what the last step
showed on the outputs. -/

namespace Sys2Proof.Machine

/-- A byte array as the pairs (index, byte) of its bytes other than 0x00, indices strictly rising. A slot that is not
listed reads 0x00: p_buf is all zero at reset (R310), and q_buf may be taken as zero there (R25, log 6). -/
abbrev Memory := List Host.Cell

/-- R26: the mode. -/
inductive Mode where
  | asciiRepl
  | binaryFrame
deriving DecidableEq, Repr

/-- R27: the parser sub-states. -/
inductive ParserSub where
  | head0 | head1 | cmd | lenHi | lenLo | payload | tail0 | tail1 | sum | dispatch | ackReq
deriving DecidableEq, Repr

/-- R28: the source's ParserState. -/
inductive ParserState where
  | awaitHead | awaitCmd | awaitLen | awaitPayload | awaitTail | awaitSum
deriving DecidableEq, Repr

/-- R34: the encoder sub-states. -/
inductive EncoderSub where
  | idle | head0 | head1 | cmd | lenHi | lenLo | payload | tail0 | tail1 | sum
deriving DecidableEq, Repr

/-- R32: where the payload of the frame being sent comes from. -/
inductive EncoderSource where
  | ack
  | ext
deriving DecidableEq, Repr

/-- R88: the event on `evt`. -/
inductive Event where
  | none | timeout | magicMismatch | checksumMismatch | unknownCommand | allocationFailure | lineOverflow
deriving DecidableEq, Repr

/-- R22: q_buf, q_wr, q_rd, q_ovr. -/
structure Queue where
  buf : Memory
  wr : Nat
  rd : Nat
  ovr : Bool
deriving DecidableEq, Repr

/-- R26, R29: p_sub and the frame scratch storage p_cmd, p_len, p_idx, p_acc, p_t0, p_tim, p_buf. -/
structure Parser where
  sub : ParserSub
  cmd : Byte
  len : Half
  idx : Half
  acc : Byte
  t0 : Byte
  tim : Nat
  buf : Memory
deriving DecidableEq, Repr

/-- R32: e_sub, e_src, e_cmd, e_len, e_idx, e_acc. -/
structure Encoder where
  sub : EncoderSub
  src : EncoderSource
  cmd : Byte
  len : Half
  idx : Half
  acc : Byte
deriving DecidableEq, Repr

/-- R20: the complete state of the block. -/
structure Block where
  q : Queue
  mode : Mode
  p : Parser
  e : Encoder
deriving DecidableEq, Repr

/-- R86: the input ports, under the spec's names. -/
structure Inputs where
  rst : Bool
  in_valid : Bool
  in_byte : Byte
  step_en : Bool
  tick : Bool
  mode_wr : Bool
  mode_val : Byte
  soft_reset : Bool
  repl_err : Bool
  repl_pop : Bool
  disp_done : Bool
  disp_ack : Bool
  disp_raddr : Half
  tx_req : Bool
  tx_cmd : Byte
  tx_len : Half
  tx_dvalid : Bool
  tx_data : Byte
  out_ready : Bool
deriving DecidableEq, Repr

/-- R87: the output ports, under the spec's names. -/
structure Outputs where
  mode_o : Mode
  pstate_o : ParserState
  q_empty_o : Bool
  q_ovr_o : Bool
  enc_busy_o : Bool
  repl_rvalid : Bool
  repl_rdata : Byte
  disp_valid : Bool
  disp_cmd : Byte
  disp_len : Half
  disp_rdata : Byte
  tx_accept : Bool
  tx_dready : Bool
  out_valid : Bool
  out_byte : Byte
  evt : Event
  rx_ack : Bool
deriving DecidableEq, Repr

/-- R107: what one poll of `pop_blocking` comes to. -/
inductive Poll where
  | byte (b : Byte)
  | timeout
  | waiting
deriving DecidableEq, Repr

/-- The value an operation gives its caller (R90, R102 to R108, R130, R133, R160); the model's own field (log 12). -/
inductive Result where
  | none
  | flag (b : Bool)
  | mode (m : Mode)
  | parserState (p : ParserState)
  | popped (b : Option Byte)
  | polled (r : Poll)
  | sum (b : Byte)
deriving DecidableEq, Repr

/-- One entry of the stimulus: an operation on its port and the level of every other line meanwhile (log 4, log 5). -/
structure Stimulus where
  word : PortWord
  pins : Inputs
deriving DecidableEq, Repr

/-- The state of the machine. `blk` is the block's; the rest is the model's own (INVENTORY.md, State). -/
structure State where
  params : Params
  blk : Block
  pins : Inputs
  stim : List Stimulus
  outs : List Outputs
  ret : Result
deriving DecidableEq, Repr

/-- Why a step stops. -/
inductive Fault where
  /-- Raised by the clock cycle when q_wr or q_rd is not below C, or the parser or the encoder is about to reach
  outside p_buf or ACK_ROM. 20_memory.md R66: "An index out of range cannot be formed", so no run from reset gets here.
  Safe (log 7). -/
  | indexOutOfRange
deriving DecidableEq, Repr

/-- Why an instruction has no meaning. -/
inductive Refusal where
  /-- Raised by a dispatch arm whose instruction is not modelled yet; no arm does. Safe. -/
  | notModelled (mnemonic : String)
deriving DecidableEq, Repr

/-- R310: the queue after hardware reset. -/
def Queue.reset : Queue := { buf := [], wr := 0, rd := 0, ovr := false }

/-- R310: the parser after hardware reset. -/
def Parser.reset : Parser :=
  { sub := .head0, cmd := 0x00, len := 0x0000, idx := 0x0000, acc := 0x00, t0 := 0x00, tim := 0, buf := [] }

/-- R310: the encoder after hardware reset. -/
def Encoder.reset : Encoder :=
  { sub := .idle, src := .ack, cmd := 0x00, len := 0x0000, idx := 0x0000, acc := 0x00 }

/-- R310: the block after hardware reset. -/
def Block.reset : Block :=
  { q := Queue.reset, mode := .asciiRepl, p := Parser.reset, e := Encoder.reset }

/-- R89: no line driven, and `out_ready` held 1 as every script has it unless it says otherwise. -/
def Inputs.idle : Inputs :=
  { rst := false, in_valid := false, in_byte := 0, step_en := false, tick := false, mode_wr := false, mode_val := 0
    soft_reset := false, repl_err := false, repl_pop := false, disp_done := false, disp_ack := false, disp_raddr := 0
    tx_req := false, tx_cmd := 0, tx_len := 0, tx_dvalid := false, tx_data := 0, out_ready := true }

/-- The machine right after reset: the block as R310 leaves it, no line driven, no stimulus placed. -/
def State.reset : State :=
  { params := Config.params, blk := Block.reset, pins := Inputs.idle, stim := [], outs := [], ret := .none }

end Sys2Proof.Machine
end

