-- ==== Sys2Proof/Machine/Ops.lean ====
section
/-! DEFINITION. The named operations over the block's storage: byte arrays, the queue primitives of 40_bytequeue.md
(R101 to R105), the mode code of R85, and the recovery action reset() (R134) with the one way an error is taken (R9,
R285). -/

namespace Sys2Proof.Machine

/-! ### Byte arrays (20_memory.md R60) -/

/-- The byte at an index; a slot that is not listed reads 0x00. -/
def Memory.read : Memory → Nat → Byte
  | [], _ => 0
  | (k, v) :: m, a => if a = k then v else Memory.read m a

/-- Store a byte at an index, keeping the canonical form: indices rise and no listed byte is 0x00. -/
def Memory.write : Memory → Nat → Byte → Memory
  | [], a, b => if b = 0 then [] else [(a, b)]
  | (k, v) :: m, a, b =>
    if a < k then (if b = 0 then (k, v) :: m else (a, b) :: (k, v) :: m)
    else if a = k then (if b = 0 then m else (a, b) :: m)
    else (k, v) :: Memory.write m a b

/-- The canonical form: indices strictly rising, no listed byte 0x00. -/
def Memory.wf : Memory → Bool
  | [] => true
  | (k, v) :: m => decide (v ≠ 0) && m.all (fun c => decide (k < c.1)) && Memory.wf m

/-- Every listed index is below the bound. -/
def Memory.below (m : Memory) (n : Nat) : Bool := m.all (fun c => decide (c.1 < n))

/-- The first n bytes of an array. -/
def Memory.firstBytes (m : Memory) (n : Nat) : List Byte := (List.range n).map (Memory.read m)

/-! ### The queue (40_bytequeue.md) -/

/-- R101, R104: a cursor moved on by one slot, modulo C. -/
def nextSlot (P : Params) (k : Nat) : Nat := (k + 1) % P.cap

/-- R23: `q_count = (q_wr - q_rd) mod C`. -/
def qCount (P : Params) (q : Queue) : Nat := (q.wr + P.cap - q.rd) % P.cap

/-- R23, R108: `q_empty = (q_wr = q_rd)`. -/
def qEmpty (q : Queue) : Bool := decide (q.wr = q.rd)

/-- R23, R101: full, `(wr + 1) mod C = rd`, that is q_count = C - 1. -/
def qFull (P : Params) (q : Queue) : Bool := decide (nextSlot P q.wr = q.rd)

/-- The byte at the read cursor, offered but not taken (R68). -/
def qFront (q : Queue) : Byte := q.buf.read q.rd

/-- R104: the queue after a pop. -/
@[simps] def qPop (P : Params) (q : Queue) : Queue := { q with rd := nextSlot P q.rd }

/-- R105: `try_pop`, nothing when empty. -/
def qTryPop (q : Queue) : Option Byte := if qEmpty q then none else some (qFront q)

/-- R101, R102: `push(b)`. -/
def qPush (P : Params) (q : Queue) (b : Byte) : Queue :=
  { buf := q.buf.write q.wr b
    wr := nextSlot P q.wr
    rd :=
      if qFull P q then
        match P.policy with
        | .dropOldest => nextSlot P q.rd
        | .wrapToEmpty => q.rd
      else q.rd
    ovr := q.ovr || qFull P q }

/-- The unread bytes, oldest first (R70). -/
def qContents (P : Params) (q : Queue) : List Byte :=
  (List.range (qCount P q)).map (fun k => q.buf.read ((q.rd + k) % P.cap))

/-! ### Modes (30_encoding.md R85) -/

/-- R85: the mode a code names, if any. -/
def modeOfCode (v : Byte) : Option Mode :=
  if v = 0x00 then some .asciiRepl
  else if v = 0x01 then some .binaryFrame
  else none

/-! ### Recovery and errors (41_mode_controller.md R134, 60_exceptions.md R285, R286) -/

/-- R134: reset(), the parser's recovery action. -/
@[simps] def parserReset (p : Parser) : Parser :=
  { p with sub := .head0, cmd := 0x00, len := 0x0000, idx := 0x0000, acc := 0x00, t0 := 0x00, tim := 0, buf := [] }

/-- What one parser step comes to: the parser's next state, the error it reports and the `rx_ack` pulse. -/
structure ParserStep where
  p : Parser
  evt : Event
  rxAck : Bool
deriving DecidableEq, Repr

/-- A parser step that reports nothing. -/
@[simps] def quietStep (p : Parser) : ParserStep := { p := p, evt := .none, rxAck := false }

/-- R9, R285: `raise Err(k)`, the one way an error is taken: the code on `evt` for this cycle, and reset(). Nothing is
saved, and the return is implicit (R286): the next enabled cycle is an ordinary HEAD0 step. -/
@[simps] def raiseErr (k : Event) (p : Parser) : ParserStep := { p := parserReset p, evt := k, rxAck := false }

end Sys2Proof.Machine
end

