-- ==== Sys2Proof/Machine/Operands.lean ====
section
/-! DEFINITION. The operand forms: which input lines an operation drives, over the levels the other lines are held at
(30_encoding.md R86, R89). One function per port, and `rawInputs`, the cycles a port word's bits drive whether or not they
decode to an operation. -/

namespace Sys2Proof.Machine

/-- port.rst. -/
@[simps] def driveRst (v : Bool) (pins : Inputs) : Inputs := { pins with rst := v }

/-- port.in: in_valid and in_byte. -/
@[simps] def driveIn (valid : Bool) (b : Byte) (pins : Inputs) : Inputs := { pins with in_valid := valid, in_byte := b }

/-- port.step: step_en. -/
@[simps] def driveStep (stepEn : Bool) (pins : Inputs) : Inputs := { pins with step_en := stepEn }

/-- port.step: step_en and tick. -/
@[simps] def driveStepTick (stepEn tick : Bool) (pins : Inputs) : Inputs := { pins with step_en := stepEn, tick := tick }

/-- port.mode_val: mode_wr = 1 and mode_val. -/
@[simps] def driveMode (v : Byte) (pins : Inputs) : Inputs := { pins with mode_wr := true, mode_val := v }

/-- port.soft_reset. -/
@[simps] def driveSoftReset (v : Bool) (pins : Inputs) : Inputs := { pins with soft_reset := v }

/-- port.repl_err. -/
@[simps] def driveReplErr (v : Bool) (pins : Inputs) : Inputs := { pins with repl_err := v }

/-- port.repl: repl_pop. -/
@[simps] def driveReplPop (v : Bool) (pins : Inputs) : Inputs := { pins with repl_pop := v }

/-- port.disp: disp_done and disp_ack. -/
@[simps] def driveDisp (done ackBit : Bool) (pins : Inputs) : Inputs := { pins with disp_done := done, disp_ack := ackBit }

/-- port.tx: tx_req, tx_cmd and tx_len. -/
@[simps] def driveTx (req : Bool) (cmd : Byte) (len : Half) (pins : Inputs) : Inputs :=
  { pins with tx_req := req, tx_cmd := cmd, tx_len := len }

/-- port.out: out_ready. -/
@[simps] def driveOut (ready : Bool) (pins : Inputs) : Inputs := { pins with out_ready := ready }

/-- R89 `feedstep b`: in_valid = 1, in_byte = b, step_en = 1. -/
def driveFeedStep (pins : Inputs) (b : Byte) : Inputs := driveStep true (driveIn true b pins)

/-- R89 `feedstep b1 .. bn; step 1`: the bytes arrive on the link while the parser steps, one cycle behind (95_test_vectors.md
2.4, Timing). -/
def driveLink (bytes : List Byte) (pins : Inputs) : List Inputs :=
  bytes.map (driveFeedStep pins) ++ [driveStep true pins]

/-- The input vectors a port word's bits drive, cycle by cycle, whatever they decode to. -/
def rawInputs (w : PortWord) (pins : Inputs) : List Inputs :=
  match w with
  | .link bytes => driveLink bytes pins
  | .modeVal v => [driveMode v pins]
  | .rstLine v => [driveRst (v.getLsbD 0) pins]
  | .inPort v => [driveIn (v.getLsbD 8) (v.extractLsb' 0 8) pins]
  | .replPort v => [driveReplPop (v.getLsbD 0) pins]
  | .parserPop v => [driveStep (v.getLsbD 0) pins]
  | .stepTick v => [driveStepTick (v.getLsbD 1) (v.getLsbD 0) pins]
  | .sampleEmpty => [pins]
  | .sampleMode => [pins]
  | .sampleState => [pins]
  | .softReset v => [driveSoftReset (v.getLsbD 0) pins]
  | .replErr v => [driveReplErr (v.getLsbD 0) pins]
  | .stepEn v => [driveStep (v.getLsbD 0) pins]
  | .frameSum _ => [pins]
  | .dispPort v => [driveDisp (v.getLsbD 1) (v.getLsbD 0) pins]
  | .txPort v => [driveTx (v.getLsbD 24) (v.extractLsb' 16 8) (v.extractLsb' 0 16) pins]
  | .ackHandOver => [driveStep true pins]
  | .outPort v => [driveOut (v.getLsbD 0) pins]

end Sys2Proof.Machine
end

