-- ==== Sys2Proof/Machine/Flags.lean ====
section
/-! DEFINITION. The derived values of a cycle: the codes of R26 to R28, R34 and R88, the parser's current ParserState,
the parser's enable and the control actions (R137, R138), the budgets of R183, and the index check behind the model's
one fault. The block has no condition codes (R35). -/

namespace Sys2Proof.Machine

/-- R26: the mode's 1-bit code. -/
def Mode.code : Mode → BitVec 1
  | .asciiRepl => 0
  | .binaryFrame => 1

/-- R27: the sub-state's 4-bit code. -/
def ParserSub.code : ParserSub → BitVec 4
  | .head0 => 0x0
  | .head1 => 0x1
  | .cmd => 0x2
  | .lenHi => 0x3
  | .lenLo => 0x4
  | .payload => 0x5
  | .tail0 => 0x6
  | .tail1 => 0x7
  | .sum => 0x8
  | .dispatch => 0x9
  | .ackReq => 0xA

/-- R27: the ParserState a sub-state belongs to. -/
def ParserSub.pstate : ParserSub → ParserState
  | .head0 => .awaitHead
  | .head1 => .awaitHead
  | .cmd => .awaitCmd
  | .lenHi => .awaitLen
  | .lenLo => .awaitLen
  | .payload => .awaitPayload
  | .tail0 => .awaitTail
  | .tail1 => .awaitTail
  | .sum => .awaitSum
  | .dispatch => .awaitSum
  | .ackReq => .awaitSum

/-- R28: the ParserState's 3-bit code. -/
def ParserState.code : ParserState → BitVec 3
  | .awaitHead => 0
  | .awaitCmd => 1
  | .awaitLen => 2
  | .awaitPayload => 3
  | .awaitTail => 4
  | .awaitSum => 5

/-- R34: the encoder sub-state's 4-bit code. -/
def EncoderSub.code : EncoderSub → BitVec 4
  | .idle => 0x0
  | .head0 => 0x1
  | .head1 => 0x2
  | .cmd => 0x3
  | .lenHi => 0x4
  | .lenLo => 0x5
  | .payload => 0x6
  | .tail0 => 0x7
  | .tail1 => 0x8
  | .sum => 0x9

/-- R32: the source's 1-bit code. -/
def EncoderSource.code : EncoderSource → BitVec 1
  | .ack => 0
  | .ext => 1

/-- R88: the event's 3-bit code. -/
def Event.code : Event → BitVec 3
  | .none => 0
  | .timeout => 1
  | .magicMismatch => 2
  | .checksumMismatch => 3
  | .unknownCommand => 4
  | .allocationFailure => 5
  | .lineOverflow => 6

/-- R181: the sub-states that read a byte. -/
def ParserSub.readsByte : ParserSub → Bool
  | .head0 => true
  | .head1 => true
  | .cmd => true
  | .lenHi => true
  | .lenLo => true
  | .payload => true
  | .tail0 => true
  | .tail1 => true
  | .sum => true
  | .dispatch => false
  | .ackReq => false

/-- R183: the budget of a timed sub-state; HEAD0, DISPATCH and ACKREQ have none (D10). -/
def budget (P : Params) : ParserSub → Option Nat
  | .head0 => none
  | .head1 => some P.tHead
  | .cmd => some P.tCmd
  | .lenHi => some P.tLen
  | .lenLo => some P.tLen
  | .payload => some P.tPayload
  | .tail0 => some P.tTail
  | .tail1 => some P.tTail
  | .sum => some P.tSum
  | .dispatch => none
  | .ackReq => none

/-- R131: the mode a cycle's write changes to; none for no write, an invalid code or the mode the block is in. -/
def modeChange (b : Block) (i : Inputs) : Option Mode :=
  if i.mode_wr then
    match modeOfCode i.mode_val with
    | some m => if m = b.mode then none else some m
    | none => none
  else none

/-- R138, R316: a control action (2) or (3) in this cycle. -/
def controlAction (b : Block) (i : Inputs) : Bool := (modeChange b i).isSome || i.soft_reset || i.repl_err

/-- R137, R180: the parser makes its step in this cycle. -/
def pstep (b : Block) (i : Inputs) : Bool :=
  !i.rst && decide (b.mode = .binaryFrame) && i.step_en && !controlAction b i

/-- R106: the REPL takes a byte in this cycle. -/
def replTakes (b : Block) (i : Inputs) : Bool :=
  !i.rst && decide (b.mode = .asciiRepl) && i.repl_pop && !qEmpty b.q

/-- R181: the parser pops a byte in this cycle. -/
def parserTakes (b : Block) (i : Inputs) : Bool := pstep b i && b.p.sub.readsByte && !qEmpty b.q

/-- R242: the encoder takes the parser's ACK request in this cycle. -/
def ackTake (b : Block) (i : Inputs) : Bool :=
  pstep b i && decide (b.p.sub = .ackReq) && decide (b.e.sub = .idle)

/-- R61, R62, R66, R246: every array index this block can form in the next cycle lies inside its array. -/
def indexed (P : Params) (b : Block) : Bool :=
  decide (b.q.wr < P.cap) && decide (b.q.rd < P.cap)
    && (decide (b.p.sub ≠ .payload) || decide (b.p.idx.toNat < P.payloadMax))
    && (decide (b.p.sub ≠ .dispatch) || decide (b.p.len.toNat ≤ P.payloadMax))
    && (decide (b.e.sub ≠ .payload) || decide (b.e.src ≠ .ack) || decide (b.e.idx.toNat < 4))

end Sys2Proof.Machine
end

