-- ==== Sys2Proof/Machine/Parser.lean ====
section
/-! DEFINITION. The FrameParser unit (43_frame_parser.md): one byte in one sub-state (R185 to R197), the wait on an
empty queue (R183), and the two sub-states that read no byte (R198, R199). -/

namespace Sys2Proof.Machine

/-- R185. -/
def onHead0 (p : Parser) (b : Byte) : ParserStep :=
  if b = headMagic0 then quietStep { p with sub := .head1, acc := headMagic0, tim := 0 }
  else quietStep { p with tim := 0 }

/-- R186. -/
def onHead1 (p : Parser) (b : Byte) : ParserStep :=
  if b = headMagic1 then quietStep { p with sub := .cmd, acc := add8 p.acc b, tim := 0 }
  else raiseErr .magicMismatch p

/-- R187. -/
def onCmd (P : Params) (p : Parser) (b : Byte) : ParserStep :=
  quietStep { p with sub := .lenHi, cmd := b, acc := add8 p.acc (cmdTerm P b), tim := 0 }

/-- R188. -/
def onLenHi (p : Parser) (b : Byte) : ParserStep :=
  quietStep { p with sub := .lenLo, len := joinBytes b 0x00, acc := add8 p.acc b, tim := 0 }

/-- R189. -/
def onLenLo (P : Params) (p : Parser) (b : Byte) : ParserStep :=
  let L := joinBytes (hiByte p.len) b
  if P.payloadMax < L.toNat then raiseErr .allocationFailure p
  else if L = 0 then quietStep { p with sub := .tail0, len := L, acc := add8 p.acc b, tim := 0 }
  else quietStep { p with sub := .payload, len := L, idx := 0, acc := add8 p.acc b, tim := 0 }

/-- R191. -/
def onPayload (p : Parser) (b : Byte) : ParserStep :=
  quietStep
    { p with
      sub := if p.idx + 1 = p.len then .tail0 else .payload
      idx := p.idx + 1
      acc := add8 p.acc b
      tim := 0
      buf := p.buf.write p.idx.toNat b }

/-- R193. -/
def onTail0 (p : Parser) (b : Byte) : ParserStep :=
  quietStep { p with sub := .tail1, t0 := b, acc := add8 p.acc b, tim := 0 }

/-- R194. -/
def onTail1 (P : Params) (p : Parser) (b : Byte) : ParserStep :=
  if p.t0 = tailMagic0 P ∧ b = tailMagic1 P then quietStep { p with sub := .sum, acc := add8 p.acc b, tim := 0 }
  else raiseErr .magicMismatch p

/-- R197: a valid frame, classified by its command. -/
def classify (p : Parser) : ParserStep :=
  if p.cmd = cmdTransCmd ∨ p.cmd = cmdFileParam ∨ p.cmd = cmdFilePacket ∨ p.cmd = cmdCustomize then
    quietStep { p with sub := .dispatch, tim := 0 }
  else if p.cmd = cmdAck then { p := parserReset p, evt := .none, rxAck := true }
  else raiseErr .unknownCommand p

/-- R195, R196. -/
def onSum (p : Parser) (s : Byte) : ParserStep :=
  if s = p.acc then classify p else raiseErr .checksumMismatch p

/-- R185 to R197: the rule of the parser's sub-state for a popped byte. -/
def onByte (P : Params) (p : Parser) (b : Byte) : ParserStep :=
  match p.sub with
  | .head0 => onHead0 p b
  | .head1 => onHead1 p b
  | .cmd => onCmd P p b
  | .lenHi => onLenHi p b
  | .lenLo => onLenLo P p b
  | .payload => onPayload p b
  | .tail0 => onTail0 p b
  | .tail1 => onTail1 P p b
  | .sum => onSum p b
  | .dispatch => quietStep p
  | .ackReq => quietStep p

/-- R183: the wait of a byte-reading sub-state on an empty queue. -/
def onEmpty (P : Params) (p : Parser) (tick : Bool) : ParserStep :=
  match budget P p.sub with
  | none => quietStep p
  | some t =>
    if tick then
      if t ≤ p.tim + 1 then raiseErr .timeout p else quietStep { p with tim := p.tim + 1 }
    else quietStep p

/-- R198: whether the dispatched frame is to be acknowledged. -/
def ackWanted (c : Byte) (dispAck : Bool) : Bool :=
  decide (c = cmdTransCmd) || decide (c = cmdFileParam)
    || ((decide (c = cmdFilePacket) || decide (c = cmdCustomize)) && dispAck)

/-- R198: DISPATCH. -/
def onDispatch (p : Parser) (done dispAck : Bool) : ParserStep :=
  if done then
    if ackWanted p.cmd dispAck then quietStep { p with sub := .ackReq } else quietStep (parserReset p)
  else quietStep p

/-- R199: ACKREQ. -/
def onAckReq (p : Parser) (encoderIdle : Bool) : ParserStep :=
  if encoderIdle then quietStep (parserReset p) else quietStep p

/-- R201: one enabled parser step, on the pre-state queue and this cycle's inputs. -/
def parserStep (P : Params) (b : Block) (i : Inputs) : ParserStep :=
  if b.p.sub = .dispatch then onDispatch b.p i.disp_done i.disp_ack
  else if b.p.sub = .ackReq then onAckReq b.p (decide (b.e.sub = .idle))
  else
    match qTryPop b.q with
    | some x => onByte P b.p x
    | none => onEmpty P b.p i.tick

/-- R316 phase 5: the parser's part of a cycle. -/
def parserPhase (P : Params) (b : Block) (i : Inputs) : ParserStep :=
  if pstep b i then parserStep P b i else quietStep b.p

end Sys2Proof.Machine
end

