-- ==== Sys2Proof/Machine/Encoder.lean ====
section
/-! DEFINITION. The FrameEncoder/Sender unit (44_frame_encoder.md): the byte it offers (R245), the transfer and the
advance (R247), the payload handshake (R248), and the two ways it takes a request (R242, R243). -/

namespace Sys2Proof.Machine

/-- R246, R63: ACK_ROM read at e_idx. -/
def ackRom (k : Half) : Byte := ackPayload.getD k.toNat 0

/-- R245: out_valid. -/
def outValid (e : Encoder) (i : Inputs) : Bool :=
  match e.sub, e.src with
  | .idle, _ => false
  | .payload, .ext => i.tx_dvalid
  | _, _ => true

/-- R245: out_byte. -/
def outByte (P : Params) (e : Encoder) (i : Inputs) : Byte :=
  match e.sub with
  | .idle => 0x00
  | .head0 => headMagic0
  | .head1 => headMagic1
  | .cmd => e.cmd
  | .lenHi => hiByte e.len
  | .lenLo => loByte e.len
  | .payload =>
    match e.src with
    | .ack => ackRom e.idx
    | .ext => if i.tx_dvalid then i.tx_data else 0x00
  | .tail0 => tailMagic0 P
  | .tail1 => tailMagic1 P
  | .sum => e.acc

/-- R247: `xfer`, a byte transfers in this cycle. -/
def xfer (e : Encoder) (i : Inputs) : Bool := outValid e i && i.out_ready

/-- R248: tx_dready. -/
def txDready (e : Encoder) (i : Inputs) : Bool :=
  decide (e.sub = .payload) && decide (e.src = .ext) && i.out_ready

/-- R247: the encoder after the transfer of the byte o. -/
def advance (P : Params) (e : Encoder) (o : Byte) : Encoder :=
  match e.sub with
  | .idle => e
  | .head0 => { e with sub := .head1, acc := add8 e.acc o }
  | .head1 => { e with sub := .cmd, acc := add8 e.acc o }
  | .cmd => { e with sub := .lenHi, acc := add8 e.acc (cmdTerm P o) }
  | .lenHi => { e with sub := .lenLo, acc := add8 e.acc o }
  | .lenLo => { e with sub := if e.len = 0 then .tail0 else .payload, acc := add8 e.acc o }
  | .payload =>
    { e with sub := if e.idx + 1 = e.len then .tail0 else .payload, idx := e.idx + 1, acc := add8 e.acc o }
  | .tail0 => { e with sub := .tail1, acc := add8 e.acc o }
  | .tail1 => { e with sub := .sum, acc := add8 e.acc o }
  | .sum => { e with sub := .idle }

/-- R242: the request for an ACK frame, loaded. -/
@[simps] def loadAck : Encoder :=
  { sub := .head0, src := .ack, cmd := cmdAck, len := 0x0004, idx := 0, acc := 0x00 }

/-- R243: an external request, loaded. -/
@[simps] def loadExt (cmd : Byte) (len : Half) : Encoder :=
  { sub := .head0, src := .ext, cmd := cmd, len := len, idx := 0, acc := 0x00 }

/-- R243: tx_accept in a cycle without rst, given whether the ACK request is taken. -/
def accepts (e : Encoder) (i : Inputs) (ackTaken : Bool) : Bool :=
  decide (e.sub = .idle) && i.tx_req && !ackTaken

/-- R316 phase 6: the encoder's part of a cycle. -/
def encoderPhase (P : Params) (e : Encoder) (i : Inputs) (ackTaken : Bool) : Encoder :=
  if e.sub = .idle then
    if ackTaken then loadAck
    else if i.tx_req then loadExt i.tx_cmd i.tx_len
    else e
  else if xfer e i then advance P e (outByte P e i)
  else e

end Sys2Proof.Machine
end

