-- ==== Sys2Proof/Machine/Cycle.lean ====
section
/-! DEFINITION. One clock cycle: the step function of 00_scope.md R10 in the phase order of 70_reset_and_hazards.md R316,
`cycle : Params → Block → Inputs → Block × Outputs`, and the machine's operations made of it: `clock` runs a cycle on a
state, `perform` runs the cycles of one operation. -/

namespace Sys2Proof.Machine

/-- R316 phase 3: the queue after this cycle's pop, by the one consumer the mode selects (R100). -/
def popPhase (P : Params) (b : Block) (i : Inputs) : Queue :=
  if replTakes b i || parserTakes b i then qPop P b.q else b.q

/-- R316 phase 4: the push, on the queue the pop left. -/
def pushPhase (P : Params) (q : Queue) (i : Inputs) : Queue := if i.in_valid then qPush P q i.in_byte else q

/-- R316 phase 7: the mode after this cycle. -/
def modePhase (b : Block) (i : Inputs) : Mode := (modeChange b i).getD b.mode

/-- R316: the block at the end of a cycle. -/
def nextBlock (P : Params) (b : Block) (i : Inputs) : Block :=
  if i.rst then Block.reset
  else
    { q := pushPhase P (popPhase P b i) i
      mode := modePhase b i
      p := if controlAction b i then parserReset b.p else (parserPhase P b i).p
      e := encoderPhase P b.e i (ackTake b i) }

/-- R88, R283, R316: the event of a cycle. -/
def eventOf (P : Params) (b : Block) (i : Inputs) : Event :=
  if i.rst then .none
  else if controlAction b i then (if i.repl_err then .lineOverflow else .none)
  else (parserPhase P b i).evt

/-- R197: the rx_ack pulse of a cycle. -/
def rxAckOf (P : Params) (b : Block) (i : Inputs) : Bool :=
  if i.rst || controlAction b i then false else (parserPhase P b i).rxAck

/-- R243: the tx_accept pulse of a cycle. -/
def txAcceptOf (b : Block) (i : Inputs) : Bool := !i.rst && accepts b.e i (ackTake b i)

/-- R62: the dispatch read port. -/
def dispRdata (b : Block) (addr : Half) : Byte :=
  if b.p.sub = .dispatch ∧ addr.toNat < b.p.len.toNat then b.p.buf.read addr.toNat else 0x00

/-- R106: repl_rvalid. -/
def replValid (b : Block) : Bool := decide (b.mode = .asciiRepl) && !qEmpty b.q

/-- R87: the outputs of a cycle, functions of the pre-state and this cycle's inputs (R315). In an rst cycle the pulses and
tx_dready are 0 (R310) and every other output is as ever (log 8). -/
def outputsOf (P : Params) (b : Block) (i : Inputs) : Outputs :=
  { mode_o := b.mode
    pstate_o := b.p.sub.pstate
    q_empty_o := qEmpty b.q
    q_ovr_o := b.q.ovr
    enc_busy_o := decide (b.e.sub ≠ .idle)
    repl_rvalid := replValid b
    repl_rdata := if replValid b then qFront b.q else 0x00
    disp_valid := decide (b.p.sub = .dispatch)
    disp_cmd := if b.p.sub = .dispatch then b.p.cmd else 0x00
    disp_len := if b.p.sub = .dispatch then b.p.len else 0x0000
    disp_rdata := dispRdata b i.disp_raddr
    tx_accept := txAcceptOf b i
    tx_dready := !i.rst && txDready b.e i
    out_valid := outValid b.e i
    out_byte := outByte P b.e i
    evt := eventOf P b i
    rx_ack := rxAckOf P b i }

/-- R10: the step function, one application per clock cycle. -/
def cycle (P : Params) (b : Block) (i : Inputs) : Block × Outputs := (nextBlock P b i, outputsOf P b i)

/-- R250: the byte that leaves on out_byte in this cycle, if one does; none in an rst cycle, whose inputs are ignored. -/
def sentByte (P : Params) (b : Block) (i : Inputs) : Option Byte :=
  if !i.rst && xfer b.e i then some (outByte P b.e i) else none

/-- The state in which an operation begins: no outputs recorded yet, and the value the operation gives. -/
@[simps] def beginOp (ret : Result) (s : State) : State := { s with outs := [], ret := ret }

/-- R316 phase 8: the state after a cycle, every write committed and the cycle's outputs recorded. -/
@[simps] def endCycle (i : Inputs) (s : State) : State :=
  { s with
    blk := (cycle s.params s.blk i).1
    outs := s.outs ++ [(cycle s.params s.blk i).2] }

/-- One clock cycle of the machine. A cycle that would form an array index out of range stops (log 7). -/
def clock (i : Inputs) (s : State) : Host.Outcome State Fault Refusal :=
  if i.rst || indexed s.params s.blk then .next (endCycle i s) else .fault .indexOutOfRange

/-- Clock cycles one after another, stopping at the first that stops. -/
def clockAll : List Inputs → State → Host.Outcome State Fault Refusal
  | [], s => .next s
  | i :: rest, s =>
    match clock i s with
    | .next t => clockAll rest t
    | .fault f => .fault f
    | .refused r => .refused r

/-- The cycles of one operation, one after another. -/
def perform (cycles : List Inputs) (ret : Result) (s : State) : Host.Outcome State Fault Refusal :=
  clockAll cycles (beginOp ret s)

end Sys2Proof.Machine
end

