-- ==== Sys2Proof/Machine/FrameOps.lean ====
section
/-! DEFINITION. The meanings of the wire frames (30_encoding.md R80, R83): the frame's bytes arrive on the link while the
parser steps, and the parser reads, checks and classifies them (R185 to R197). A dispatched frame is left in DISPATCH for
the sink's answer (R198) and the ACK hand-over (R199), which are operations of their own. -/

namespace Sys2Proof.Machine

/-- R80, R89: a frame with this command arrives, L + 8 cycles of `feedstep` and one `step`. -/
def receiveFrame (c : Byte) (payload : List Byte) (s : State) : Host.Outcome State Fault Refusal :=
  perform (driveLink (frameBytes s.params c payload) s.pins) .none s

/-- TRANS_CMD (R197). -/
def execTransCmd (payload : List Byte) (s : State) : Host.Outcome State Fault Refusal :=
  receiveFrame cmdTransCmd payload s

/-- ACK (R197). -/
def execAck (payload : List Byte) (s : State) : Host.Outcome State Fault Refusal := receiveFrame cmdAck payload s

/-- FILE_PARAM (R197). -/
def execFileParam (payload : List Byte) (s : State) : Host.Outcome State Fault Refusal :=
  receiveFrame cmdFileParam payload s

/-- FILE_PACKET (R197). -/
def execFilePacket (payload : List Byte) (s : State) : Host.Outcome State Fault Refusal :=
  receiveFrame cmdFilePacket payload s

/-- CUSTOMIZE (R197). -/
def execCustomize (payload : List Byte) (s : State) : Host.Outcome State Fault Refusal :=
  receiveFrame cmdCustomize payload s

end Sys2Proof.Machine
end

