-- ==== Sys2Proof/Machine/ModeOps.lean ====
section
/-! DEFINITION. The meanings of the mode controller's operations (41_mode_controller.md) and of the hardware reset
(70_reset_and_hazards.md R310). -/

namespace Sys2Proof.Machine

/-- set_mode AsciiRepl (R131). -/
def execSetModeAsciiRepl (s : State) : Host.Outcome State Fault Refusal := perform [driveMode 0x00 s.pins] .none s

/-- set_mode BinaryFrame (R131). -/
def execSetModeBinaryFrame (s : State) : Host.Outcome State Fault Refusal := perform [driveMode 0x01 s.pins] .none s

/-- rst (R310). -/
def execRst (s : State) : Host.Outcome State Fault Refusal := perform [driveRst true s.pins] .none s

/-- current_mode (R130). -/
def execCurrentMode (s : State) : Host.Outcome State Fault Refusal := perform [s.pins] (.mode s.blk.mode) s

/-- current_state (R133). -/
def execCurrentState (s : State) : Host.Outcome State Fault Refusal :=
  perform [s.pins] (.parserState s.blk.p.sub.pstate) s

/-- reset() from outside, on soft_reset (R134, R135). -/
def execReset (s : State) : Host.Outcome State Fault Refusal := perform [driveSoftReset true s.pins] .none s

/-- A REPL error, on repl_err (R135). -/
def execReplError (s : State) : Host.Outcome State Fault Refusal := perform [driveReplErr true s.pins] .none s

end Sys2Proof.Machine
end

