-- ==== Sys2Proof/Machine/ParserOps.lean ====
section
/-! DEFINITION. The meanings of the parser's operations (43_frame_parser.md) and of the checksum unit
(42_checksum.md). -/

namespace Sys2Proof.Machine

/-- process_step (R137, R201). -/
def execProcessStep (s : State) : Host.Outcome State Fault Refusal := perform [driveStep true s.pins] .none s

/-- checksum (R160, R162): combinational, so the cycle it is read in goes on as the held lines say (log 11). -/
def execChecksum (frame : Option Frame) (s : State) : Host.Outcome State Fault Refusal :=
  perform [s.pins] (.sum (checksumOf s.params frame)) s

/-- The return of the dispatch call (R198): disp_done = 1 with disp_ack. -/
def execDispatchDone (ackBit : Bool) (s : State) : Host.Outcome State Fault Refusal :=
  perform [driveDisp true ackBit s.pins] .none s

/-- send_ack (R199, R242): the parser's step in which it hands the ACK over; gives whether the encoder took it. -/
def execSendAck (s : State) : Host.Outcome State Fault Refusal :=
  perform [driveStep true s.pins] (.flag (ackTake s.blk (driveStep true s.pins))) s

end Sys2Proof.Machine
end

