-- ==== Sys2Proof/Machine/QueueOps.lean ====
section
/-! DEFINITION. The meanings of the queue's operations (40_bytequeue.md): push, try_pop by either consumer, pop_blocking
and is_empty. Each is one clock cycle in which the operation's lines are driven and every other line is as held. -/

namespace Sys2Proof.Machine

/-- push (R101, R102). -/
def execPush (b : Byte) (s : State) : Host.Outcome State Fault Refusal :=
  perform [driveIn true b s.pins] .none s

/-- R106: what the REPL's try_pop gives in a cycle. -/
def replPopped (b : Block) (i : Inputs) : Option Byte := if replTakes b i then some (qFront b.q) else none

/-- try_pop.repl (R106). -/
def execTryPopRepl (s : State) : Host.Outcome State Fault Refusal :=
  perform [driveReplPop true s.pins] (.popped (replPopped s.blk (driveReplPop true s.pins))) s

/-- R105, R181: what the parser's try_pop gives in a cycle. -/
def parserPopped (b : Block) (i : Inputs) : Option Byte := if parserTakes b i then some (qFront b.q) else none

/-- try_pop.parser (R105, R181). -/
def execTryPopParser (stepEn : Bool) (s : State) : Host.Outcome State Fault Refusal :=
  perform [driveStep stepEn s.pins] (.popped (parserPopped s.blk (driveStep stepEn s.pins))) s

/-- R107, R183: what one poll of pop_blocking comes to in a cycle. -/
def pollResult (P : Params) (b : Block) (i : Inputs) : Poll :=
  match parserPopped b i with
  | some x => .byte x
  | none => if eventOf P b i = .timeout then .timeout else .waiting

/-- pop_blocking (R107, R181, R183, R184). -/
def execPopBlocking (stepEn tick : Bool) (s : State) : Host.Outcome State Fault Refusal :=
  perform [driveStepTick stepEn tick s.pins]
    (.polled (pollResult s.params s.blk (driveStepTick stepEn tick s.pins))) s

/-- is_empty (R108). -/
def execIsEmpty (s : State) : Host.Outcome State Fault Refusal := perform [s.pins] (.flag (qEmpty s.blk.q)) s

end Sys2Proof.Machine
end

