-- ==== Sys2Proof/Machine/SenderOps.lean ====
section
/-! DEFINITION. The meanings of the sender's operations (44_frame_encoder.md). -/

namespace Sys2Proof.Machine

/-- send_frame (R243): the request in one cycle; gives tx_accept. A sender that was not accepted holds the request, that is
asks again (log 18). -/
def execSendFrame (cmd : Byte) (len : Half) (s : State) : Host.Outcome State Fault Refusal :=
  perform [driveTx true cmd len s.pins] (.flag (txAcceptOf s.blk (driveTx true cmd len s.pins))) s

/-- byte_out (R245, R247): gives the byte that transfers, if one does. -/
def execByteOut (ready : Bool) (s : State) : Host.Outcome State Fault Refusal :=
  perform [driveOut ready s.pins] (.popped (sentByte s.params s.blk (driveOut ready s.pins))) s

end Sys2Proof.Machine
end

