-- ==== Sys2Proof/Machine/Dispatch.lean ====
section
/-! DEFINITION. The dispatch: one arm per constructor of `Instr`, each one call of that instruction's meaning. -/

namespace Sys2Proof.Machine

def exec (i : Instr) (s : State) : Host.Outcome State Fault Refusal :=
  match i with
  | .transCmd payload => Sys2Proof.Machine.execTransCmd payload s
  | .ack payload => Sys2Proof.Machine.execAck payload s
  | .fileParam payload => Sys2Proof.Machine.execFileParam payload s
  | .filePacket payload => Sys2Proof.Machine.execFilePacket payload s
  | .customize payload => Sys2Proof.Machine.execCustomize payload s
  | .setModeAsciiRepl => Sys2Proof.Machine.execSetModeAsciiRepl s
  | .setModeBinaryFrame => Sys2Proof.Machine.execSetModeBinaryFrame s
  | .rst => Sys2Proof.Machine.execRst s
  | .push b => Sys2Proof.Machine.execPush b s
  | .tryPopRepl => Sys2Proof.Machine.execTryPopRepl s
  | .tryPopParser stepEn => Sys2Proof.Machine.execTryPopParser stepEn s
  | .popBlocking stepEn tick => Sys2Proof.Machine.execPopBlocking stepEn tick s
  | .isEmpty => Sys2Proof.Machine.execIsEmpty s
  | .currentMode => Sys2Proof.Machine.execCurrentMode s
  | .currentState => Sys2Proof.Machine.execCurrentState s
  | .reset => Sys2Proof.Machine.execReset s
  | .replError => Sys2Proof.Machine.execReplError s
  | .processStep => Sys2Proof.Machine.execProcessStep s
  | .checksum frame => Sys2Proof.Machine.execChecksum frame s
  | .dispatchDone ackBit => Sys2Proof.Machine.execDispatchDone ackBit s
  | .sendFrame cmd len => Sys2Proof.Machine.execSendFrame cmd len s
  | .sendAck => Sys2Proof.Machine.execSendAck s
  | .byteOut ready => Sys2Proof.Machine.execByteOut ready s

end Sys2Proof.Machine
end

