-- ==== Sys2Proof/Machine/Fetch.lean ====
section
/-! DEFINITION. Where the next operation comes from. The block has no program counter (10_state.md R21): its collaborators
drive its ports. The model reads the next entry of the stimulus, takes its held lines, and leaves the rest (log 5). -/

namespace Sys2Proof.Machine

/-- The state in which a stimulus entry's operation runs: its lines held, the rest of the stimulus still to come. -/
@[simps] def takeStimulus (e : Stimulus) (rest : List Stimulus) (s : State) : State := { s with pins := e.pins, stim := rest }

/-- A cycle in which no operation is driven: every line as it is held (log 4). -/
def idleStep (s : State) : Host.Outcome State Fault Refusal := perform [s.pins] .none s

/-- A port word that is no operation of the table still drives its lines: an invalid mode code is ignored (R131), bytes that
are no frame are hunted through or reported (R185 to R197), a strobe at 0 asks for nothing (log 13). -/
def rawStep (w : PortWord) (s : State) : Host.Outcome State Fault Refusal := perform (rawInputs w s.pins) .none s

/-- A table word placed as the next entry of the stimulus, with the lines held as they are. -/
def placeWord (s : State) (nbits w : Nat) : State :=
  { s with stim := { word := tableWord s.params nbits w, pins := s.pins } :: s.stim }

end Sys2Proof.Machine
end

