-- ==== Sys2Proof/Machine/Step.lean ====
section
/-! DEFINITION. One step of the machine: the next operation of the stimulus. -/

namespace Sys2Proof.Machine

/-- One step: the next port word, decoded and executed; a word that decodes to no operation drives its bits; with no
stimulus left, one cycle with every line as it is held. -/
def step (s : State) : Host.Outcome State Fault Refusal :=
  match s.stim with
  | [] => idleStep s
  | e :: rest =>
    match decode s.params e.word with
    | .ok i => exec i (takeStimulus e rest s)
    | .error _ => rawStep e.word (takeStimulus e rest s)

/-- The state with a table word stored where `step` takes its next operation. -/
def State.withFetchWord (s : State) (nbits w : Nat) : State := placeWord s nbits w

end Sys2Proof.Machine
end

