-- ==== Sys2Proof/Safety.lean ====
section
/-! DEFINITION. What the statements are said in: the invariant every step keeps, the hypotheses a statement puts on the
held lines, and what a run of the block puts on its output port. Nothing here is used by the machine. -/

namespace Sys2Proof.Machine

/-! ### The invariant of the block -/

/-- The payload bytes received so far: `p_buf[0 .. p_idx - 1]`. -/
def received (p : Parser) : List Byte := p.buf.firstBytes p.idx.toNat

/-- R163: the running sum after head, cmd and len. -/
def sumFront (P : Params) (c : Byte) (len : Half) : Byte :=
  headMagic0 + headMagic1 + cmdTerm P c + hiByte len + loByte len

/-- R190: nothing is in p_buf at or above p_idx. -/
def bufferOk (p : Parser) : Prop := p.buf.wf = true ∧ p.buf.below p.idx.toNat = true

/-- R189, R192: the payload is complete and within the buffer. -/
def payloadComplete (P : Params) (p : Parser) : Prop :=
  p.idx = p.len ∧ p.len.toNat ≤ P.payloadMax ∧ bufferOk p

/-- R196: the whole frame is in the scratch storage and `p_acc` is its checksum. -/
def frameComplete (P : Params) (p : Parser) : Prop :=
  payloadComplete P p ∧ p.t0 = tailMagic0 P ∧ p.acc = frameChecksum P p.cmd (received p)

/-- R136, R163, R190, R192, R200: what the scratch storage holds in each sub-state, the running checksum of the bytes
received among it, and the timer below its budget. -/
def ParserOk (P : Params) (p : Parser) : Prop :=
  match p.sub with
  | .head0 => p = Parser.reset
  | .head1 =>
    p.cmd = 0 ∧ p.len = 0 ∧ p.idx = 0 ∧ p.t0 = 0 ∧ p.buf = [] ∧ p.acc = headMagic0 ∧ p.tim < P.tHead
  | .cmd =>
    p.cmd = 0 ∧ p.len = 0 ∧ p.idx = 0 ∧ p.t0 = 0 ∧ p.buf = [] ∧ p.acc = headMagic0 + headMagic1 ∧ p.tim < P.tCmd
  | .lenHi =>
    p.len = 0 ∧ p.idx = 0 ∧ p.t0 = 0 ∧ p.buf = [] ∧ p.acc = sumFront P p.cmd 0 ∧ p.tim < P.tLen
  | .lenLo =>
    loByte p.len = 0 ∧ p.idx = 0 ∧ p.t0 = 0 ∧ p.buf = [] ∧ p.acc = sumFront P p.cmd p.len ∧ p.tim < P.tLen
  | .payload =>
    p.idx.toNat < p.len.toNat ∧ p.len.toNat ≤ P.payloadMax ∧ bufferOk p ∧ p.t0 = 0
      ∧ p.acc = sumFront P p.cmd p.len + sumBytes (received p) ∧ p.tim < P.tPayload
  | .tail0 =>
    payloadComplete P p ∧ p.t0 = 0 ∧ p.acc = sumFront P p.cmd p.len + sumBytes (received p) ∧ p.tim < P.tTail
  | .tail1 =>
    payloadComplete P p ∧ p.acc = sumFront P p.cmd p.len + sumBytes (received p) + p.t0 ∧ p.tim < P.tTail
  | .sum => frameComplete P p ∧ p.tim < P.tSum
  | .dispatch =>
    frameComplete P p ∧ p.tim = 0
      ∧ (p.cmd = cmdTransCmd ∨ p.cmd = cmdFileParam ∨ p.cmd = cmdFilePacket ∨ p.cmd = cmdCustomize)
  | .ackReq =>
    frameComplete P p ∧ p.tim = 0
      ∧ (p.cmd = cmdTransCmd ∨ p.cmd = cmdFileParam ∨ p.cmd = cmdFilePacket ∨ p.cmd = cmdCustomize)

/-- R61: the cursors lie in 0..C-1 and the storage is a canonical array of C slots. -/
def QueueOk (P : Params) (q : Queue) : Prop :=
  q.wr < P.cap ∧ q.rd < P.cap ∧ q.buf.wf = true ∧ q.buf.below P.cap = true

/-- R163, R242, R247: how far the encoder is in its frame, and its running sum where the payload is ACK_ROM's. -/
def EncoderOk (P : Params) (e : Encoder) : Prop :=
  match e.sub with
  | .idle => True
  | .head0 => (e.src = .ack → e.cmd = cmdAck ∧ e.len = 4) ∧ e.idx = 0 ∧ e.acc = 0
  | .head1 => (e.src = .ack → e.cmd = cmdAck ∧ e.len = 4) ∧ e.idx = 0 ∧ e.acc = headMagic0
  | .cmd => (e.src = .ack → e.cmd = cmdAck ∧ e.len = 4) ∧ e.idx = 0 ∧ e.acc = headMagic0 + headMagic1
  | .lenHi => (e.src = .ack → e.cmd = cmdAck ∧ e.len = 4) ∧ e.idx = 0 ∧ e.acc = sumFront P e.cmd 0
  | .lenLo =>
    (e.src = .ack → e.cmd = cmdAck ∧ e.len = 4) ∧ e.idx = 0
      ∧ e.acc = headMagic0 + headMagic1 + cmdTerm P e.cmd + hiByte e.len
  | .payload =>
    e.idx.toNat < e.len.toNat
      ∧ (e.src = .ack → e.cmd = cmdAck ∧ e.len = 4
          ∧ e.acc = sumFront P e.cmd e.len + sumBytes (ackPayload.take e.idx.toNat))
  | .tail0 =>
    e.idx = e.len
      ∧ (e.src = .ack → e.cmd = cmdAck ∧ e.len = 4 ∧ e.acc = sumFront P e.cmd e.len + sumBytes ackPayload)
  | .tail1 =>
    e.idx = e.len
      ∧ (e.src = .ack → e.cmd = cmdAck ∧ e.len = 4
          ∧ e.acc = sumFront P e.cmd e.len + sumBytes ackPayload + tailMagic0 P)
  | .sum =>
    e.idx = e.len ∧ (e.src = .ack → e.cmd = cmdAck ∧ e.len = 4 ∧ e.acc = frameChecksum P cmdAck ackPayload)

/-- The invariant of the block: R61, R136, R163, R190, R192, R200 and R242. -/
def Block.Ok (P : Params) (b : Block) : Prop :=
  QueueOk P b.q ∧ ParserOk P b.p ∧ EncoderOk P b.e ∧ (b.mode = .asciiRepl → b.p.sub = .head0)

/-- The invariant of the machine. -/
def State.Inv (s : State) : Prop := s.blk.Ok s.params

/-- What the statements about one operation need of a state: no index is about to leave its array, and the two arrays are in
their canonical form. The invariant gives it. -/
def Ready (s : State) : Prop :=
  indexed s.params s.blk = true ∧ s.blk.q.buf.wf = true ∧ s.blk.p.buf.wf = true

/-! ### Hypotheses on the held lines -/

/-- No line asks anything of the block while it is held: every operation but the one driven is away. -/
structure Quiet (i : Inputs) : Prop where
  rst : i.rst = false
  in_valid : i.in_valid = false
  step_en : i.step_en = false
  mode_wr : i.mode_wr = false
  soft_reset : i.soft_reset = false
  repl_err : i.repl_err = false
  repl_pop : i.repl_pop = false
  tx_req : i.tx_req = false
  out_ready : i.out_ready = false

/-- R137 but for step_en: the parser steps in a cycle with step_en = 1 under these held lines. -/
def ParserEnabled (s : State) : Prop :=
  s.pins.rst = false ∧ s.blk.mode = .binaryFrame ∧ controlAction s.blk s.pins = false

/-- The parser hunts for a head in an empty queue, and nothing but the frame's own bytes is pushed. -/
def Listening (s : State) : Prop :=
  s.Inv ∧ ParserEnabled s ∧ s.pins.in_valid = false ∧ s.blk.p = Parser.reset ∧ s.blk.q.wr = s.blk.q.rd

/-! ### Runs of the block -/

/-- The block after a run of cycles. -/
def runBlock (P : Params) : Block → List Inputs → Block
  | b, [] => b
  | b, i :: rest => runBlock P (cycle P b i).1 rest

/-- The bytes a run puts on the transport, in order (R74). -/
def sentBytes (P : Params) : Block → List Inputs → List Byte
  | _, [] => []
  | b, i :: rest => (sentByte P b i).toList ++ sentBytes P (cycle P b i).1 rest

/-- R248: the external sender's byte taken in a cycle. -/
def takenByte (P : Params) (b : Block) (i : Inputs) : Option Byte :=
  if (outputsOf P b i).tx_dready && i.tx_dvalid then some i.tx_data else none

/-- The external sender's bytes a run takes, in order (R248). -/
def takenBytes (P : Params) : Block → List Inputs → List Byte
  | _, [] => []
  | b, i :: rest => (takenByte P b i).toList ++ takenBytes P (cycle P b i).1 rest

/-- The encoder is busy before each cycle of a run, and idle after the last. -/
def BusyUntilEnd (P : Params) (b : Block) (ins : List Inputs) : Prop :=
  (∀ k, k < ins.length → (runBlock P b (ins.take k)).e.sub ≠ .idle) ∧ (runBlock P b ins).e.sub = .idle

/-! ### Outcomes -/

/-- What an outcome shows of the block: its next state and the outputs of the operation's cycles. -/
def shown (o : Host.Outcome State Fault Refusal) : Option (Block × List Outputs) :=
  match o with
  | .next t => some (t.blk, t.outs)
  | .fault _ => none
  | .refused _ => none

/-- Every output of an operation reports nothing: no error and no rx_ack. -/
def AllSilent (outs : List Outputs) : Prop := ∀ o ∈ outs, o.evt = .none ∧ o.rx_ack = false

end Sys2Proof.Machine
end

