-- ==== Sys2Proof/Certificates/Slice0/Obligations.lean ====
section
/-! DEFINITION. The statements for the provers, one `def Obligations.<Name> : Prop` each. They come from the numbered rules of
spec/; a docstring names the rule. `Ready s` says that no array index is about to leave its array and that the arrays are
canonical, which the invariant gives (`InvariantStateNeverStops`); `Quiet` says that no other operation is driven. -/

open Sys2Proof Sys2Proof.Machine

/-! ### Encoding, decoding and the step -/

/-- No bit of any operation's word is dropped (R80, R83, R85, R86). -/
def Obligations.DecodeOfEncodeIsTheInstruction : Prop :=
  ∀ (P : Params) (i : Instr), i.wf = true → decode P (encode P i) = .ok i

/-- A word that decodes is the word of its instruction, and the instruction is well formed. -/
def Obligations.EncodeOfDecodeIsTheWord : Prop :=
  ∀ (P : Params) (w : PortWord) (i : Instr), decode P w = .ok i → encode P i = w ∧ i.wf = true

/-- Words written out from R80, R83, R85, R86 and the table's encodings stand for their operations; words that are no
operation are rejected by name (R82, R84, R85, R164). -/
def Obligations.SpecWordsDecodeToTheirOperations : Prop :=
  let P := Config.params
  decode P (.link [0xFE, 0x5A, 0x01, 0x00, 0x03, 0x41, 0x42, 0x43, 0xFA, 0xE3, 0xFF]) = .ok (.transCmd [0x41, 0x42, 0x43])
    ∧ decode P (.link [0xFE, 0x5A, 0x02, 0x00, 0x04, 0x41, 0x43, 0x4B, 0x00, 0xFA, 0xE3, 0x0A])
        = .ok (.ack [0x41, 0x43, 0x4B, 0x00])
    ∧ decode P (.link [0xFE, 0x5A, 0x03, 0x00, 0x00, 0xFA, 0xE3, 0x38]) = .ok (.fileParam [])
    ∧ decode P (.link [0xFE, 0x5A, 0x04, 0x00, 0x02, 0xFE, 0x5A, 0xFA, 0xE3, 0x93]) = .ok (.filePacket [0xFE, 0x5A])
    ∧ decode P (.link [0xFE, 0x5A, 0x05, 0x00, 0x02, 0x11, 0x22, 0xFA, 0xE3, 0x6F]) = .ok (.customize [0x11, 0x22])
    ∧ decode P (.modeVal 0x00) = .ok .setModeAsciiRepl
    ∧ decode P (.modeVal 0x01) = .ok .setModeBinaryFrame
    ∧ decode P (.inPort 0b101000001#9) = .ok (.push 0x41)
    ∧ decode P (.stepTick 0b01#2) = .ok (.popBlocking false true)
    ∧ decode P (.dispPort 0b10#2) = .ok (.dispatchDone false)
    ∧ decode P (.txPort 0b1000001010000000000000010#25) = .ok (.sendFrame 0x05 0x0002)
    ∧ decode P (.link [0xFE, 0x5A, 0x09, 0x00, 0x01, 0x41, 0xFA, 0xE3, 0x80]) = .error .unknownCommand
    ∧ decode P (.link [0xFE, 0x5A, 0x01, 0x00, 0x00, 0xFA, 0xE3, 0x35]) = .error .badSum
    ∧ decode P (.link [0xFE, 0x5A, 0x01, 0x00, 0x00, 0xFB, 0xE3, 0x37]) = .error .badTail
    ∧ decode P (.link [0xFE, 0xFE, 0x01, 0x00, 0x00, 0xFA, 0xE3, 0x36]) = .error .badHead
    ∧ decode P (.modeVal 0x07) = .error .invalidMode
    ∧ decode P (.inPort 0b001000001#9) = .error .notAsserted

/-- When the next port word decodes, the step is that operation, under the entry's held lines and with the rest of the
stimulus still to come. -/
def Obligations.StepExecutesTheDecodedOperation : Prop :=
  ∀ (s : State) (e : Stimulus) (rest : List Stimulus) (i : Instr),
    s.stim = e :: rest → decode s.params e.word = .ok i →
      step s = exec i { s with pins := e.pins, stim := rest }

/-- With no stimulus left, a step is one cycle under the held lines (the model's choice, log 4 and log 5). -/
def Obligations.StepWithoutStimulusIsOneHeldCycle : Prop :=
  ∀ s : State, Ready s → s.stim = [] →
    ∃ t, step s = .next t ∧ t.blk = (cycle s.params s.blk s.pins).1 ∧ t.outs = [(cycle s.params s.blk s.pins).2]
      ∧ t.params = s.params ∧ t.pins = s.pins ∧ t.stim = []

/-- What the decoder makes of a word is what the word's bits drive on the ports: the operation and the bare bits show the
same next block and the same outputs. -/
def Obligations.DecodedOperationDrivesItsBits : Prop :=
  ∀ (s : State) (w : PortWord) (i : Instr), decode s.params w = .ok i →
    shown (exec i s) = shown (perform (rawInputs w s.pins) .none s)

/-! ### Hardware reset -/

/-- The reset state holds the value R310 gives each register, and nothing else is placed (logs 4, 5 and 6 for the rest). -/
def Obligations.ResetStateHoldsTheSpecValues : Prop :=
  let b := State.reset.blk
  b.mode = .asciiRepl ∧ b.p.sub = .head0 ∧ b.p.cmd = 0 ∧ b.p.len = 0 ∧ b.p.idx = 0 ∧ b.p.acc = 0 ∧ b.p.t0 = 0
    ∧ b.p.tim = 0 ∧ (∀ k, b.p.buf.read k = 0) ∧ b.q.wr = 0 ∧ b.q.rd = 0 ∧ b.q.ovr = false
    ∧ b.e.sub = .idle ∧ b.e.src = .ack ∧ b.e.cmd = 0 ∧ b.e.len = 0 ∧ b.e.idx = 0 ∧ b.e.acc = 0
    ∧ State.reset.stim = []

/-- R310, R311: one cycle of rst, from any state and whatever else is driven, leaves every register at its reset value; in that
cycle the pulses and tx_dready are 0 and the status outputs show the pre-state. -/
def Obligations.RstResetsTheBlockFromAnyState : Prop :=
  ∀ s : State, ∃ (t : State) (o : Outputs), exec .rst s = .next t ∧ t.outs = [o]
    ∧ t.blk.mode = .asciiRepl ∧ t.blk.p.sub = .head0 ∧ t.blk.p.cmd = 0 ∧ t.blk.p.len = 0 ∧ t.blk.p.idx = 0
    ∧ t.blk.p.acc = 0 ∧ t.blk.p.t0 = 0 ∧ t.blk.p.tim = 0 ∧ (∀ k, t.blk.p.buf.read k = 0)
    ∧ t.blk.q.wr = 0 ∧ t.blk.q.rd = 0 ∧ t.blk.q.ovr = false
    ∧ t.blk.e.sub = .idle ∧ t.blk.e.src = .ack ∧ t.blk.e.cmd = 0 ∧ t.blk.e.len = 0 ∧ t.blk.e.idx = 0
    ∧ t.blk.e.acc = 0
    ∧ o.evt = .none ∧ o.rx_ack = false ∧ o.tx_accept = false ∧ o.tx_dready = false
    ∧ o.mode_o = s.blk.mode ∧ o.pstate_o = s.blk.p.sub.pstate ∧ o.q_empty_o = decide (s.blk.q.wr = s.blk.q.rd)
    ∧ o.q_ovr_o = s.blk.q.ovr ∧ o.enc_busy_o = decide (s.blk.e.sub ≠ .idle)

/-! ### The mode controller -/

/-- R131, R85: set_mode with 0x00 and 0x01 gives that mode; a change of mode resets the parser and raises no event of its
own; writing the current mode is like writing nothing, in the block and on the outputs, and so is writing any other value. That a
value which names no operation is driven on mode_val all the same is the model's own reading (log 13, DEDUCED). -/
def Obligations.SetModeSwitchesAndResetsTheParser : Prop :=
  ∀ s : State, Ready s → s.pins.rst = false →
    let unwritten := cycle s.params s.blk { s.pins with mode_wr := false }
    let event := if s.pins.repl_err then Event.lineOverflow else Event.none
    (∃ (t : State) (o : Outputs), exec .setModeAsciiRepl s = .next t ∧ t.outs = [o] ∧ t.blk.mode = .asciiRepl
        ∧ (s.blk.mode = .binaryFrame → t.blk.p = Parser.reset ∧ o.evt = event)
        ∧ (s.blk.mode = .asciiRepl → t.blk = unwritten.1 ∧ o = unwritten.2))
      ∧ (∃ (t : State) (o : Outputs), exec .setModeBinaryFrame s = .next t ∧ t.outs = [o] ∧ t.blk.mode = .binaryFrame
        ∧ (s.blk.mode = .asciiRepl → t.blk.p = Parser.reset ∧ o.evt = event)
        ∧ (s.blk.mode = .binaryFrame → t.blk = unwritten.1 ∧ o = unwritten.2))
      ∧ (∀ (v : Byte) (rest : List Stimulus), v ≠ 0x00 → v ≠ 0x01 →
          ∃ t, step { s with stim := { word := .modeVal v, pins := s.pins } :: rest } = .next t
            ∧ t.blk = unwritten.1 ∧ t.outs = [unwritten.2])

/-- A mode write under quiet lines changes the mode and the parser, and nothing else (R134: not the queue, not the encoder). -/
def Obligations.SetModeLeavesQueueAndEncoder : Prop :=
  ∀ s : State, Ready s → Quiet s.pins →
    (∃ t, exec .setModeAsciiRepl s = .next t
        ∧ t.blk = { s.blk with mode := .asciiRepl, p := if s.blk.mode = .asciiRepl then s.blk.p else Parser.reset })
      ∧ (∃ t, exec .setModeBinaryFrame s = .next t
        ∧ t.blk = { s.blk with mode := .binaryFrame, p := if s.blk.mode = .binaryFrame then s.blk.p else Parser.reset })

/-- R141: the complete table of mode transitions, with the side effect of each; rst's is the hardware reset of every register
that R310 gives a value. Nothing inside the block changes the mode, and a write that does not change it has no side effect. -/
def Obligations.OnlyRstAndModeWritesChangeTheMode : Prop :=
  ∀ (P : Params) (b : Block) (i : Inputs),
    let b' := (cycle P b i).1
    (i.rst = true → b'.mode = .asciiRepl
        ∧ b'.p.sub = .head0 ∧ b'.p.cmd = 0 ∧ b'.p.len = 0 ∧ b'.p.idx = 0 ∧ b'.p.acc = 0 ∧ b'.p.t0 = 0 ∧ b'.p.tim = 0
        ∧ (∀ k, b'.p.buf.read k = 0) ∧ b'.q.wr = 0 ∧ b'.q.rd = 0 ∧ b'.q.ovr = false
        ∧ b'.e.sub = .idle ∧ b'.e.src = .ack ∧ b'.e.cmd = 0 ∧ b'.e.len = 0 ∧ b'.e.idx = 0 ∧ b'.e.acc = 0)
      ∧ (i.rst = false → i.mode_wr = true → i.mode_val = 0x00 →
          b'.mode = .asciiRepl ∧ (b.mode = .binaryFrame → b'.p = Parser.reset))
      ∧ (i.rst = false → i.mode_wr = true → i.mode_val = 0x01 →
          b'.mode = .binaryFrame ∧ (b.mode = .asciiRepl → b'.p = Parser.reset))
      ∧ (i.rst = false → (i.mode_wr = false ∨ (i.mode_val ≠ 0x00 ∧ i.mode_val ≠ 0x01)) → b'.mode = b.mode)
      ∧ (i.rst = false → ((i.mode_val = 0x00 ∧ b.mode = .asciiRepl) ∨ (i.mode_val = 0x01 ∧ b.mode = .binaryFrame)
            ∨ (i.mode_val ≠ 0x00 ∧ i.mode_val ≠ 0x01)) →
          cycle P b i = cycle P b { i with mode_wr := false })

/-- R134: reset() from outside zeroes the scratch storage and goes to HEAD0; it changes neither the queue, nor the encoder, nor
the mode, beyond what the other lines ask of them in the same cycle. -/
def Obligations.SoftResetClearsTheParserOnly : Prop :=
  ∀ s : State, Ready s → s.pins.rst = false →
    ∃ (t : State) (o : Outputs), exec .reset s = .next t ∧ t.outs = [o]
      ∧ t.blk.p.sub = .head0 ∧ t.blk.p.cmd = 0 ∧ t.blk.p.len = 0 ∧ t.blk.p.idx = 0 ∧ t.blk.p.acc = 0 ∧ t.blk.p.t0 = 0
      ∧ t.blk.p.tim = 0 ∧ (∀ k, t.blk.p.buf.read k = 0)
      ∧ (let unasked := (cycle s.params s.blk { s.pins with step_en := false, soft_reset := false, repl_err := false }).1
         t.blk.q = unasked.q ∧ t.blk.e = unasked.e ∧ t.blk.mode = unasked.mode)
      ∧ o.evt = (if s.pins.repl_err then .lineOverflow else .none) ∧ o.rx_ack = false
      ∧ (Quiet s.pins → t.blk = { s.blk with p := Parser.reset })

/-- R135 (c), R281: a REPL error resets the parser in either mode and reports LineOverflow, code 6. -/
def Obligations.ReplErrorResetsAndReportsLineOverflow : Prop :=
  ∀ s : State, Ready s → s.pins.rst = false →
    ∃ (t : State) (o : Outputs), exec .replError s = .next t ∧ t.outs = [o]
      ∧ o.evt = .lineOverflow ∧ o.evt.code = 6 ∧ o.rx_ack = false
      ∧ t.blk.p = Parser.reset
      ∧ (let unasked := (cycle s.params s.blk { s.pins with step_en := false, soft_reset := false, repl_err := false }).1
         t.blk.q = unasked.q ∧ t.blk.e = unasked.e ∧ t.blk.mode = unasked.mode)
      ∧ (Quiet s.pins → t.blk = { s.blk with p := Parser.reset })

/-- R138: the control actions of one cycle. rst is taken alone. Any of a changing mode write, soft_reset and repl_err runs
reset() once and stops the parser's step, while the push, the REPL pop, the encoder's step, the mode write and the
LineOverflow report still happen. -/
def Obligations.ControlActionsTakeTheirPriority : Prop :=
  ∀ (P : Params) (b : Block) (i : Inputs),
    (i.rst = true → (cycle P b i).1 = (cycle P b { Inputs.idle with rst := true }).1)
      ∧ (i.rst = false →
          ((i.mode_wr = true ∧ ((i.mode_val = 0x00 ∧ b.mode ≠ .asciiRepl) ∨ (i.mode_val = 0x01 ∧ b.mode ≠ .binaryFrame)))
            ∨ i.soft_reset = true ∨ i.repl_err = true) →
          let b' := (cycle P b i).1
          let alone := (cycle P b
            { i with step_en := false, mode_wr := false, soft_reset := false, repl_err := false }).1
          b'.p = Parser.reset ∧ b'.q = alone.q ∧ b'.e = alone.e
            ∧ (i.mode_wr = true → i.mode_val = 0x00 → b'.mode = .asciiRepl)
            ∧ (i.mode_wr = true → i.mode_val = 0x01 → b'.mode = .binaryFrame)
            ∧ (cycle P b i).2.evt = (if i.repl_err then .lineOverflow else .none)
            ∧ (cycle P b i).2.rx_ack = false)

/-- R108, R130, R133: is_empty, current_mode and current_state answer from the pre-state, the outputs show the same, and the
reading drives no line. That a reading takes one cycle under the held lines, in which the block goes on as they say, is the
model's own schedule (log 11, DEDUCED); the block stays as it is when they are quiet. -/
def Obligations.StatusReadsAnswerFromThePreState : Prop :=
  ∀ s : State, Ready s →
    (∃ (t : State) (o : Outputs), exec .isEmpty s = .next t ∧ t.outs = [o]
        ∧ t.ret = .flag (decide (s.blk.q.wr = s.blk.q.rd)) ∧ o.q_empty_o = decide (s.blk.q.wr = s.blk.q.rd)
        ∧ t.blk = (cycle s.params s.blk s.pins).1 ∧ (Quiet s.pins → t.blk = s.blk))
      ∧ (∃ (t : State) (o : Outputs), exec .currentMode s = .next t ∧ t.outs = [o]
        ∧ t.ret = .mode s.blk.mode ∧ o.mode_o = s.blk.mode
        ∧ t.blk = (cycle s.params s.blk s.pins).1 ∧ (Quiet s.pins → t.blk = s.blk))
      ∧ (∃ (t : State) (o : Outputs), exec .currentState s = .next t ∧ t.outs = [o]
        ∧ t.ret = .parserState s.blk.p.sub.pstate ∧ o.pstate_o = s.blk.p.sub.pstate
        ∧ t.blk = (cycle s.params s.blk s.pins).1 ∧ (Quiet s.pins → t.blk = s.blk))

/-- R137, R180, R294: a cycle in which the parser is not enabled leaves it as it is, its timer included, pops nothing for it
and reports nothing; in AsciiRepl mode step_en has no effect on the block at all. -/
def Obligations.ParserHoldsWithoutItsEnable : Prop :=
  ∀ (P : Params) (b : Block) (i : Inputs), i.rst = false → controlAction b i = false →
    ((i.step_en = false ∨ b.mode = .asciiRepl) →
        (cycle P b i).1.p = b.p ∧ (cycle P b i).2.evt = .none ∧ (cycle P b i).2.rx_ack = false
          ∧ (b.mode = .binaryFrame → i.in_valid = false → (cycle P b i).1.q = b.q))
      ∧ (b.mode = .asciiRepl → ∀ v : Bool, cycle P b { i with step_en := v } = cycle P b i)

/-! ### The queue -/

/-- R101, R102: a push stores its byte at q_wr and moves q_wr on, on the queue this cycle's pop has left; into a full queue it sets
q_ovr and applies the overflow policy. No other unit is touched and no output, so no event, shows the push in its cycle. -/
def Obligations.PushStoresItsByteAndAppliesThePolicy : Prop :=
  ∀ (s : State) (x : Byte), Ready s → s.pins.rst = false →
    let P := s.params
    let q := popPhase P s.blk s.pins
    let unpushed := cycle P s.blk { s.pins with in_valid := false }
    ∃ t, exec (.push x) s = .next t ∧ t.outs = [unpushed.2]
      ∧ t.blk.q.buf.read q.wr = x ∧ (∀ k, k ≠ q.wr → t.blk.q.buf.read k = s.blk.q.buf.read k)
      ∧ t.blk.q.wr = (q.wr + 1) % P.cap
      ∧ ((q.wr + 1) % P.cap ≠ q.rd → t.blk.q.rd = q.rd ∧ t.blk.q.ovr = s.blk.q.ovr)
      ∧ ((q.wr + 1) % P.cap = q.rd → t.blk.q.ovr = true
          ∧ (P.policy = .dropOldest → t.blk.q.rd = (q.rd + 1) % P.cap)
          ∧ (P.policy = .wrapToEmpty → t.blk.q.rd = q.rd ∧ t.blk.q.wr = t.blk.q.rd))
      ∧ t.blk.mode = unpushed.1.mode ∧ t.blk.p = unpushed.1.p ∧ t.blk.e = unpushed.1.e
      ∧ (Quiet s.pins → t.blk = { s.blk with q := t.blk.q } ∧ q = s.blk.q)

/-- R106: the REPL port offers the oldest byte in AsciiRepl mode, in every cycle, and a pop takes it; with nothing offered a pop
does nothing. step_en does not gate the port. -/
def Obligations.ReplPopTakesTheOfferedByte : Prop :=
  ∀ s : State, Ready s → s.pins.rst = false →
    (∀ i : Inputs,
        (cycle s.params s.blk i).2.repl_rvalid = decide (s.blk.mode = .asciiRepl ∧ s.blk.q.wr ≠ s.blk.q.rd)
          ∧ (cycle s.params s.blk i).2.repl_rdata =
              if s.blk.mode = .asciiRepl ∧ s.blk.q.wr ≠ s.blk.q.rd then s.blk.q.buf.read s.blk.q.rd else 0x00)
      ∧ ∃ (t : State) (o : Outputs), exec .tryPopRepl s = .next t ∧ t.outs = [o]
      ∧ (let unpopped := (cycle s.params s.blk { s.pins with repl_pop := false }).1
         t.blk.p = unpopped.p ∧ t.blk.e = unpopped.e ∧ t.blk.mode = unpopped.mode)
      ∧ (s.blk.mode = .asciiRepl → s.blk.q.wr ≠ s.blk.q.rd →
          o.repl_rvalid = true ∧ o.repl_rdata = s.blk.q.buf.read s.blk.q.rd
            ∧ t.ret = .popped (some (s.blk.q.buf.read s.blk.q.rd))
            ∧ (s.pins.in_valid = false → t.blk.q = { s.blk.q with rd := (s.blk.q.rd + 1) % s.params.cap })
            ∧ (Quiet s.pins →
                t.blk = { s.blk with q := { s.blk.q with rd := (s.blk.q.rd + 1) % s.params.cap } }))
      ∧ ((s.blk.mode = .binaryFrame ∨ s.blk.q.wr = s.blk.q.rd) →
          o.repl_rvalid = false ∧ o.repl_rdata = 0x00 ∧ t.ret = .popped none
            ∧ t.blk = (cycle s.params s.blk { s.pins with repl_pop := false }).1)

/-- R70, R100, R101, R102, R104: seen as the list of its unread bytes, the queue is a FIFO. A pop takes the head; a push
appends; a push into a full queue drops the oldest byte (DROP_OLDEST) or leaves nothing unread (WRAP_TO_EMPTY). -/
def Obligations.QueueIsAFifo : Prop :=
  ∀ (P : Params) (b : Block) (i : Inputs), QueueOk P b.q → i.rst = false →
    let before := qContents P b.q
    let taken := replTakes b i || parserTakes b i
    let left := if taken then before.tail else before
    (taken = true → before.head? = some (b.q.buf.read b.q.rd))
      ∧ qContents P (cycle P b i).1.q =
          if i.in_valid then
            if left.length = P.cap - 1 then
              match P.policy with
              | .dropOldest => left.tail ++ [i.in_byte]
              | .wrapToEmpty => []
            else left ++ [i.in_byte]
          else left

/-- R109: in every queue, and after every cycle, at most C - 1 bytes are unread. With no pop, pushes into an empty queue lose
nothing and set no flag up to C - 1 of them, which leave it full, a whole frame of L + 8 bytes among them when L <= C - 9; the
C-th such push overruns. -/
def Obligations.QueueHoldsOneLessThanItsCapacity : Prop :=
  (∀ (P : Params) (q : Queue), QueueOk P q → (qContents P q).length ≤ P.cap - 1)
    ∧ (∀ (P : Params) (b : Block) (i : Inputs), QueueOk P b.q →
        QueueOk P (cycle P b i).1.q ∧ (qContents P (cycle P b i).1.q).length ≤ P.cap - 1)
    ∧ (∀ (P : Params) (b : Block) (pins : Inputs), QueueOk P b.q → Quiet pins → b.q.wr = b.q.rd →
        let pushed := fun bytes : List Byte => (runBlock P b (bytes.map fun x => driveIn true x pins)).q
        (∀ bytes : List Byte,
            (bytes.length ≤ P.cap - 1 → qContents P (pushed bytes) = bytes ∧ (pushed bytes).ovr = b.q.ovr)
              ∧ (bytes.length = P.cap - 1 → ((pushed bytes).wr + 1) % P.cap = (pushed bytes).rd)
              ∧ (bytes.length = P.cap → (pushed bytes).ovr = true))
          ∧ ∀ (c : Byte) (payload : List Byte), payload.length + 9 ≤ P.cap →
              qContents P (pushed (frameBytes P c payload)) = frameBytes P c payload
                ∧ (pushed (frameBytes P c payload)).ovr = b.q.ovr)

/-- R71, R317: a byte pushed into an empty queue is not popped in the same cycle and is the one offered in the next; a push and
a pop in one cycle on a full queue do not overrun. -/
def Obligations.PushIsPoppableFromTheNextCycle : Prop :=
  ∀ (P : Params) (b : Block) (i : Inputs), QueueOk P b.q → i.rst = false → i.in_valid = true →
    (b.q.wr = b.q.rd →
        replTakes b i = false ∧ parserTakes b i = false
          ∧ (cycle P b i).1.q.wr ≠ (cycle P b i).1.q.rd
          ∧ (cycle P b i).1.q.buf.read (cycle P b i).1.q.rd = i.in_byte)
      ∧ ((b.q.wr + 1) % P.cap = b.q.rd → (replTakes b i = true ∨ parserTakes b i = true) →
          (cycle P b i).1.q.ovr = b.q.ovr)

/-- R105, R181, R182: the parser's try_pop takes the oldest byte in a byte-reading sub-state, one at most; on an empty queue, in
DISPATCH, in ACKREQ and without step_en it takes nothing. That the operation is the parser's whole step, as process_step shows
it, is the model's own reading of an internal operation (log 11, DEDUCED). -/
def Obligations.ParserTryPopTakesAtMostOneByte : Prop :=
  ∀ s : State, Ready s → ParserEnabled s → s.pins.in_valid = false →
    (∃ t, exec (.tryPopParser true) s = .next t
        ∧ (s.blk.p.sub ≠ .dispatch → s.blk.p.sub ≠ .ackReq → s.blk.q.wr ≠ s.blk.q.rd →
            t.ret = .popped (some (s.blk.q.buf.read s.blk.q.rd))
              ∧ t.blk.q = { s.blk.q with rd := (s.blk.q.rd + 1) % s.params.cap })
        ∧ ((s.blk.p.sub = .dispatch ∨ s.blk.p.sub = .ackReq ∨ s.blk.q.wr = s.blk.q.rd) →
            t.ret = .popped none ∧ t.blk.q = s.blk.q)
        ∧ shown (exec (.tryPopParser true) s) = shown (exec .processStep s))
      ∧ (∃ t, exec (.tryPopParser false) s = .next t ∧ t.ret = .popped none ∧ t.blk.q = s.blk.q
        ∧ t.blk.p = s.blk.p ∧ t.blk.mode = s.blk.mode
        ∧ t.blk.e = (cycle s.params s.blk { s.pins with step_en := false }).1.e)

/-- R107, R183, R184: one poll of a byte read. A byte in the queue is taken, whatever tick is; an empty queue is waited on; the
tick that brings the wait to the sub-state's budget is a Timeout, which resets the parser; HEAD0 never times out. -/
def Obligations.PollTakesAByteOrCountsTowardsTimeout : Prop :=
  ∀ (s : State) (tick : Bool), Ready s → ParserEnabled s →
    let P := s.params
    let p := s.blk.p
    let T := match p.sub with
      | .head1 => P.tHead
      | .cmd => P.tCmd
      | .lenHi => P.tLen
      | .lenLo => P.tLen
      | .payload => P.tPayload
      | .tail0 => P.tTail
      | .tail1 => P.tTail
      | _ => P.tSum
    p.sub ≠ .dispatch → p.sub ≠ .ackReq →
    let unstepped := (cycle P s.blk { s.pins with step_en := false }).1
    (∃ (t : State) (o : Outputs), exec (.popBlocking true tick) s = .next t ∧ t.outs = [o]
        ∧ t.blk.mode = s.blk.mode ∧ t.blk.e = unstepped.e
        ∧ (s.pins.in_valid = false → t.blk.q.buf = s.blk.q.buf ∧ t.blk.q.wr = s.blk.q.wr ∧ t.blk.q.ovr = s.blk.q.ovr
            ∧ t.blk.q.rd = if s.blk.q.wr = s.blk.q.rd then s.blk.q.rd else (s.blk.q.rd + 1) % P.cap)
        ∧ (s.blk.q.wr ≠ s.blk.q.rd →
            t.ret = .polled (.byte (s.blk.q.buf.read s.blk.q.rd)) ∧ t.blk.p.tim = 0 ∧ o.evt ≠ .timeout)
        ∧ (s.blk.q.wr = s.blk.q.rd → p.sub = .head0 → t.ret = .polled .waiting ∧ t.blk.p = p ∧ o.evt = .none)
        ∧ (s.blk.q.wr = s.blk.q.rd → p.sub ≠ .head0 → tick = false →
            t.ret = .polled .waiting ∧ t.blk.p = p ∧ o.evt = .none)
        ∧ (s.blk.q.wr = s.blk.q.rd → p.sub ≠ .head0 → tick = true → p.tim + 1 < T →
            t.ret = .polled .waiting ∧ t.blk.p = { p with tim := p.tim + 1 } ∧ o.evt = .none)
        ∧ (s.blk.q.wr = s.blk.q.rd → p.sub ≠ .head0 → tick = true → T ≤ p.tim + 1 →
            t.ret = .polled .timeout ∧ t.blk.p = Parser.reset ∧ o.evt = .timeout ∧ o.evt.code = 1))
      ∧ (∃ (t : State) (o : Outputs), exec (.popBlocking false tick) s = .next t ∧ t.outs = [o]
        ∧ t.ret = .polled .waiting ∧ t.blk.p = p ∧ o.evt = .none
        ∧ t.blk.q = unstepped.q ∧ t.blk.mode = s.blk.mode ∧ t.blk.e = unstepped.e)

/-! ### The parser -/

/-- R185, R186: hunting for a head. Noise is ignored in HEAD0; a byte other than 0x5A in HEAD1 is consumed and is a
MagicMismatch. -/
def Obligations.HeadBytesAreMatchedInOrder : Prop :=
  ∀ s : State, Ready s → ParserEnabled s → s.blk.q.wr ≠ s.blk.q.rd →
    let p := s.blk.p
    let x := s.blk.q.buf.read s.blk.q.rd
    ∃ (t : State) (o : Outputs), exec .processStep s = .next t ∧ t.outs = [o]
      ∧ (p.sub = .head0 → x = 0xFE → t.blk.p = { p with sub := .head1, acc := 0xFE, tim := 0 } ∧ o.evt = .none)
      ∧ (p.sub = .head0 → x ≠ 0xFE → t.blk.p = { p with tim := 0 } ∧ o.evt = .none)
      ∧ (p.sub = .head1 → x = 0x5A → t.blk.p = { p with sub := .cmd, acc := p.acc + x, tim := 0 } ∧ o.evt = .none)
      ∧ (p.sub = .head1 → x ≠ 0x5A → t.blk.p = Parser.reset ∧ o.evt = .magicMismatch ∧ o.evt.code = 2)
      ∧ ((p.sub = .head0 ∨ p.sub = .head1) → s.pins.in_valid = false →
          t.blk.q = { s.blk.q with rd := (s.blk.q.rd + 1) % s.params.cap })

/-- R187, R188, R189: any cmd byte is accepted; len is taken high byte first; a length above PAYLOAD_MAX is an
AllocationFailure, length 0 goes straight to the tail, any other to the payload. -/
def Obligations.CmdAndLenBytesAreTaken : Prop :=
  ∀ s : State, Ready s → ParserEnabled s → s.blk.q.wr ≠ s.blk.q.rd →
    let P := s.params
    let p := s.blk.p
    let x := s.blk.q.buf.read s.blk.q.rd
    let L : Half := BitVec.ofNat 16 (p.len.toNat / 256 * 256 + x.toNat)
    ∃ (t : State) (o : Outputs), exec .processStep s = .next t ∧ t.outs = [o]
      ∧ (p.sub = .cmd →
          t.blk.p = { p with sub := .lenHi, cmd := x, acc := p.acc + (if P.sumsCmd then x else 0), tim := 0 }
            ∧ o.evt = .none)
      ∧ (p.sub = .lenHi →
          t.blk.p = { p with sub := .lenLo, len := BitVec.ofNat 16 (x.toNat * 256), acc := p.acc + x, tim := 0 }
            ∧ o.evt = .none)
      ∧ (p.sub = .lenLo → P.payloadMax < L.toNat →
          t.blk.p = Parser.reset ∧ o.evt = .allocationFailure ∧ o.evt.code = 5)
      ∧ (p.sub = .lenLo → L.toNat = 0 →
          t.blk.p = { p with sub := .tail0, len := 0, acc := p.acc + x, tim := 0 } ∧ o.evt = .none)
      ∧ (p.sub = .lenLo → 1 ≤ L.toNat → L.toNat ≤ P.payloadMax →
          t.blk.p = { p with sub := .payload, len := L, idx := 0, acc := p.acc + x, tim := 0 } ∧ o.evt = .none)

/-- R191: a payload byte is stored at p_idx, whatever it is, and the last one leads to the tail. -/
def Obligations.PayloadByteIsStoredAtItsIndex : Prop :=
  ∀ s : State, Ready s → ParserEnabled s → s.blk.q.wr ≠ s.blk.q.rd → s.blk.p.sub = .payload →
    let p := s.blk.p
    let x := s.blk.q.buf.read s.blk.q.rd
    ∃ (t : State) (o : Outputs), exec .processStep s = .next t ∧ t.outs = [o] ∧ o.evt = .none
      ∧ t.blk.p.buf.read p.idx.toNat = x ∧ (∀ k, k ≠ p.idx.toNat → t.blk.p.buf.read k = p.buf.read k)
      ∧ t.blk.p.idx = p.idx + 1 ∧ t.blk.p.acc = p.acc + x ∧ t.blk.p.tim = 0
      ∧ t.blk.p.sub = (if p.idx + 1 = p.len then .tail0 else .payload)
      ∧ t.blk.p.cmd = p.cmd ∧ t.blk.p.len = p.len ∧ t.blk.p.t0 = p.t0

/-- R193, R194: the first tail byte is held unjudged, and both are compared when the second is read; each is consumed, whether or
not they match. -/
def Obligations.TailBytesAreComparedTogether : Prop :=
  ∀ s : State, Ready s → ParserEnabled s → s.blk.q.wr ≠ s.blk.q.rd →
    let p := s.blk.p
    let x := s.blk.q.buf.read s.blk.q.rd
    let T : Byte × Byte := match s.params.tail with
      | .standard => (0xFA, 0xE3)
      | .sameAsHead => (0xFE, 0x5A)
    ∃ (t : State) (o : Outputs), exec .processStep s = .next t ∧ t.outs = [o]
      ∧ (p.sub = .tail0 → t.blk.p = { p with sub := .tail1, t0 := x, acc := p.acc + x, tim := 0 } ∧ o.evt = .none)
      ∧ (p.sub = .tail1 → (p.t0, x) = T →
          t.blk.p = { p with sub := .sum, acc := p.acc + x, tim := 0 } ∧ o.evt = .none)
      ∧ (p.sub = .tail1 → (p.t0, x) ≠ T → t.blk.p = Parser.reset ∧ o.evt = .magicMismatch ∧ o.evt.code = 2)
      ∧ ((p.sub = .tail0 ∨ p.sub = .tail1) → s.pins.in_valid = false →
          t.blk.q = { s.blk.q with rd := (s.blk.q.rd + 1) % s.params.cap })

/-- R195, R196, R197: a wrong sum is a ChecksumMismatch whatever the command; with the right sum the command decides: dispatch
for 01, 03, 04 and 05, the rx_ack pulse for 02, UnknownCommand for any other. -/
def Obligations.SumByteIsCheckedBeforeTheCommand : Prop :=
  ∀ s : State, Ready s → ParserEnabled s → s.blk.q.wr ≠ s.blk.q.rd → s.blk.p.sub = .sum →
    let p := s.blk.p
    let x := s.blk.q.buf.read s.blk.q.rd
    ∃ (t : State) (o : Outputs), exec .processStep s = .next t ∧ t.outs = [o]
      ∧ (x ≠ p.acc → t.blk.p = Parser.reset ∧ o.evt = .checksumMismatch ∧ o.evt.code = 3 ∧ o.rx_ack = false)
      ∧ (x = p.acc → (p.cmd = 0x01 ∨ p.cmd = 0x03 ∨ p.cmd = 0x04 ∨ p.cmd = 0x05) →
          t.blk.p = { p with sub := .dispatch, tim := 0 } ∧ o.evt = .none ∧ o.rx_ack = false)
      ∧ (x = p.acc → p.cmd = 0x02 → t.blk.p = Parser.reset ∧ o.evt = .none ∧ o.rx_ack = true)
      ∧ (x = p.acc → p.cmd ≠ 0x01 → p.cmd ≠ 0x02 → p.cmd ≠ 0x03 → p.cmd ≠ 0x04 → p.cmd ≠ 0x05 →
          t.blk.p = Parser.reset ∧ o.evt = .unknownCommand ∧ o.evt.code = 4 ∧ o.rx_ack = false)

/-- The frame of a parser step: it takes one byte of the queue at most and writes none of it, leaves the mode, and leaves the
encoder as it would be anyway, but for the ACK hand-over (R181, R182, R242, R285). -/
def Obligations.ParserStepLeavesTheOtherUnits : Prop :=
  ∀ s : State, Ready s → ParserEnabled s → s.pins.in_valid = false →
    let unstepped := (cycle s.params s.blk { s.pins with step_en := false }).1
    ∃ t, exec .processStep s = .next t
      ∧ t.blk.mode = s.blk.mode
      ∧ (s.blk.p.sub ≠ .ackReq → t.blk.e = unstepped.e)
      ∧ t.blk.q.buf = s.blk.q.buf ∧ t.blk.q.wr = s.blk.q.wr ∧ t.blk.q.ovr = s.blk.q.ovr
      ∧ ((s.blk.p.sub = .dispatch ∨ s.blk.p.sub = .ackReq ∨ s.blk.q.wr = s.blk.q.rd) → t.blk.q.rd = s.blk.q.rd)
      ∧ (s.blk.p.sub ≠ .dispatch → s.blk.p.sub ≠ .ackReq → s.blk.q.wr ≠ s.blk.q.rd →
          t.blk.q.rd = (s.blk.q.rd + 1) % s.params.cap)

/-- R198: the sink's answer. TRANS_CMD and FILE_PARAM are always acknowledged, FILE_PACKET and CUSTOMIZE when the sink says so;
otherwise the frame is released with no event. The answer has no effect outside DISPATCH, nor in any cycle in which the parser is
not enabled (R137), and without an answer the parser waits. That the operation leaves step_en as it is held, so that it may be
such a cycle, is the model's own reading (log 17, DEDUCED). -/
def Obligations.SinkAnswerDecidesTheAck : Prop :=
  ∀ (s : State) (a : Bool), Ready s →
    let unanswered := cycle s.params s.blk { s.pins with disp_done := false }
    ∃ (t : State) (o : Outputs), exec (.dispatchDone a) s = .next t ∧ t.outs = [o]
      ∧ t.blk.q = unanswered.1.q ∧ t.blk.mode = unanswered.1.mode ∧ t.blk.e = unanswered.1.e
      ∧ (ParserEnabled s → s.pins.step_en = true → s.blk.p.sub = .dispatch →
          o.disp_valid = true ∧ o.disp_cmd = s.blk.p.cmd ∧ o.disp_len = s.blk.p.len ∧ o.evt = .none
            ∧ (s.pins.disp_raddr.toNat < s.blk.p.len.toNat →
                o.disp_rdata = s.blk.p.buf.read s.pins.disp_raddr.toNat)
            ∧ ((s.blk.p.cmd = 0x01 ∨ s.blk.p.cmd = 0x03) → t.blk.p = { s.blk.p with sub := .ackReq })
            ∧ ((s.blk.p.cmd = 0x04 ∨ s.blk.p.cmd = 0x05) → a = true → t.blk.p = { s.blk.p with sub := .ackReq })
            ∧ ((s.blk.p.cmd = 0x04 ∨ s.blk.p.cmd = 0x05) → a = false → t.blk.p = Parser.reset)
            ∧ (s.blk.p.cmd ≠ 0x01 → s.blk.p.cmd ≠ 0x03 → s.blk.p.cmd ≠ 0x04 → s.blk.p.cmd ≠ 0x05 →
                t.blk.p = Parser.reset))
      ∧ ((s.blk.p.sub ≠ .dispatch ∨ pstep s.blk s.pins = false) → t.blk = unanswered.1 ∧ o = unanswered.2)
      ∧ (ParserEnabled s → s.pins.disp_done = false → s.blk.p.sub = .dispatch →
          ∃ u, exec .processStep s = .next u ∧ u.blk.p = s.blk.p)

/-- R199, R242: in ACKREQ with the encoder idle the hand-over loads the ACK frame into the encoder and resets the parser in
one cycle, ahead of an external request; with the encoder busy the parser waits. That send_ack is the cycle of step_en, and gives
whether the encoder took the ACK, is the model's own reading of an internal operation (log 11, DEDUCED). -/
def Obligations.AckIsHandedToAnIdleEncoder : Prop :=
  ∀ s : State, Ready s → ParserEnabled s → s.blk.p.sub = .ackReq →
    ∃ (t : State) (o : Outputs), exec .sendAck s = .next t ∧ t.outs = [o] ∧ o.evt = .none
      ∧ (s.blk.e.sub = .idle →
          t.ret = .flag true ∧ t.blk.p = Parser.reset ∧ o.tx_accept = false
            ∧ t.blk.e = { sub := .head0, src := .ack, cmd := 0x02, len := 4, idx := 0, acc := 0 })
      ∧ (s.blk.e.sub ≠ .idle → t.ret = .flag false ∧ t.blk.p = s.blk.p
          ∧ t.blk.e = (cycle s.params s.blk { s.pins with step_en := false }).1.e)
      ∧ (s.pins.in_valid = false → t.blk.q = s.blk.q) ∧ t.blk.mode = s.blk.mode

/-- R280, R285: an error of the parser changes only the parser. The code is on evt for the cycle, the scratch storage is zeroed
and the parser is in HEAD0; the mode is as it was, the encoder is as it would be anyway, and the queue loses at most the one
byte that was read. -/
def Obligations.ErrorIsTakenByResettingTheParser : Prop :=
  ∀ (P : Params) (b : Block) (i : Inputs),
    (cycle P b i).2.evt ≠ .none → (cycle P b i).2.evt ≠ .lineOverflow →
      let b' := (cycle P b i).1
      b'.p = Parser.reset ∧ b'.mode = b.mode
        ∧ b'.e = (cycle P b { i with step_en := false }).1.e
        ∧ (i.in_valid = false → b'.q = b.q ∨ b'.q = { b.q with rd := (b.q.rd + 1) % P.cap })

/-- R283, with the causes of R281: when each event is raised. Code 6 is repl_err's and only its. Codes 1 to 5 and the rx_ack pulse
need the parser's enable and the cause of their kind: a Timeout the tick that brings the wait of a timed sub-state to its budget
on an empty queue, and each other kind the byte its sub-state reads. An rst cycle reports nothing. -/
def Obligations.EventsAriseOnlyFromTheirCause : Prop :=
  ∀ (P : Params) (b : Block) (i : Inputs),
    let evt := (cycle P b i).2.evt
    let p := b.p
    let x := b.q.buf.read b.q.rd
    let enabled := i.rst = false ∧ b.mode = .binaryFrame ∧ i.step_en = true ∧ controlAction b i = false
    let readsIn := fun sub : ParserSub => enabled ∧ b.q.wr ≠ b.q.rd ∧ p.sub = sub
    let T := match p.sub with
      | .head1 => P.tHead
      | .cmd => P.tCmd
      | .lenHi => P.tLen
      | .lenLo => P.tLen
      | .payload => P.tPayload
      | .tail0 => P.tTail
      | .tail1 => P.tTail
      | _ => P.tSum
    let tailBytes : Byte × Byte := match P.tail with
      | .standard => (0xFA, 0xE3)
      | .sameAsHead => (0xFE, 0x5A)
    (evt = .lineOverflow ↔ i.rst = false ∧ i.repl_err = true)
      ∧ (evt = .timeout ↔ enabled ∧ b.q.wr = b.q.rd ∧ p.sub ≠ .head0 ∧ p.sub ≠ .dispatch ∧ p.sub ≠ .ackReq
          ∧ i.tick = true ∧ T ≤ p.tim + 1)
      ∧ (evt = .magicMismatch ↔ (readsIn .head1 ∧ x ≠ 0x5A) ∨ (readsIn .tail1 ∧ (p.t0, x) ≠ tailBytes))
      ∧ (evt = .checksumMismatch ↔ readsIn .sum ∧ x ≠ p.acc)
      ∧ (evt = .unknownCommand ↔ readsIn .sum ∧ x = p.acc
          ∧ p.cmd ≠ 0x01 ∧ p.cmd ≠ 0x02 ∧ p.cmd ≠ 0x03 ∧ p.cmd ≠ 0x04 ∧ p.cmd ≠ 0x05)
      ∧ (evt = .allocationFailure ↔ readsIn .lenLo ∧ P.payloadMax < p.len.toNat / 256 * 256 + x.toNat)
      ∧ ((cycle P b i).2.rx_ack = true ↔ readsIn .sum ∧ x = p.acc ∧ p.cmd = 0x02)
      ∧ (i.rst = true → evt = .none ∧ (cycle P b i).2.rx_ack = false)

/-! ### Whole frames -/

/-- R203, R80, R197: a frame of TRANS_CMD, FILE_PARAM, FILE_PACKET or CUSTOMIZE that arrives at a listening parser is
dispatched with its command, its length and its payload, with no event on the way; its L + 8 bytes have gone through the
queue, which is empty again, and an idle encoder with no request stays as it is. The schedule of the arrival, a byte a cycle under
step_en and one step more, so L + 9 cycles in all, is the model's own (log 3, DEDUCED). -/
def Obligations.ValidFrameIsDispatchedWithItsPayload : Prop :=
  ∀ (s : State) (payload : List Byte), Listening s → payload.length ≤ s.params.payloadMax →
    ∀ (i : Instr) (c : Byte),
      (i = .transCmd payload ∧ c = 0x01) ∨ (i = .fileParam payload ∧ c = 0x03)
        ∨ (i = .filePacket payload ∧ c = 0x04) ∨ (i = .customize payload ∧ c = 0x05) →
      ∃ t, exec i s = .next t
        ∧ t.blk.p.sub = .dispatch ∧ t.blk.p.cmd = c ∧ t.blk.p.len.toNat = payload.length
        ∧ t.blk.p.buf.firstBytes payload.length = payload ∧ t.blk.p.acc = frameChecksum s.params c payload
        ∧ AllSilent t.outs ∧ t.outs.length = payload.length + 9
        ∧ t.blk.mode = .binaryFrame
        ∧ t.blk.q.wr = (s.blk.q.wr + (payload.length + 8)) % s.params.cap ∧ t.blk.q.rd = t.blk.q.wr
        ∧ t.blk.q.ovr = s.blk.q.ovr
        ∧ (∀ k, (∀ j, j < payload.length + 8 → k ≠ (s.blk.q.wr + j) % s.params.cap) →
            t.blk.q.buf.read k = s.blk.q.buf.read k)
        ∧ (s.blk.e.sub = .idle → s.pins.tx_req = false → t.blk.e = s.blk.e)

/-- R197, D14: a received ACK frame is neither dispatched nor acknowledged: rx_ack pulses when its sum is read, no event is raised,
and the parser is back in HEAD0. That this is the last cycle of the operation is the model's own schedule (log 3, DEDUCED). -/
def Obligations.ReceivedAckFramePulsesRxAck : Prop :=
  ∀ (s : State) (payload : List Byte), Listening s → payload.length ≤ s.params.payloadMax →
    ∃ (t : State) (front : List Outputs) (last : Outputs), exec (.ack payload) s = .next t
      ∧ t.outs = front ++ [last] ∧ AllSilent front ∧ last.rx_ack = true ∧ last.evt = .none
      ∧ t.blk.p = Parser.reset ∧ t.blk.mode = .binaryFrame
      ∧ t.blk.q.wr = (s.blk.q.wr + (payload.length + 8)) % s.params.cap ∧ t.blk.q.rd = t.blk.q.wr
      ∧ t.blk.q.ovr = s.blk.q.ovr
      ∧ (∀ k, (∀ j, j < payload.length + 8 → k ≠ (s.blk.q.wr + j) % s.params.cap) →
          t.blk.q.buf.read k = s.blk.q.buf.read k)
      ∧ (s.blk.e.sub = .idle → s.pins.tx_req = false → t.blk.e = s.blk.e)

/-- R84, R197: a frame with a correct head, tail and sum and a cmd outside 0x01..0x05 is an UnknownCommand when its sum is read,
discarded and not acknowledged. That this is the last cycle of the step is the model's own schedule (log 3, DEDUCED), and so is
that a word which is no operation drives its bytes (log 13, DEDUCED). -/
def Obligations.UnknownCommandFrameIsDiscarded : Prop :=
  ∀ (s : State) (c : Byte) (payload : List Byte) (rest : List Stimulus),
    Listening s → payload.length ≤ s.params.payloadMax →
    c ≠ 0x01 → c ≠ 0x02 → c ≠ 0x03 → c ≠ 0x04 → c ≠ 0x05 →
    ∃ (t : State) (front : List Outputs) (last : Outputs),
      step { s with stim := { word := .link (frameBytes s.params c payload), pins := s.pins } :: rest } = .next t
        ∧ t.outs = front ++ [last] ∧ AllSilent front ∧ last.evt = .unknownCommand ∧ last.rx_ack = false
        ∧ t.blk.p = Parser.reset ∧ t.blk.mode = .binaryFrame
        ∧ t.blk.q.wr = (s.blk.q.wr + (payload.length + 8)) % s.params.cap ∧ t.blk.q.rd = t.blk.q.wr
        ∧ t.blk.q.ovr = s.blk.q.ovr
        ∧ (∀ k, (∀ j, j < payload.length + 8 → k ≠ (s.blk.q.wr + j) % s.params.cap) →
            t.blk.q.buf.read k = s.blk.q.buf.read k)
        ∧ (s.blk.e.sub = .idle → s.pins.tx_req = false → t.blk.e = s.blk.e)

/-- R195, R164: a frame whose last byte is not its checksum is a ChecksumMismatch when that byte is read, whatever its command. That
this is the last cycle of the step is the model's own schedule (log 3, DEDUCED), and so is that a word which is no operation drives
its bytes (log 13, DEDUCED). -/
def Obligations.WrongSumFrameIsDiscarded : Prop :=
  ∀ (s : State) (c x : Byte) (payload : List Byte) (rest : List Stimulus),
    Listening s → payload.length ≤ s.params.payloadMax → x ≠ frameChecksum s.params c payload →
    ∃ (t : State) (front : List Outputs) (last : Outputs),
      step { s with
          stim := { word := .link (frameFront c payload ++ [tailMagic0 s.params, tailMagic1 s.params, x]),
                    pins := s.pins } :: rest } = .next t
        ∧ t.outs = front ++ [last] ∧ AllSilent front ∧ last.evt = .checksumMismatch ∧ last.rx_ack = false
        ∧ t.blk.p = Parser.reset ∧ t.blk.mode = .binaryFrame
        ∧ t.blk.q.wr = (s.blk.q.wr + (payload.length + 8)) % s.params.cap ∧ t.blk.q.rd = t.blk.q.wr
        ∧ t.blk.q.ovr = s.blk.q.ovr
        ∧ (∀ k, (∀ j, j < payload.length + 8 → k ≠ (s.blk.q.wr + j) % s.params.cap) →
            t.blk.q.buf.read k = s.blk.q.buf.read k)
        ∧ (s.blk.e.sub = .idle → s.pins.tx_req = false → t.blk.e = s.blk.e)

/-- R81, R189, R322: a frame longer than PAYLOAD_MAX is answered with AllocationFailure when its len low byte is read, and with
nothing before. That this is the sixth cycle of the operation is the model's own schedule (log 3, DEDUCED). After it the parser is in
HEAD0 and the rest of the frame, from its first payload byte on, is hunted through: with no 0xFE in it, it is consumed to the end
with no event. -/
def Obligations.OversizeFrameFailsAllocation : Prop :=
  ∀ (s : State) (payload : List Byte), Listening s → s.params.payloadMax < payload.length → payload.length ≤ 65535 →
    ∀ (i : Instr) (c : Byte),
      (i = .transCmd payload ∧ c = 0x01) ∨ (i = .ack payload ∧ c = 0x02) ∨ (i = .fileParam payload ∧ c = 0x03)
        ∨ (i = .filePacket payload ∧ c = 0x04) ∨ (i = .customize payload ∧ c = 0x05) →
      let cycles := driveLink (frameBytes s.params c payload) s.pins
      let failed := runBlock s.params s.blk (cycles.take 6)
      ∃ (t : State) (front back : List Outputs) (o : Outputs), exec i s = .next t
        ∧ t.outs = front ++ o :: back ∧ front.length = 5 ∧ AllSilent front
        ∧ o.evt = .allocationFailure ∧ o.rx_ack = false
        ∧ failed.p = Parser.reset ∧ qContents s.params failed.q = payload.take 1
        ∧ t.blk = runBlock s.params failed (cycles.drop 6)
        ∧ t.blk.mode = .binaryFrame ∧ t.blk.q.wr = (s.blk.q.wr + (payload.length + 8)) % s.params.cap
        ∧ (∀ k, (∀ j, j < payload.length + 8 → k ≠ (s.blk.q.wr + j) % s.params.cap) →
            t.blk.q.buf.read k = s.blk.q.buf.read k)
        ∧ ((∀ x ∈ (frameBytes s.params c payload).drop 5, x ≠ 0xFE) →
            AllSilent back ∧ t.blk.p = Parser.reset ∧ t.blk.q.rd = t.blk.q.wr ∧ t.blk.q.ovr = s.blk.q.ovr)

/-- R185, R202: garbage with no 0xFE in it is consumed with no event and leaves a listening parser as it was. That such a word drives
its bytes, a byte a cycle and one step more, is the model's own reading (logs 3 and 13, DEDUCED). -/
def Obligations.GarbageBeforeAHeadIsIgnored : Prop :=
  ∀ (s : State) (bytes : List Byte) (rest : List Stimulus), Listening s → (∀ x ∈ bytes, x ≠ 0xFE) →
    ∃ t, step { s with stim := { word := .link bytes, pins := s.pins } :: rest } = .next t
      ∧ AllSilent t.outs ∧ Listening t ∧ t.blk.q.wr = (s.blk.q.wr + bytes.length) % s.params.cap
      ∧ t.blk.q.ovr = s.blk.q.ovr

/-- R100, R139, R313: in AsciiRepl mode the bytes of a frame are not parsed. They are in the queue, in order, for the REPL, as
long as they fit; the parser and the mode stay and no event is raised. The schedule of the arrival is the model's own (log 3,
DEDUCED). -/
def Obligations.AsciiReplModeQueuesAFrameForTheRepl : Prop :=
  ∀ (s : State) (payload : List Byte), s.Inv → s.pins.rst = false → s.blk.mode = .asciiRepl →
    controlAction s.blk s.pins = false → s.pins.repl_pop = false → s.pins.in_valid = false → s.blk.q.wr = s.blk.q.rd →
    payload.length + 8 ≤ s.params.cap - 1 → payload.length ≤ 65535 →
    ∀ (i : Instr) (c : Byte),
      (i = .transCmd payload ∧ c = 0x01) ∨ (i = .ack payload ∧ c = 0x02) ∨ (i = .fileParam payload ∧ c = 0x03)
        ∨ (i = .filePacket payload ∧ c = 0x04) ∨ (i = .customize payload ∧ c = 0x05) →
      ∃ t, exec i s = .next t ∧ qContents t.params t.blk.q = frameBytes s.params c payload
        ∧ t.blk.q.ovr = s.blk.q.ovr ∧ t.blk.p = s.blk.p ∧ t.blk.mode = .asciiRepl ∧ AllSilent t.outs
        ∧ (∀ k, (∀ j, j < payload.length + 8 → k ≠ (s.blk.q.wr + j) % s.params.cap) →
            t.blk.q.buf.read k = s.blk.q.buf.read k)
        ∧ (s.blk.e.sub = .idle → s.pins.tx_req = false → t.blk.e = s.blk.e)

/-! ### The outputs -/

/-- R35: the status outputs of every cycle, each a function of the pre-state. -/
def Obligations.StatusOutputsShowThePreState : Prop :=
  ∀ (P : Params) (b : Block) (i : Inputs),
    let o := (cycle P b i).2
    o.mode_o = b.mode ∧ o.q_empty_o = decide (b.q.wr = b.q.rd) ∧ o.q_ovr_o = b.q.ovr
      ∧ o.enc_busy_o = decide (b.e.sub ≠ .idle)
      ∧ o.pstate_o.code = (match b.p.sub with
          | .head0 => 0
          | .head1 => 0
          | .cmd => 1
          | .lenHi => 2
          | .lenLo => 2
          | .payload => 3
          | .tail0 => 4
          | .tail1 => 4
          | .sum => 5
          | .dispatch => 5
          | .ackReq => 5)

/-- R62, R198, R324: in a cycle without rst, the dispatch port shows the frame in DISPATCH and only there; the payload reads at an
index below p_len, and 0x00 otherwise. -/
def Obligations.DispatchPortShowsTheFrameInDispatchOnly : Prop :=
  ∀ (P : Params) (b : Block) (i : Inputs), i.rst = false →
    let o := (cycle P b i).2
    (b.p.sub = .dispatch →
        o.disp_valid = true ∧ o.disp_cmd = b.p.cmd ∧ o.disp_len = b.p.len
          ∧ (i.disp_raddr.toNat < b.p.len.toNat → o.disp_rdata = b.p.buf.read i.disp_raddr.toNat)
          ∧ (b.p.len.toNat ≤ i.disp_raddr.toNat → o.disp_rdata = 0x00))
      ∧ (b.p.sub ≠ .dispatch →
        o.disp_valid = false ∧ o.disp_cmd = 0x00 ∧ o.disp_len = 0x0000 ∧ o.disp_rdata = 0x00)

/-! ### The encoder -/

/-- R243, R244: an external request is taken by an idle encoder that takes no ACK in the cycle, whatever tx_cmd and tx_len are;
otherwise it is not accepted, and asks for nothing. That send_frame is the request in one cycle, which then gives up, is the model's
own reading (log 18, DEDUCED). -/
def Obligations.SendFrameIsAcceptedByAnIdleEncoder : Prop :=
  ∀ (s : State) (c : Byte) (len : Half), Ready s → s.pins.rst = false →
    let unasked := (cycle s.params s.blk { s.pins with tx_req := false }).1
    ∃ (t : State) (o : Outputs), exec (.sendFrame c len) s = .next t ∧ t.outs = [o]
      ∧ t.blk.q = unasked.q ∧ t.blk.mode = unasked.mode ∧ t.blk.p = unasked.p
      ∧ (s.blk.e.sub = .idle → ¬(pstep s.blk s.pins = true ∧ s.blk.p.sub = .ackReq) →
          t.ret = .flag true ∧ o.tx_accept = true
            ∧ t.blk.e = { sub := .head0, src := .ext, cmd := c, len := len, idx := 0, acc := 0 })
      ∧ ((s.blk.e.sub ≠ .idle ∨ (pstep s.blk s.pins = true ∧ s.blk.p.sub = .ackReq)) →
          t.ret = .flag false ∧ o.tx_accept = false ∧ t.blk.e = unasked.e)

/-- R245, R247, R248: the byte offered in each encoder sub-state, and the transfer: with out_ready the byte leaves and the
encoder moves on, adding it to its running sum; with no transfer the encoder holds. -/
def Obligations.ByteOutTransfersTheOfferedByte : Prop :=
  ∀ (s : State) (ready : Bool), Ready s → s.pins.rst = false → s.blk.e.sub ≠ .idle →
    let P := s.params
    let e := s.blk.e
    let waits := e.sub = .payload ∧ e.src = .ext ∧ s.pins.tx_dvalid = false
    let T : Byte × Byte := match P.tail with
      | .standard => (0xFA, 0xE3)
      | .sameAsHead => (0xFE, 0x5A)
    let unready := (cycle P s.blk { s.pins with out_ready := false }).1
    ∃ (t : State) (o : Outputs), exec (.byteOut ready) s = .next t ∧ t.outs = [o]
      ∧ t.blk.q = unready.q ∧ t.blk.mode = unready.mode ∧ t.blk.p = unready.p
      ∧ (waits → o.out_valid = false ∧ o.out_byte = 0 ∧ t.ret = .popped none ∧ t.blk.e = e)
      ∧ (¬waits → o.out_valid = true)
      ∧ (¬waits → ready = false → t.ret = .popped none ∧ t.blk.e = e)
      ∧ (¬waits → ready = true → t.ret = .popped (some o.out_byte))
      ∧ (o.tx_dready = decide (e.sub = .payload ∧ e.src = .ext ∧ ready = true))
      ∧ (e.sub = .head0 → o.out_byte = 0xFE ∧ (ready = true → t.blk.e = { e with sub := .head1, acc := e.acc + 0xFE }))
      ∧ (e.sub = .head1 → o.out_byte = 0x5A ∧ (ready = true → t.blk.e = { e with sub := .cmd, acc := e.acc + 0x5A }))
      ∧ (e.sub = .cmd → o.out_byte = e.cmd
          ∧ (ready = true → t.blk.e = { e with sub := .lenHi, acc := e.acc + (if P.sumsCmd then e.cmd else 0) }))
      ∧ (e.sub = .lenHi → o.out_byte.toNat = e.len.toNat / 256
          ∧ (ready = true → t.blk.e = { e with sub := .lenLo, acc := e.acc + o.out_byte }))
      ∧ (e.sub = .lenLo → o.out_byte.toNat = e.len.toNat % 256
          ∧ (ready = true →
              t.blk.e = { e with sub := if e.len = 0 then .tail0 else .payload, acc := e.acc + o.out_byte }))
      ∧ (e.sub = .payload → ¬waits →
          (e.src = .ack → o.out_byte = ackPayload.getD e.idx.toNat 0) ∧ (e.src = .ext → o.out_byte = s.pins.tx_data)
            ∧ (ready = true →
                t.blk.e = { e with
                  sub := if e.idx + 1 = e.len then .tail0 else .payload
                  idx := e.idx + 1
                  acc := e.acc + o.out_byte }))
      ∧ (e.sub = .tail0 → o.out_byte = T.1 ∧ (ready = true → t.blk.e = { e with sub := .tail1, acc := e.acc + T.1 }))
      ∧ (e.sub = .tail1 → o.out_byte = T.2 ∧ (ready = true → t.blk.e = { e with sub := .sum, acc := e.acc + T.2 }))
      ∧ (e.sub = .sum → o.out_byte = e.acc ∧ (ready = true → t.blk.e = { e with sub := .idle }))

/-- R245: an idle encoder offers no byte, and byte_out does nothing to it. -/
def Obligations.IdleEncoderOffersNothing : Prop :=
  ∀ (s : State) (ready : Bool), Ready s → s.blk.e.sub = .idle →
    ∃ (t : State) (o : Outputs), exec (.byteOut ready) s = .next t ∧ t.outs = [o]
      ∧ o.out_valid = false ∧ o.out_byte = 0 ∧ o.tx_dready = false ∧ t.ret = .popped none
      ∧ t.blk = (cycle s.params s.blk s.pins).1

/-- R250, R74, R241: whatever the pattern of out_ready, of tx_dvalid and of everything else but rst, the bytes that leave between
the accept of an external request and the return to E_IDLE are exactly the frame of its cmd and of the payload bytes the
sender gave, tx_len of them. -/
def Obligations.ExternalFrameLeavesWholeAndInOrder : Prop :=
  ∀ (P : Params) (b : Block) (ins : List Inputs) (c : Byte) (len : Half),
    b.e = { sub := .head0, src := .ext, cmd := c, len := len, idx := 0, acc := 0 } →
    (∀ i ∈ ins, i.rst = false) → BusyUntilEnd P b ins →
      (takenBytes P b ins).length = len.toNat ∧ sentBytes P b ins = frameBytes P c (takenBytes P b ins)

/-- R250, R251: likewise an ACK, whose frame is `FE 5A 02 00 04 41 43 4B 00` with the tail and the sum after it, and
`FA E3 0A` under the default parameters; it takes nothing from the external sender. -/
def Obligations.AckFrameLeavesWholeAndInOrder : Prop :=
  ∀ (P : Params) (b : Block) (ins : List Inputs),
    b.e = { sub := .head0, src := .ack, cmd := 0x02, len := 4, idx := 0, acc := 0 } →
    (∀ i ∈ ins, i.rst = false) → BusyUntilEnd P b ins →
      takenBytes P b ins = []
        ∧ (sentBytes P b ins).take 9 = [0xFE, 0x5A, 0x02, 0x00, 0x04, 0x41, 0x43, 0x4B, 0x00]
        ∧ sentBytes P b ins = frameBytes P 0x02 [0x41, 0x43, 0x4B, 0x00]
        ∧ (P.tail = .standard →
            (P.sumsCmd = true → (sentBytes P b ins).drop 9 = [0xFA, 0xE3, 0x0A])
              ∧ (P.sumsCmd = false → (sentBytes P b ins).drop 9 = [0xFA, 0xE3, 0x08]))

/-- R253: with out_ready and tx_dvalid held 1 an accepted frame of length L keeps the encoder busy for exactly L + 8 cycles. -/
def Obligations.UnstalledFrameTakesItsLengthInCycles : Prop :=
  ∀ (P : Params) (b : Block) (ins : List Inputs),
    b.e.sub = .head0 → b.e.idx = 0 →
    (∀ i ∈ ins, i.rst = false ∧ i.out_ready = true ∧ i.tx_dvalid = true) →
    ins.length = b.e.len.toNat + 8 → BusyUntilEnd P b ins

/-- R240 and the template of 44_frame_encoder.md: the encoder's step depends on the parser, the mode and step_en only through the ACK
hand-over; two blocks with the same encoder, neither in ACKREQ, under the same tx and out lines step to the same encoder and
show the same encoder outputs. -/
def Obligations.EncoderIsIndependentOfTheOtherUnits : Prop :=
  ∀ (P : Params) (b c : Block) (i j : Inputs),
    b.e = c.e → b.p.sub ≠ .ackReq → c.p.sub ≠ .ackReq →
    i.rst = j.rst → i.tx_req = j.tx_req → i.tx_cmd = j.tx_cmd → i.tx_len = j.tx_len → i.tx_dvalid = j.tx_dvalid →
    i.tx_data = j.tx_data → i.out_ready = j.out_ready →
      (cycle P b i).1.e = (cycle P c j).1.e
        ∧ (cycle P b i).2.out_valid = (cycle P c j).2.out_valid ∧ (cycle P b i).2.out_byte = (cycle P c j).2.out_byte
        ∧ (cycle P b i).2.tx_accept = (cycle P c j).2.tx_accept
        ∧ (cycle P b i).2.tx_dready = (cycle P c j).2.tx_dready

/-! ### The checksum -/

/-- R160, R162: the checksum operation gives the modular sum of the frame's fields, computed on unbounded naturals and reduced
mod 256 at the end, and NULL_SUM for an absent frame; reading it drives no line. That a cycle under the held lines passes
meanwhile is the model's own schedule (log 11, DEDUCED). -/
def Obligations.ChecksumIsTheModularSumOfTheFrame : Prop :=
  ∀ s : State, Ready s →
    (∀ f : Frame, f.payload.length ≤ 65535 →
      ∃ t, exec (.checksum (some f)) s = .next t ∧ t.blk = (cycle s.params s.blk s.pins).1
        ∧ (Quiet s.pins → t.blk = s.blk)
        ∧ ∃ x : Byte, t.ret = .sum x
          ∧ x.toNat = (0xFE + 0x5A + (if s.params.sumsCmd then f.cmd.toNat else 0)
              + f.payload.length / 256 + f.payload.length % 256 + (f.payload.map (fun y => y.toNat)).sum
              + (match s.params.tail with
                | .standard => 0xFA + 0xE3
                | .sameAsHead => 0xFE + 0x5A)) % 256)
      ∧ (∃ t, exec (.checksum none) s = .next t ∧ t.blk = (cycle s.params s.blk s.pins).1 ∧ t.ret = .sum 0xFF)
      ∧ (∀ x : Byte, sumMatches s.params none x = false)

/-- R165: the checksum is unchanged by any permutation of the summed bytes. Summed in any order they give it; two frames whose
summed bytes are the same in another order have the same; so have a frame and itself with its payload bytes in another order, and,
where cmd is summed, two frames that exchange cmd and the len low byte over payloads of one sum. -/
def Obligations.ChecksumIgnoresTheOrderOfBytes : Prop :=
  (∀ (P : Params) (f : Frame) (bytes : List Byte), P.sumsCmd = true →
      bytes.Perm (summedBytes P f) → sumBytes bytes = frameChecksum P f.cmd f.payload)
    ∧ (∀ (P : Params) (f : Frame) (bytes : List Byte), P.sumsCmd = false →
        bytes.Perm ((summedBytes P f).eraseIdx 2) → sumBytes bytes = frameChecksum P f.cmd f.payload)
    ∧ (∀ (P : Params) (f g : Frame), P.sumsCmd = true → (summedBytes P f).Perm (summedBytes P g) →
        frameChecksum P f.cmd f.payload = frameChecksum P g.cmd g.payload)
    ∧ (∀ (P : Params) (c : Byte) (p p' : List Byte), p.Perm p' → frameChecksum P c p = frameChecksum P c p')
    ∧ (∀ (P : Params) (p p' : List Byte), P.sumsCmd = true → p.length < 256 → p'.length < 256 →
        sumBytes p = sumBytes p' →
        frameChecksum P (BitVec.ofNat 8 p.length) p' = frameChecksum P (BitVec.ofNat 8 p'.length) p)

/-- R166, R161: the worked values under the default parameters. -/
def Obligations.WorkedChecksumValues : Prop :=
  let P := Config.params
  frameChecksum P 0x01 [0x41, 0x42, 0x43] = 0xFF ∧ frameChecksum P 0x02 [0x41, 0x43, 0x4B, 0x00] = 0x0A
    ∧ frameChecksum P 0x01 [] = 0x36 ∧ frameChecksum P 0x05 (List.replicate 256 0xFF) = 0x3B
    ∧ frameChecksum { P with sumsCmd := false } 0x01 [0x41, 0x42, 0x43] = 0xFE

/-! ### The whole machine -/

/-- The invariant holds at reset. -/
def Obligations.ResetStateMeetsTheInvariant : Prop := State.reset.Inv

/-- Every step keeps the invariant, from every state that has it: the cursors stay in range and the arrays canonical (R61), the
scratch storage is what its sub-state says, with the running checksum of the bytes received (R136, R163, R190, R192, R200),
the timer stays below its budget (R183), the encoder's index stays in its frame, and the parser is idle in AsciiRepl mode. -/
def Obligations.StepKeepsTheInvariant : Prop :=
  ∀ s t : State, s.Inv → step s = .next t → t.Inv

/-- R66: no index out of range can be formed. From every state that has the invariant, every operation and every step answers a
next state: nothing faults and nothing is refused. -/
def Obligations.InvariantStateNeverStops : Prop :=
  ∀ s : State, s.Inv → Ready s ∧ (∃ t, step s = .next t) ∧ ∀ i : Instr, ∃ t, exec i s = .next t

/-- R314, R10: no operation changes the parameters. That they, the held lines and the stimulus to come are fields of State, which no
operation changes, is the model's own choice (logs 1, 4 and 5). -/
def Obligations.OperationsKeepParametersAndLines : Prop :=
  ∀ (i : Instr) (s t : State), exec i s = .next t →
    t.params = s.params ∧ t.pins = s.pins ∧ t.stim = s.stim

/-- R24: q_ovr is sticky: in a cycle without rst it stays set, and it is set only by a push into a full queue. -/
def Obligations.OverrunFlagIsSticky : Prop :=
  ∀ (P : Params) (b : Block) (i : Inputs), i.rst = false →
    (b.q.ovr = true → (cycle P b i).1.q.ovr = true)
      ∧ (b.q.ovr = false → (cycle P b i).1.q.ovr = true →
          i.in_valid = true ∧ (b.q.wr + 1) % P.cap = (popPhase P b i).rd)

/-- R313, R314: after rst the block is in AsciiRepl mode with an empty queue, so a pushed byte is offered to the REPL; after
set_mode 0x01 the parser may step. -/
def Obligations.BootLeadsToTheParser : Prop :=
  ∀ s : State, s.pins = Inputs.idle →
    ∃ t u v : State, exec .rst s = .next t ∧ exec .setModeBinaryFrame t = .next u ∧ Listening u
      ∧ (∀ x : Byte, ∃ w : State, exec (.push x) t = .next w
          ∧ (cycle w.params w.blk w.pins).2.repl_rvalid = true ∧ (cycle w.params w.blk w.pins).2.repl_rdata = x)
      ∧ exec .processStep u = .next v ∧ v.blk = u.blk
end

