-- ==== Sys2Proof/Laws/State.lean ====
section
/-! SUPPORT. The state's updates, field by field. The lemmas of the updates written as record updates (`driveIn`,
`beginOp`, `endCycle`, `takeStimulus`, `qPop`, `parserReset`, `raiseErr`, ...) are made by `@[simps]` where each is
defined; here are those of `cycle`, `nextBlock` and the reset state, and what the control lines of a driven vector are. -/

namespace Sys2Proof.Machine

@[simp] theorem cycle_fst (P : Params) (b : Block) (i : Inputs) : (cycle P b i).1 = nextBlock P b i := rfl
@[simp] theorem cycle_snd (P : Params) (b : Block) (i : Inputs) : (cycle P b i).2 = outputsOf P b i := rfl

theorem nextBlock_of_rst {P : Params} {b : Block} {i : Inputs} (h : i.rst = true) : nextBlock P b i = Block.reset := by
  simp [nextBlock, h]

/-- R316, phases 3 to 8: what each unit holds after a cycle without rst. -/
theorem nextBlock_eq {P : Params} {b : Block} {i : Inputs} (h : i.rst = false) :
    nextBlock P b i =
      { q := pushPhase P (popPhase P b i) i
        mode := modePhase b i
        p := if controlAction b i then parserReset b.p else (parserPhase P b i).p
        e := encoderPhase P b.e i (ackTake b i) } := by
  simp [nextBlock, h]

@[simp] theorem parserReset_eq (p : Parser) : parserReset p = Parser.reset := rfl

@[simp] theorem Block.reset_q : Block.reset.q = Queue.reset := rfl
@[simp] theorem Block.reset_mode : Block.reset.mode = .asciiRepl := rfl
@[simp] theorem Block.reset_p : Block.reset.p = Parser.reset := rfl
@[simp] theorem Block.reset_e : Block.reset.e = Encoder.reset := rfl

/-! ### Lines that do not matter to a derived value -/

theorem controlAction_congr {b : Block} {i j : Inputs} (h1 : i.mode_wr = j.mode_wr) (h2 : i.mode_val = j.mode_val)
    (h3 : i.soft_reset = j.soft_reset) (h4 : i.repl_err = j.repl_err) : controlAction b i = controlAction b j := by
  simp [controlAction, modeChange, h1, h2, h3, h4]

@[simp] theorem controlAction_driveStep (b : Block) (v : Bool) (i : Inputs) : controlAction b (driveStep v i) = controlAction b i := rfl
@[simp] theorem controlAction_driveIn (b : Block) (v : Bool) (x : Byte) (i : Inputs) :
    controlAction b (driveIn v x i) = controlAction b i := rfl
@[simp] theorem controlAction_driveStepTick (b : Block) (v t : Bool) (i : Inputs) :
    controlAction b (driveStepTick v t i) = controlAction b i := rfl
@[simp] theorem controlAction_driveReplPop (b : Block) (v : Bool) (i : Inputs) :
    controlAction b (driveReplPop v i) = controlAction b i := rfl
@[simp] theorem controlAction_driveDisp (b : Block) (d a : Bool) (i : Inputs) :
    controlAction b (driveDisp d a i) = controlAction b i := rfl
@[simp] theorem controlAction_driveTx (b : Block) (r : Bool) (c : Byte) (l : Half) (i : Inputs) :
    controlAction b (driveTx r c l i) = controlAction b i := rfl
@[simp] theorem controlAction_driveOut (b : Block) (r : Bool) (i : Inputs) : controlAction b (driveOut r i) = controlAction b i := rfl
@[simp] theorem controlAction_driveSoftReset (b : Block) (i : Inputs) : controlAction b (driveSoftReset true i) = true := by
  simp [controlAction]
@[simp] theorem controlAction_driveReplErr (b : Block) (i : Inputs) : controlAction b (driveReplErr true i) = true := by
  simp [controlAction]

/-- R137: the parser steps exactly when rst is 0, the mode is BinaryFrame, step_en is 1 and nothing controls it. -/
theorem pstep_iff {b : Block} {i : Inputs} :
    pstep b i = true ↔ i.rst = false ∧ b.mode = .binaryFrame ∧ i.step_en = true ∧ controlAction b i = false := by
  simp [pstep, and_assoc]

theorem pstep_of_control {b : Block} {i : Inputs} (h : controlAction b i = true) : pstep b i = false := by
  simp [pstep, h]

theorem ackTake_iff {b : Block} {i : Inputs} :
    ackTake b i = true ↔ pstep b i = true ∧ b.p.sub = .ackReq ∧ b.e.sub = .idle := by
  simp [ackTake, and_assoc]

end Sys2Proof.Machine
end

