-- ==== Sys2Proof/Laws/Cycle.lean ====
section
/-! SUPPORT. What a clock cycle and an operation's cycles can come to, said once: `clock` either commits one cycle or stops
on an index out of range; an operation of one cycle is that cycle; cycles one after another compose. -/

namespace Sys2Proof.Machine

theorem clock_eq {i : Inputs} {s : State} (h : (i.rst || indexed s.params s.blk) = true) :
    clock i s = .next (endCycle i s) := by
  simp [clock, h]

/-- A cycle that answers a next state committed exactly that cycle. -/
theorem clock_next {i : Inputs} {s t : State} (h : clock i s = .next t) : t = endCycle i s := by
  unfold clock at h
  split at h <;> simp_all

theorem clock_ne_refused (i : Inputs) (s : State) (r : Refusal) : clock i s ≠ .refused r := by
  unfold clock
  split <;> simp

/-- An operation of one cycle answers that cycle, or stops on an index out of range. -/
theorem perform_one (i : Inputs) (ret : Result) (s : State) :
    perform [i] ret s =
      if i.rst || indexed s.params s.blk then .next (endCycle i (beginOp ret s)) else .fault .indexOutOfRange := by
  unfold perform clockAll clock
  by_cases h : (i.rst || indexed s.params s.blk) = true
  · simp [h, clockAll]
  · simp [h]

theorem perform_one_of_indexed {i : Inputs} {ret : Result} {s : State} (h : indexed s.params s.blk = true) :
    perform [i] ret s = .next (endCycle i (beginOp ret s)) := by
  simp [perform_one, h]

theorem clockAll_append (is js : List Inputs) (s : State) :
    clockAll (is ++ js) s =
      match clockAll is s with
      | .next t => clockAll js t
      | .fault f => .fault f
      | .refused r => .refused r := by
  induction is generalizing s with
  | nil => rfl
  | cons i is ih =>
    simp only [List.cons_append, clockAll]
    cases clock i s with
    | next t => exact ih t
    | fault f => rfl
    | refused r => rfl

/-- Cycles keep everything that is not the block's or the record of its outputs. -/
theorem clockAll_keeps {is : List Inputs} {s t : State} (h : clockAll is s = .next t) :
    t.params = s.params ∧ t.pins = s.pins ∧ t.stim = s.stim ∧ t.ret = s.ret := by
  induction is generalizing s with
  | nil =>
    cases h
    exact ⟨rfl, rfl, rfl, rfl⟩
  | cons i is ih =>
    simp only [clockAll] at h
    cases hc : clock i s with
    | next u =>
      rw [hc] at h
      have hu := clock_next hc
      subst hu
      simpa using ih h
    | fault f => simp [hc] at h
    | refused r => simp [hc] at h

theorem clockAll_ne_refused (is : List Inputs) (s : State) (r : Refusal) : clockAll is s ≠ .refused r := by
  induction is generalizing s with
  | nil => simp [clockAll]
  | cons i is ih =>
    simp only [clockAll]
    cases hc : clock i s with
    | next u => exact ih u
    | fault f => simp
    | refused q => exact absurd hc (clock_ne_refused i s q)

/-- The block after an operation's cycles is the block run over them. -/
theorem clockAll_blk {is : List Inputs} {s t : State} (h : clockAll is s = .next t) :
    t.blk = is.foldl (fun b i => nextBlock s.params b i) s.blk := by
  induction is generalizing s with
  | nil =>
    cases h
    rfl
  | cons i is ih =>
    simp only [clockAll] at h
    cases hc : clock i s with
    | next u =>
      rw [hc] at h
      have hu := clock_next hc
      subst hu
      simpa using ih h
    | fault f => simp [hc] at h
    | refused r => simp [hc] at h

end Sys2Proof.Machine
end

