-- ==== Sys2Proof/Laws/Encoder.lean ====
section
/-! SUPPORT. What the encoder's part of a cycle can come to (44_frame_encoder.md), said once: an idle encoder takes a request or
stays; a busy one transfers its byte and advances, or holds. -/

namespace Sys2Proof.Machine

variable {P : Params} {e : Encoder} {i : Inputs} {a : Bool}

/-- R242, R243: an idle encoder. -/
theorem encoderPhase_of_idle (h : e.sub = .idle) :
    encoderPhase P e i a = if a then loadAck else if i.tx_req then loadExt i.tx_cmd i.tx_len else e := by
  simp [encoderPhase, h]

/-- R247: a busy encoder. -/
theorem encoderPhase_of_busy (h : e.sub ≠ .idle) :
    encoderPhase P e i a = if xfer e i then advance P e (outByte P e i) else e := by
  simp [encoderPhase, h]

/-- R245: an idle encoder offers no byte, so none transfers. -/
theorem xfer_of_idle (h : e.sub = .idle) : xfer e i = false := by
  simp [xfer, outValid, h]

/-- R245: a busy encoder offers a byte unless it waits for the external sender. -/
theorem outValid_of_busy (h : e.sub ≠ .idle) :
    outValid e i = !(decide (e.sub = .payload) && decide (e.src = .ext) && !i.tx_dvalid) := by
  cases hs : e.sub <;> cases hc : e.src <;> simp_all [outValid]

/-- R241: only the transfer of the sum byte makes a busy encoder idle. -/
theorem advance_idle_iff (o : Byte) (h : e.sub ≠ .idle) : (advance P e o).sub = .idle ↔ e.sub = .sum := by
  unfold advance
  split <;> simp_all
  · split <;> simp
  · split <;> simp

/-- R247: an advance leaves the frame's source, command and length. -/
theorem advance_keeps (P : Params) (e : Encoder) (o : Byte) :
    (advance P e o).src = e.src ∧ (advance P e o).cmd = e.cmd ∧ (advance P e o).len = e.len := by
  unfold advance
  split <;> exact ⟨rfl, rfl, rfl⟩

/-- R248: the external sender's byte is taken exactly when it transfers in E_PAYLOAD. -/
theorem txDready_and_dvalid :
    (txDready e i && i.tx_dvalid) = (xfer e i && decide (e.sub = .payload) && decide (e.src = .ext)) := by
  cases hs : e.sub <;> cases hc : e.src <;> simp [txDready, xfer, outValid, hs, hc, Bool.and_comm]

end Sys2Proof.Machine
end

