-- ==== Sys2Proof/Laws/Encoding.lean ====
section
/-! SUPPORT. The laws of the encodings: the two bytes of `len` and the 16-bit value they make, and the sum of a payload. -/

namespace Sys2Proof

/-- R9: `{hi, lo}` is hi*256 + lo. -/
theorem joinBytes_toNat (hi lo : Byte) : (joinBytes hi lo).toNat = hi.toNat * 256 + lo.toNat := by
  have h := BitVec.toNat_append hi lo
  rw [← Nat.shiftLeft_add_eq_or_of_lt lo.isLt, Nat.shiftLeft_eq] at h
  exact h

theorem hiByte_toNat (v : Half) : (hiByte v).toNat = v.toNat / 256 := by
  have := v.isLt
  simp only [hiByte, BitVec.extractLsb'_toNat, Nat.shiftRight_eq_div_pow]
  omega

theorem loByte_toNat (v : Half) : (loByte v).toNat = v.toNat % 256 := by
  simp only [loByte, BitVec.extractLsb'_toNat, Nat.shiftRight_zero]

/-- The high byte of two bytes put together. -/
@[simp] theorem hiByte_joinBytes (hi lo : Byte) : hiByte (joinBytes hi lo) = hi := by
  have := lo.isLt
  refine BitVec.eq_of_toNat_eq ?_
  rw [hiByte_toNat, joinBytes_toNat]
  omega

/-- The low byte of two bytes put together. -/
@[simp] theorem loByte_joinBytes (hi lo : Byte) : loByte (joinBytes hi lo) = lo := by
  have := lo.isLt
  refine BitVec.eq_of_toNat_eq ?_
  rw [loByte_toNat, joinBytes_toNat]
  omega

/-- A 16-bit value is its two bytes put together. -/
@[simp] theorem joinBytes_hiByte_loByte (v : Half) : joinBytes (hiByte v) (loByte v) = v := by
  refine BitVec.eq_of_toNat_eq ?_
  rw [joinBytes_toNat, hiByte_toNat, loByte_toNat]
  omega

/-- R9: `add8` is the addition of bytes, which wraps mod 256. -/
@[simp] theorem add8_eq (a b : Byte) : add8 a b = a + b := rfl

@[simp] theorem sumBytes_nil : sumBytes [] = 0 := rfl

@[simp] theorem sumBytes_cons (b : Byte) (bs : List Byte) : sumBytes (b :: bs) = b + sumBytes bs := rfl

theorem sumBytes_append (as bs : List Byte) : sumBytes (as ++ bs) = sumBytes as + sumBytes bs := by
  induction as with
  | nil => simp
  | cons a as ih => simp [ih, BitVec.add_assoc]

/-- The payload's length is the value of the two `len` bytes when it fits. -/
theorem length_toNat {payload : List Byte} (h : payload.length ≤ 65535) :
    (BitVec.ofNat 16 payload.length).toNat = payload.length := by
  rw [BitVec.toNat_ofNat]
  exact Nat.mod_eq_of_lt (by omega)

/-- R80: a frame has L + 8 bytes. -/
@[simp] theorem frameBytes_length (P : Params) (c : Byte) (payload : List Byte) :
    (frameBytes P c payload).length = payload.length + 8 := by
  simp [frameBytes, frameFront]

end Sys2Proof
end

