-- ==== Sys2Proof/Laws/Memory.lean ====
section
/-! SUPPORT. The laws of the byte arrays: a write is read back, leaves every other slot alone, and keeps the canonical
form. -/

namespace Sys2Proof.Machine

theorem Memory.wf_cons_iff {k : Nat} {v : Byte} {m : Memory} :
    Memory.wf ((k, v) :: m) = true ↔ v ≠ 0 ∧ (∀ c ∈ m, k < c.1) ∧ m.wf = true := by
  simp only [Memory.wf, Bool.and_eq_true, decide_eq_true_eq, List.all_eq_true, and_assoc]

theorem Memory.wf_cons {k : Nat} {v : Byte} {m : Memory} (h : Memory.wf ((k, v) :: m) = true) :
    v ≠ 0 ∧ (∀ c ∈ m, k < c.1) ∧ m.wf = true :=
  Memory.wf_cons_iff.mp h

/-- A slot below every listed index reads 0x00. -/
theorem Memory.read_eq_zero_of_lt {m : Memory} {a : Nat} (h : ∀ c ∈ m, a < c.1) : m.read a = 0 := by
  induction m with
  | nil => rfl
  | cons c m ih =>
    have hc := h c (by simp)
    simp only [Memory.read]
    rw [if_neg (by omega)]
    exact ih fun d hd => h d (by simp [hd])

theorem Memory.read_write_same {m : Memory} (h : m.wf = true) (a : Nat) (b : Byte) : (m.write a b).read a = b := by
  induction m with
  | nil =>
    simp only [Memory.write]
    split_ifs with hb
    · exact hb.symm
    · simp [Memory.read]
  | cons c m ih =>
    obtain ⟨k, v⟩ := c
    obtain ⟨hv, hk, hm⟩ := Memory.wf_cons h
    simp only [Memory.write]
    split_ifs with h1 h2 h3 h4
    · subst h2
      exact Memory.read_eq_zero_of_lt (by simpa using ⟨h1, fun x y hx => lt_trans h1 (hk (x, y) hx)⟩)
    · simp [Memory.read]
    · subst h3 h4
      exact Memory.read_eq_zero_of_lt (by simpa using hk)
    · simp [Memory.read]
    · simp [Memory.read, h3, ih hm]

theorem Memory.read_write_other {m : Memory} (h : m.wf = true) {a k : Nat} (b : Byte) (hne : k ≠ a) :
    (m.write a b).read k = m.read k := by
  induction m with
  | nil =>
    simp only [Memory.write]
    split_ifs with hb
    · rfl
    · simp [Memory.read, hne]
  | cons c m ih =>
    obtain ⟨j, v⟩ := c
    obtain ⟨hv, hk, hm⟩ := Memory.wf_cons h
    simp only [Memory.write]
    split_ifs with h1 h2 h3 h4
    · rfl
    · simp [Memory.read, hne]
    · subst h3
      simp [Memory.read, hne]
    · subst h3
      simp [Memory.read, hne]
    · simp [Memory.read, ih hm]

/-- A write lists no index but the old ones and its own. -/
theorem Memory.mem_write {m : Memory} {a : Nat} {b : Byte} {c : Host.Cell} (h : c ∈ m.write a b) :
    c = (a, b) ∨ c ∈ m := by
  induction m with
  | nil =>
    simp only [Memory.write] at h
    split_ifs at h <;> simp_all
  | cons d m ih =>
    obtain ⟨k, v⟩ := d
    simp only [Memory.write] at h
    split_ifs at h <;> simp only [List.mem_cons] at h ⊢ <;> tauto

theorem Memory.wf_write {m : Memory} (h : m.wf = true) (a : Nat) (b : Byte) : (m.write a b).wf = true := by
  induction m with
  | nil =>
    simp only [Memory.write]
    split_ifs with hb
    · rfl
    · simpa [Memory.wf] using hb
  | cons c m ih =>
    obtain ⟨k, v⟩ := c
    obtain ⟨hv, hk, hm⟩ := Memory.wf_cons h
    simp only [Memory.write]
    split_ifs with h1 h2 h3 h4
    · exact h
    · have hall : ∀ c ∈ (k, v) :: m, a < c.1 := by
        intro c hc
        rcases List.mem_cons.mp hc with rfl | hc
        · exact h1
        · exact lt_trans h1 (hk c hc)
      exact Memory.wf_cons_iff.mpr ⟨h2, hall, h⟩
    · exact hm
    · subst h3
      exact Memory.wf_cons_iff.mpr ⟨h4, hk, hm⟩
    · have hall : ∀ c ∈ Memory.write m a b, k < c.1 := by
        intro c hc
        rcases Memory.mem_write hc with rfl | hc
        · simp only
          omega
        · exact hk c hc
      exact Memory.wf_cons_iff.mpr ⟨hv, hall, ih hm⟩

theorem Memory.below_write {m : Memory} {n a : Nat} (h : m.below n = true) (ha : a < n) (b : Byte) :
    (m.write a b).below n = true := by
  simp only [Memory.below, List.all_eq_true, decide_eq_true_eq] at h ⊢
  intro c hc
  rcases Memory.mem_write hc with rfl | hc
  · exact ha
  · exact h c hc

theorem Memory.below_mono {m : Memory} {n k : Nat} (h : m.below n = true) (hle : n ≤ k) : m.below k = true := by
  simp only [Memory.below, List.all_eq_true, decide_eq_true_eq] at h ⊢
  exact fun c hc => lt_of_lt_of_le (h c hc) hle

/-- A slot at or above the bound of the listed indices reads 0x00. -/
theorem Memory.read_eq_zero_of_below {m : Memory} {n a : Nat} (h : m.below n = true) (ha : n ≤ a) : m.read a = 0 := by
  induction m with
  | nil => rfl
  | cons c m ih =>
    obtain ⟨k, v⟩ := c
    simp only [Memory.below, List.all_cons, Bool.and_eq_true, decide_eq_true_eq] at h
    simp only [Memory.read]
    rw [if_neg (by omega)]
    exact ih h.2

@[simp] theorem Memory.firstBytes_length (m : Memory) (n : Nat) : (m.firstBytes n).length = n := by
  simp [Memory.firstBytes]

/-- The bytes received grow by the byte just written. -/
theorem Memory.firstBytes_write {m : Memory} (h : m.wf = true) (n : Nat) (b : Byte) :
    (m.write n b).firstBytes (n + 1) = m.firstBytes n ++ [b] := by
  simp only [Memory.firstBytes, List.range_succ, List.map_append, List.map_cons, List.map_nil,
    Memory.read_write_same h]
  congr 1
  refine List.map_congr_left fun k hk => Memory.read_write_other h b ?_
  have := List.mem_range.mp hk
  omega

end Sys2Proof.Machine
end

