-- ==== Sys2Proof/Laws/Parser.lean ====
section
/-! SUPPORT. What one parser step can come to (43_frame_parser.md R201), said once: which rule it follows, and that it is
silent, or an error taken by reset(), or the rx_ack pulse. -/

namespace Sys2Proof.Machine

variable {P : Params} {b : Block} {i : Inputs}

theorem ParserSub.ne_of_readsByte {x : ParserSub} (h : x.readsByte = true) : x ≠ .dispatch ∧ x ≠ .ackReq := by
  cases x <;> simp_all [ParserSub.readsByte]

/-- R181: with a byte in the queue, a byte-reading sub-state follows its rule with that byte. -/
theorem parserStep_of_byte (hr : b.p.sub.readsByte = true) (hq : b.q.wr ≠ b.q.rd) :
    parserStep P b i = onByte P b.p (qFront b.q) := by
  obtain ⟨h1, h2⟩ := ParserSub.ne_of_readsByte hr
  simp [parserStep, h1, h2, qTryPop, qEmpty, hq]

/-- R183: with an empty queue, a byte-reading sub-state waits. -/
theorem parserStep_of_empty (hr : b.p.sub.readsByte = true) (hq : b.q.wr = b.q.rd) :
    parserStep P b i = onEmpty P b.p i.tick := by
  obtain ⟨h1, h2⟩ := ParserSub.ne_of_readsByte hr
  simp [parserStep, h1, h2, qTryPop, qEmpty, hq]

/-- A parser step that reports nothing, one that takes an error of the parser, or one that pulses rx_ack. -/
def ParserStep.Lawful (p : Parser) (r : ParserStep) : Prop :=
  (r.evt = .none ∧ r.rxAck = false)
    ∨ (p.sub.readsByte = true ∧ r.p = Parser.reset ∧ r.evt ≠ .none ∧ r.evt ≠ .lineOverflow ∧ r.rxAck = false)
    ∨ (p.sub = .sum ∧ p.cmd = cmdAck ∧ r.p = Parser.reset ∧ r.evt = .none ∧ r.rxAck = true)

theorem lawful_quiet (p q : Parser) : (quietStep q).Lawful p := .inl ⟨rfl, rfl⟩

theorem lawful_raise {p : Parser} {k : Event} (hr : p.sub.readsByte = true) (h0 : k ≠ .none) (h6 : k ≠ .lineOverflow) :
    (raiseErr k p).Lawful p :=
  .inr (.inl ⟨hr, rfl, h0, h6, rfl⟩)

/-- R185 to R197: what the rule of a sub-state makes of a byte. -/
theorem onByte_lawful (P : Params) (p : Parser) (x : Byte) : (onByte P p x).Lawful p := by
  cases hs : p.sub <;> simp only [onByte, hs]
  · unfold onHead0
    split_ifs <;> exact lawful_quiet _ _
  · unfold onHead1
    split_ifs
    · exact lawful_quiet _ _
    · exact lawful_raise (by simp [hs, ParserSub.readsByte]) (by simp) (by simp)
  · exact lawful_quiet _ _
  · exact lawful_quiet _ _
  · unfold onLenLo
    dsimp only
    split_ifs
    · exact lawful_raise (by simp [hs, ParserSub.readsByte]) (by simp) (by simp)
    · exact lawful_quiet _ _
    · exact lawful_quiet _ _
  · exact lawful_quiet _ _
  · exact lawful_quiet _ _
  · unfold onTail1
    split_ifs
    · exact lawful_quiet _ _
    · exact lawful_raise (by simp [hs, ParserSub.readsByte]) (by simp) (by simp)
  · unfold onSum classify
    split_ifs with h1 h2 h3
    · exact lawful_quiet _ _
    · exact .inr (.inr ⟨hs, h3, rfl, rfl, rfl⟩)
    · exact lawful_raise (by simp [hs, ParserSub.readsByte]) (by simp) (by simp)
    · exact lawful_raise (by simp [hs, ParserSub.readsByte]) (by simp) (by simp)
  · exact lawful_quiet _ _
  · exact lawful_quiet _ _

theorem budget_readsByte {p : ParserSub} {t : Nat} (h : budget P p = some t) : p.readsByte = true := by
  cases p <;> simp_all [budget, ParserSub.readsByte]

theorem onEmpty_lawful (P : Params) (p : Parser) (tick : Bool) : (onEmpty P p tick).Lawful p := by
  unfold onEmpty
  split
  · exact lawful_quiet _ _
  · rename_i t ht
    split_ifs
    · exact lawful_raise (budget_readsByte ht) (by simp) (by simp)
    · exact lawful_quiet _ _
    · exact lawful_quiet _ _

/-- Every parser step is silent, or takes an error by reset(), or pulses rx_ack. -/
theorem parserStep_lawful (P : Params) (b : Block) (i : Inputs) : (parserStep P b i).Lawful b.p := by
  unfold parserStep
  split_ifs
  · unfold onDispatch
    split_ifs <;> exact lawful_quiet _ _
  · unfold onAckReq
    split_ifs <;> exact lawful_quiet _ _
  · split
    · exact onByte_lawful _ _ _
    · exact onEmpty_lawful _ _ _

theorem parserPhase_of_pstep (h : pstep b i = true) : parserPhase P b i = parserStep P b i := by
  simp [parserPhase, h]

theorem parserPhase_of_not_pstep (h : pstep b i = false) : parserPhase P b i = quietStep b.p := by
  simp [parserPhase, h]

end Sys2Proof.Machine
end

