-- ==== Sys2Proof/Laws/PerInstr.lean ====
section
/-! SUPPORT. The statements made per instruction. `OwnFormat`: an operation's word stands on the port that its row of
spec/opcode_table.json names in its `format` column, whatever the operands and the parameters. -/

namespace Sys2Proof.Laws.OwnFormat

/-- The word of an operation stands on the operation's own port. -/
def Statement (i : Instr) : Prop := ∀ P : Params, (encode P i).format = i.format

theorem transCmd (payload : List Byte) : Statement (.transCmd payload) := fun _ => rfl

theorem ack (payload : List Byte) : Statement (.ack payload) := fun _ => rfl

theorem fileParam (payload : List Byte) : Statement (.fileParam payload) := fun _ => rfl

theorem filePacket (payload : List Byte) : Statement (.filePacket payload) := fun _ => rfl

theorem customize (payload : List Byte) : Statement (.customize payload) := fun _ => rfl

theorem setModeAsciiRepl : Statement .setModeAsciiRepl := fun _ => rfl

theorem setModeBinaryFrame : Statement .setModeBinaryFrame := fun _ => rfl

theorem rst : Statement .rst := fun _ => rfl

theorem push (b : Byte) : Statement (.push b) := fun _ => rfl

theorem tryPopRepl : Statement .tryPopRepl := fun _ => rfl

theorem tryPopParser (s : Bool) : Statement (.tryPopParser s) := fun _ => rfl

theorem popBlocking (s t : Bool) : Statement (.popBlocking s t) := fun _ => rfl

theorem isEmpty : Statement .isEmpty := fun _ => rfl

theorem currentMode : Statement .currentMode := fun _ => rfl

theorem currentState : Statement .currentState := fun _ => rfl

theorem reset : Statement .reset := fun _ => rfl

theorem replError : Statement .replError := fun _ => rfl

theorem processStep : Statement .processStep := fun _ => rfl

theorem checksum (frame : Option Frame) : Statement (.checksum frame) := by
  intro P
  cases frame <;> rfl

theorem dispatchDone (a : Bool) : Statement (.dispatchDone a) := fun _ => rfl

theorem sendFrame (c : Byte) (l : Half) : Statement (.sendFrame c l) := fun _ => rfl

theorem sendAck : Statement .sendAck := fun _ => rfl

theorem byteOut (r : Bool) : Statement (.byteOut r) := fun _ => rfl

end Sys2Proof.Laws.OwnFormat
end

