-- ==== Sys2Proof/Laws/Queue.lean ====
section
/-! SUPPORT. The laws of the queue (40_bytequeue.md): the cursor arithmetic modulo C, what a pop and a push make of the list of
unread bytes, and that both keep the queue's form. -/

namespace Sys2Proof.Machine

variable {P : Params} {q : Queue}

theorem nextSlot_lt (P : Params) (k : Nat) : nextSlot P k < P.cap :=
  Nat.mod_lt _ (by have := P.cap_legal; omega)

/-- A cursor moved on, without the modulus. -/
theorem nextSlot_eq {k : Nat} (h : k < P.cap) : nextSlot P k = if k + 1 = P.cap then 0 else k + 1 := by
  unfold nextSlot
  split_ifs with h1
  · rw [h1, Nat.mod_self]
  · exact Nat.mod_eq_of_lt (by omega)

/-- The number of unread bytes, without the modulus. -/
theorem qCount_eq (hw : q.wr < P.cap) (hr : q.rd < P.cap) :
    qCount P q = if q.rd ≤ q.wr then q.wr - q.rd else q.wr + P.cap - q.rd := by
  unfold qCount
  split_ifs with h1
  · rw [show q.wr + P.cap - q.rd = q.wr - q.rd + P.cap by omega, Nat.add_mod_right, Nat.mod_eq_of_lt (by omega)]
  · exact Nat.mod_eq_of_lt (by omega)

theorem qCount_lt (P : Params) (q : Queue) : qCount P q < P.cap :=
  Nat.mod_lt _ (by have := P.cap_legal; omega)

/-- A slot counted from the read cursor, without the modulus. -/
theorem slot_eq {r k : Nat} (hr : r < P.cap) (hk : k < P.cap) :
    (r + k) % P.cap = if r + k < P.cap then r + k else r + k - P.cap := by
  split_ifs with h1
  · exact Nat.mod_eq_of_lt h1
  · rw [Nat.mod_eq_sub_mod (by omega), Nat.mod_eq_of_lt (by omega)]

@[simp] theorem qContents_length (P : Params) (q : Queue) : (qContents P q).length = qCount P q := by
  simp [qContents]

theorem qFull_iff : qFull P q = true ↔ nextSlot P q.wr = q.rd := by simp [qFull]

theorem qEmpty_iff : qEmpty q = true ↔ q.wr = q.rd := by simp [qEmpty]

/-- R23: full means q_count = C - 1. -/
theorem qFull_iff_count (h : QueueOk P q) : qFull P q = true ↔ qCount P q = P.cap - 1 := by
  have hc := P.cap_legal
  rw [qFull_iff, nextSlot_eq h.1, qCount_eq h.1 h.2.1]
  have := h.1
  have := h.2.1
  split_ifs <;> omega

theorem qContents_of_empty (hr : q.rd < P.cap) (he : q.wr = q.rd) : qContents P q = [] := by
  refine List.eq_nil_of_length_eq_zero ?_
  rw [qContents_length, qCount_eq (he ▸ hr) hr]
  simp [he]

theorem QueueOk.pop (h : QueueOk P q) : QueueOk P (qPop P q) := ⟨h.1, nextSlot_lt P q.rd, h.2.2⟩

theorem QueueOk.push (h : QueueOk P q) (x : Byte) : QueueOk P (qPush P q x) := by
  obtain ⟨h1, h2, h3, h4⟩ := h
  refine ⟨nextSlot_lt P q.wr, ?_, Memory.wf_write h3 _ _, Memory.below_write h4 h1 _⟩
  simp only [qPush]
  split
  · split
    · exact nextSlot_lt P q.rd
    · exact h2
  · exact h2

theorem qCount_pop (h : QueueOk P q) (hne : q.wr ≠ q.rd) : qCount P q = qCount P (qPop P q) + 1 := by
  obtain ⟨h1, h2, -, -⟩ := h
  rw [qCount_eq h1 h2, qCount_eq (q := qPop P q) h1 (nextSlot_lt P q.rd)]
  simp only [qPop_rd, qPop_wr, nextSlot_eq h2]
  split_ifs <;> omega

/-- R104: a pop takes the head of the unread bytes. -/
theorem qContents_pop (h : QueueOk P q) (hne : q.wr ≠ q.rd) :
    qContents P q = qFront q :: qContents P (qPop P q) := by
  simp only [qContents, qCount_pop h hne, List.range_succ_eq_map, List.map_cons, List.map_map]
  congr 1
  · simp [qFront, Nat.mod_eq_of_lt h.2.1]
  · refine List.map_congr_left fun k _ => ?_
    simp only [Function.comp, qPop_buf, qPop_rd, nextSlot, Nat.mod_add_mod]
    congr 2
    omega

/-- R101: a push into a queue that is not full appends its byte. -/
theorem qContents_push (h : QueueOk P q) (hf : ¬ qFull P q = true) (x : Byte) :
    qContents P (qPush P q x) = qContents P q ++ [x] := by
  obtain ⟨h1, h2, h3, -⟩ := h
  have hlt := qCount_lt P q
  have hn : ¬ nextSlot P q.wr = q.rd := fun e => hf (qFull_iff.mpr e)
  have hrd : (qPush P q x).rd = q.rd := by simp [qPush, hf]
  have hc : qCount P (qPush P q x) = qCount P q + 1 := by
    rw [qCount_eq (nextSlot_lt P q.wr) (hrd ▸ h2), qCount_eq h1 h2, hrd]
    have hwr : (qPush P q x).wr = nextSlot P q.wr := rfl
    simp only [hwr, nextSlot_eq h1] at hn ⊢
    split_ifs at hn ⊢ <;> omega
  have hw : (q.rd + qCount P q) % P.cap = q.wr := by
    rw [slot_eq h2 hlt, qCount_eq h1 h2]
    split_ifs <;> omega
  simp only [qContents, hc, hrd, List.range_succ, List.map_append, List.map_cons, List.map_nil]
  congr 1
  · refine List.map_congr_left fun k hk => Memory.read_write_other h3 x fun e => ?_
    have hk := List.mem_range.mp hk
    rw [← hw, slot_eq h2 hlt, slot_eq h2 (by omega)] at e
    split_ifs at e <;> omega
  · simp only [qPush, hw, Memory.read_write_same h3]

/-- R102, DROP_OLDEST: a push into a full queue drops the oldest byte and appends its own. -/
theorem qContents_push_dropOldest (h : QueueOk P q) (hf : qFull P q = true) (hp : P.policy = .dropOldest)
    (x : Byte) : qContents P (qPush P q x) = (qContents P q).tail ++ [x] := by
  have hcap := P.cap_legal
  have hn := qFull_iff.mp hf
  have hne : q.wr ≠ q.rd := by
    intro e
    have h0 := (qFull_iff_count h).mp hf
    rw [qCount_eq h.1 h.2.1] at h0
    simp [e] at h0
    omega
  have hpop := h.pop
  have hpf : ¬ qFull P (qPop P q) = true := by
    rw [qFull_iff_count hpop]
    have h0 := (qFull_iff_count h).mp hf
    have h5 := qCount_pop h hne
    omega
  have he : qPush P q x = { qPush P (qPop P q) x with ovr := true } := by
    have hpf' : qFull P (qPop P q) = false := by simpa using hpf
    simp [qPush, hf, hp, hpf']
  rw [qContents_pop h hne, List.tail_cons, ← qContents_push hpop hpf x, he]
  rfl

/-- R102, WRAP_TO_EMPTY: a push into a full queue leaves nothing unread. -/
theorem qContents_push_wrapToEmpty (h : QueueOk P q) (hf : qFull P q = true) (hp : P.policy = .wrapToEmpty)
    (x : Byte) : qContents P (qPush P q x) = [] :=
  qContents_of_empty (h.push x).2.1 (by simp [qPush, hf, hp, qFull_iff.mp hf])

end Sys2Proof.Machine
end

