-- ==== Sys2Proof/Laws/Step.lean ====
section
/-! SUPPORT. What a step can come to, said once: every operation and every step is a run of clock cycles, and what every clock
cycle keeps they keep. -/

namespace Sys2Proof.Machine

/-- Every operation is a run of cycles. -/
theorem exec_eq_perform (i : Instr) (s : State) : ∃ cycles ret, exec i s = perform cycles ret s := by
  cases i <;> exact ⟨_, _, rfl⟩

/-- The three ways of a step: no stimulus left, an operation of the table, or the bare bits of a word that is none. -/
theorem step_cases (s : State) :
    (s.stim = [] ∧ step s = idleStep s)
      ∨ (∃ e rest i, s.stim = e :: rest ∧ decode s.params e.word = .ok i ∧ step s = exec i (takeStimulus e rest s))
      ∨ (∃ e rest err, s.stim = e :: rest ∧ decode s.params e.word = .error err
          ∧ step s = rawStep e.word (takeStimulus e rest s)) := by
  unfold step
  split
  · exact .inl ⟨by assumption, rfl⟩
  · rename_i e rest hs
    split
    · exact .inr (.inl ⟨e, rest, _, hs, by assumption, rfl⟩)
    · exact .inr (.inr ⟨e, rest, _, hs, by assumption, rfl⟩)

/-- What every clock cycle keeps, an operation's cycles keep. -/
theorem clockAll_induct {Q : State → Prop} (hQ : ∀ i s, Q s → Q (endCycle i s)) {is : List Inputs} {s t : State}
    (h : clockAll is s = .next t) (hs : Q s) : Q t := by
  induction is generalizing s with
  | nil =>
    cases h
    exact hs
  | cons i is ih =>
    simp only [clockAll] at h
    cases hc : clock i s with
    | next u =>
      rw [hc] at h
      have hu := clock_next hc
      subst hu
      exact ih h (hQ i s hs)
    | fault f => simp [hc] at h
    | refused r => simp [hc] at h

/-- Cycles complete when every cycle keeps a condition under which no index leaves its array. -/
theorem clockAll_completes {Q : State → Prop} (hQ : ∀ i s, Q s → Q (endCycle i s))
    (hi : ∀ s, Q s → indexed s.params s.blk = true) (is : List Inputs) {s : State} (hs : Q s) :
    ∃ t, clockAll is s = .next t := by
  induction is generalizing s with
  | nil => exact ⟨s, rfl⟩
  | cons i is ih =>
    have hc : clock i s = .next (endCycle i s) := clock_eq (by simp [hi s hs])
    simp only [clockAll, hc]
    exact ih (hQ i s hs)

end Sys2Proof.Machine
end

