-- ==== Sys2Proof/Tests/Slice0.lean ====
section
/-! SUPPORT. Tests of one step each, their expected results taken from spec/95_test_vectors.md or from a rule's own example
(named at each test); the smoke test of WellFormed; words written out from the encodings; and for every statement with
hypotheses a concrete state that meets them. -/

set_option Elab.async false

namespace Sys2Proof.Tests

open Sys2Proof.Machine

/-! ### Small states -/

/-- The parameters of the vectors: the defaults, with T_CMD = 3 (PV-16b), T_LEN = 1 (PV-17b) and the other budgets 4. -/
def vecParams : Params where
  cap := 512
  policy := .dropOldest
  payloadMax := 503
  tw := 16
  tHead := 4
  tCmd := 3
  tLen := 1
  tPayload := 4
  tTail := 4
  tSum := 4
  sumsCmd := true
  tail := .standard
  cap_legal := by decide
  payloadMax_legal := by decide
  tHead_legal := by decide
  tCmd_legal := by decide
  tLen_legal := by decide
  tPayload_legal := by decide
  tTail_legal := by decide
  tSum_legal := by decide

/-- The parameters of the queue vectors Q-1 to Q-11 and of R103: C = 4. -/
def queueParams (policy : OverflowPolicy) : Params :=
  { vecParams with cap := 4, policy := policy, cap_legal := by decide }

/-- No line driven, out_ready 0. -/
def quietPins : Inputs := { Inputs.idle with out_ready := false }

/-- A state of the block under held lines. -/
def mk (P : Params) (q : Queue) (m : Mode) (p : Parser) (e : Encoder) (pins : Inputs) : State :=
  { params := P, blk := { q := q, mode := m, p := p, e := e }, pins := pins, stim := [], outs := [], ret := .none }

/-- The unread bytes xs, from slot 0. -/
def queueOf (xs : List Byte) : Queue :=
  { buf := (xs.zipIdx).foldl (fun m x => m.write x.2 x.1) [], wr := xs.length, rd := 0, ovr := false }

/-- A parser in a sub-state, its scratch storage zero. -/
def parserAt (sub : ParserSub) : Parser := { Parser.reset with sub := sub }

/-- BinaryFrame mode, the parser in p, the bytes xs unread, nothing driven. -/
def bin (p : Parser) (xs : List Byte) : State := mk vecParams (queueOf xs) .binaryFrame p Encoder.reset quietPins

/-- AsciiRepl mode, the bytes xs unread, nothing driven. -/
def repl (xs : List Byte) : State := mk vecParams (queueOf xs) .asciiRepl Parser.reset Encoder.reset quietPins

/-- BinaryFrame mode, the parser idle on an empty queue, the encoder in e. -/
def sending (e : Encoder) : State := mk vecParams Queue.reset .binaryFrame Parser.reset e quietPins

/-- A parser that holds a whole frame (cmd, L = 1, payload 10), in DISPATCH or ACKREQ. -/
def holding (sub : ParserSub) (cmd : Byte) : Parser :=
  { sub := sub, cmd := cmd, len := 1, idx := 1, acc := frameChecksum vecParams cmd [0x10], t0 := 0xFA, tim := 0
    buf := [(0, 0x10)] }

/-- The held lines with step_en. -/
def stepping (s : State) : State := { s with pins := { s.pins with step_en := true } }

/-- The outcome is a next state of which f holds. -/
def nextIs (o : Host.Outcome State Fault Refusal) (f : State → Bool) : Bool :=
  match o with
  | .next t => f t
  | .fault _ => false
  | .refused _ => false

/-- The outcome is the model's one fault. -/
def faults (o : Host.Outcome State Fault Refusal) : Bool :=
  match o with
  | .next _ => false
  | .fault f => f == .indexOutOfRange
  | .refused _ => false

/-- The event of each cycle of the last operation. -/
def events (t : State) : List Event := t.outs.map (fun o => o.evt)

/-! ### WellFormed -/

/-- R81: `len` has 16 bits, so 65536 bytes are no payload. -/
theorem test_wf_refuses_transCmd : Instr.wf (.transCmd (List.replicate 65536 0x00)) = false := by
  simp only [Instr.wf, payloadFits, List.length_replicate]
  decide

/-- R81: `len` has 16 bits, so 65536 bytes are no payload. -/
theorem test_wf_refuses_ack : Instr.wf (.ack (List.replicate 65536 0x00)) = false := by
  simp only [Instr.wf, payloadFits, List.length_replicate]
  decide

/-- R81: `len` has 16 bits, so 65536 bytes are no payload. -/
theorem test_wf_refuses_fileParam : Instr.wf (.fileParam (List.replicate 65536 0x00)) = false := by
  simp only [Instr.wf, payloadFits, List.length_replicate]
  decide

/-- R81: `len` has 16 bits, so 65536 bytes are no payload. -/
theorem test_wf_refuses_filePacket : Instr.wf (.filePacket (List.replicate 65536 0x00)) = false := by
  simp only [Instr.wf, payloadFits, List.length_replicate]
  decide

/-- R81: `len` has 16 bits, so 65536 bytes are no payload. -/
theorem test_wf_refuses_customize : Instr.wf (.customize (List.replicate 65536 0x00)) = false := by
  simp only [Instr.wf, payloadFits, List.length_replicate]
  decide

/-- R81: `len` has 16 bits. -/
theorem test_wf_refuses_checksum : Instr.wf (.checksum (some ⟨0x01, List.replicate 65536 0x00⟩)) = false := by
  simp only [Instr.wf, payloadFits, List.length_replicate]
  decide

/-- The longest payload the wire allows (R81), for every operation with a payload; an absent frame. -/
theorem test_wf_admits_the_longest_payload :
    Instr.wf (.transCmd (List.replicate 65535 0x00)) = true ∧ Instr.wf (.ack (List.replicate 65535 0x00)) = true
      ∧ Instr.wf (.fileParam (List.replicate 65535 0x00)) = true
      ∧ Instr.wf (.filePacket (List.replicate 65535 0x00)) = true
      ∧ Instr.wf (.customize (List.replicate 65535 0x00)) = true
      ∧ Instr.wf (.checksum (some ⟨0x01, List.replicate 65535 0x00⟩)) = true ∧ Instr.wf (.checksum none) = true := by
  simp only [Instr.wf, payloadFits, List.length_replicate]
  decide

/-! ### Decoding: words written out from R80, R83, R85, R86 and the table's encodings -/

/-- W2, PV-1. -/
theorem test_decode_transCmd :
    decode vecParams (.link [0xFE, 0x5A, 0x01, 0x00, 0x03, 0x41, 0x42, 0x43, 0xFA, 0xE3, 0xFF]) = .ok (.transCmd [0x41, 0x42, 0x43]) ∧ encode vecParams (.transCmd [0x41, 0x42, 0x43]) = .link [0xFE, 0x5A, 0x01, 0x00, 0x03, 0x41, 0x42, 0x43, 0xFA, 0xE3, 0xFF] := by
  decide

/-- R251. -/
theorem test_decode_ack :
    decode vecParams (.link [0xFE, 0x5A, 0x02, 0x00, 0x04, 0x41, 0x43, 0x4B, 0x00, 0xFA, 0xE3, 0x0A]) = .ok (.ack [0x41, 0x43, 0x4B, 0x00]) ∧ encode vecParams (.ack [0x41, 0x43, 0x4B, 0x00]) = .link [0xFE, 0x5A, 0x02, 0x00, 0x04, 0x41, 0x43, 0x4B, 0x00, 0xFA, 0xE3, 0x0A] := by
  decide

/-- CS-12. -/
theorem test_decode_fileParam :
    decode vecParams (.link [0xFE, 0x5A, 0x03, 0x00, 0x01, 0x7E, 0xFA, 0xE3, 0xB7]) = .ok (.fileParam [0x7E]) ∧ encode vecParams (.fileParam [0x7E]) = .link [0xFE, 0x5A, 0x03, 0x00, 0x01, 0x7E, 0xFA, 0xE3, 0xB7] := by
  decide

/-- CS-14. -/
theorem test_decode_filePacket :
    decode vecParams (.link [0xFE, 0x5A, 0x04, 0x00, 0x02, 0xFE, 0x5A, 0xFA, 0xE3, 0x93]) = .ok (.filePacket [0xFE, 0x5A]) ∧ encode vecParams (.filePacket [0xFE, 0x5A]) = .link [0xFE, 0x5A, 0x04, 0x00, 0x02, 0xFE, 0x5A, 0xFA, 0xE3, 0x93] := by
  decide

/-- CS-11. -/
theorem test_decode_customize :
    decode vecParams (.link [0xFE, 0x5A, 0x05, 0x00, 0x02, 0x11, 0x22, 0xFA, 0xE3, 0x6F]) = .ok (.customize [0x11, 0x22]) ∧ encode vecParams (.customize [0x11, 0x22]) = .link [0xFE, 0x5A, 0x05, 0x00, 0x02, 0x11, 0x22, 0xFA, 0xE3, 0x6F] := by
  decide

/-- R85. -/
theorem test_decode_setModeAsciiRepl :
    decode vecParams (.modeVal 0x00) = .ok (.setModeAsciiRepl) ∧ encode vecParams (.setModeAsciiRepl) = .modeVal 0x00 := by
  decide

/-- R85. -/
theorem test_decode_setModeBinaryFrame :
    decode vecParams (.modeVal 0x01) = .ok (.setModeBinaryFrame) ∧ encode vecParams (.setModeBinaryFrame) = .modeVal 0x01 := by
  decide

/-- row rst, encoding 1. -/
theorem test_decode_rst :
    decode vecParams (.rstLine 0b1#1) = .ok (.rst) ∧ encode vecParams (.rst) = .rstLine 0b1#1 := by
  decide

/-- row push, encoding 1bbbbbbbb. -/
theorem test_decode_push :
    decode vecParams (.inPort 0b101000001#9) = .ok (.push 0x41) ∧ encode vecParams (.push 0x41) = .inPort 0b101000001#9 := by
  decide

/-- row try_pop.repl, encoding 1. -/
theorem test_decode_tryPopRepl :
    decode vecParams (.replPort 0b1#1) = .ok (.tryPopRepl) ∧ encode vecParams (.tryPopRepl) = .replPort 0b1#1 := by
  decide

/-- row try_pop.parser, encoding s. -/
theorem test_decode_tryPopParser :
    decode vecParams (.parserPop 0b1#1) = .ok (.tryPopParser true) ∧ encode vecParams (.tryPopParser true) = .parserPop 0b1#1 := by
  decide

/-- row pop_blocking, encoding st. -/
theorem test_decode_popBlocking :
    decode vecParams (.stepTick 0b10#2) = .ok (.popBlocking true false) ∧ encode vecParams (.popBlocking true false) = .stepTick 0b10#2 := by
  decide

/-- row is_empty. -/
theorem test_decode_isEmpty :
    decode vecParams (.sampleEmpty) = .ok (.isEmpty) ∧ encode vecParams (.isEmpty) = .sampleEmpty := by
  decide

/-- row current_mode. -/
theorem test_decode_currentMode :
    decode vecParams (.sampleMode) = .ok (.currentMode) ∧ encode vecParams (.currentMode) = .sampleMode := by
  decide

/-- row current_state. -/
theorem test_decode_currentState :
    decode vecParams (.sampleState) = .ok (.currentState) ∧ encode vecParams (.currentState) = .sampleState := by
  decide

/-- row reset, encoding 1. -/
theorem test_decode_reset :
    decode vecParams (.softReset 0b1#1) = .ok (.reset) ∧ encode vecParams (.reset) = .softReset 0b1#1 := by
  decide

/-- row repl_error, encoding 1. -/
theorem test_decode_replError :
    decode vecParams (.replErr 0b1#1) = .ok (.replError) ∧ encode vecParams (.replError) = .replErr 0b1#1 := by
  decide

/-- row process_step, encoding 1. -/
theorem test_decode_processStep :
    decode vecParams (.stepEn 0b1#1) = .ok (.processStep) ∧ encode vecParams (.processStep) = .stepEn 0b1#1 := by
  decide

/-- R160 over the bytes before the sum, W2. -/
theorem test_decode_checksum :
    decode vecParams (.frameSum (some [0xFE, 0x5A, 0x01, 0x00, 0x03, 0x41, 0x42, 0x43, 0xFA, 0xE3])) = .ok (.checksum (some ⟨0x01, [0x41, 0x42, 0x43]⟩)) ∧ encode vecParams (.checksum (some ⟨0x01, [0x41, 0x42, 0x43]⟩)) = .frameSum (some [0xFE, 0x5A, 0x01, 0x00, 0x03, 0x41, 0x42, 0x43, 0xFA, 0xE3]) := by
  decide

/-- R162. -/
theorem test_decode_checksum_absent :
    decode vecParams (.frameSum none) = .ok (.checksum none) ∧ encode vecParams (.checksum none) = .frameSum none := by
  decide

/-- row dispatch_done, encoding 1a. -/
theorem test_decode_dispatchDone :
    decode vecParams (.dispPort 0b11#2) = .ok (.dispatchDone true) ∧ encode vecParams (.dispatchDone true) = .dispPort 0b11#2 := by
  decide

/-- row send_frame, encoding 1c..cl..l, E-1. -/
theorem test_decode_sendFrame :
    decode vecParams (.txPort 0b1000001010000000000000010#25) = .ok (.sendFrame 0x05 0x0002) ∧ encode vecParams (.sendFrame 0x05 0x0002) = .txPort 0b1000001010000000000000010#25 := by
  decide

/-- row send_ack. -/
theorem test_decode_sendAck :
    decode vecParams (.ackHandOver) = .ok (.sendAck) ∧ encode vecParams (.sendAck) = .ackHandOver := by
  decide

/-- row byte_out, encoding r. -/
theorem test_decode_byteOut :
    decode vecParams (.outPort 0b1#1) = .ok (.byteOut true) ∧ encode vecParams (.byteOut true) = .outPort 0b1#1 := by
  decide

/-- R84, R164, R82, R85 and a strobe at 0: words that are no operation, rejected by name (PV-7, PV-6, PV-4, PV-2, M-2). -/
theorem test_decode_rejects :
    decode vecParams (.link [0xFE, 0x5A, 0x09, 0x00, 0x01, 0x41, 0xFA, 0xE3, 0x80]) = .error .unknownCommand
      ∧ decode vecParams (.link [0xFE, 0x5A, 0x01, 0x00, 0x00, 0xFA, 0xE3, 0x35]) = .error .badSum
      ∧ decode vecParams (.link [0xFE, 0x5A, 0x01, 0x00, 0x00, 0xFB, 0xE3, 0x37]) = .error .badTail
      ∧ decode vecParams (.link [0xFE, 0x5A, 0x01, 0x00, 0x01, 0xFA, 0xE3, 0x36]) = .error .badLength
      ∧ decode vecParams (.link [0xFE, 0xFE, 0x01, 0x00, 0x00, 0xFA, 0xE3, 0x36]) = .error .badHead
      ∧ decode vecParams (.link [0xFE, 0x5A, 0x01]) = .error .tooShort
      ∧ decode vecParams (.modeVal 0x02) = .error .invalidMode
      ∧ decode vecParams (.inPort 0b001000001#9) = .error .notAsserted := by
  decide

/-- The table's 8-bit words under its own numbering of bits (log 9). -/
theorem test_table_words :
    decodeTableWord 8 0x01 = some (.transCmd []) ∧ decodeTableWord 8 0x02 = some (.ack [])
      ∧ decodeTableWord 8 0x03 = some (.fileParam []) ∧ decodeTableWord 8 0x04 = some (.filePacket [])
      ∧ decodeTableWord 8 0x05 = some (.customize []) ∧ decodeTableWord 8 0x00 = some .setModeAsciiRepl
      ∧ decodeTableWord 8 0x06 = none ∧ decodeTableWord 16 0x141 = some (.push 0x41)
      ∧ decodeTableWord 32 0x1050002 = some (.sendFrame 0x05 0x0002) := by
  decide

/-- A table word placed after reset is the very next operation: an eight-byte frame in AsciiRepl mode is pushed and stays for
the REPL (R313). -/
theorem test_fetch_word :
    nextIs (step (State.reset.withFetchWord 8 0x01)) (fun t => t.stim == [] && t.blk.q.wr == 8 && t.blk.q.rd == 0) = true := by
  decide

/-! ### One operation each -/

/-- W2, P1 after cycle 13: DISPATCH, p_acc FF, payload 41 42 43, q_wr = q_rd = 11. -/
theorem test_transCmd_dispatches :
    nextIs (exec (.transCmd [0x41, 0x42, 0x43]) (bin Parser.reset []))
      (fun t => t.blk.p.sub == .dispatch
        && t.blk.p.acc == 0xFF
        && t.blk.p.buf.firstBytes 3 == [0x41, 0x42, 0x43]
        && t.blk.q.wr == 11
        && t.blk.q.rd == 11) = true := by
  decide

/-- P1: pstate_o reads 0, 0, 1, 2, 2, 3, 3, 3, 4, 4, 5 in the cycles 3 to 13, and 0 in cycle 2. -/
theorem test_transCmd_pstate :
    nextIs (exec (.transCmd [0x41, 0x42, 0x43]) (bin Parser.reset []))
      (fun t => t.outs.map (fun o => o.pstate_o.code) == [0, 0, 0, 1, 2, 2, 3, 3, 3, 4, 4, 5]) = true := by
  decide

/-- PV-9: rx_ack in the last of the frame's cycles, no event, HEAD0. -/
theorem test_ack_pulses_rxAck :
    nextIs (exec (.ack [0x41, 0x43, 0x4B, 0x00]) (bin Parser.reset []))
      (fun t => t.outs.map (fun o => o.rx_ack) == List.replicate 12 false ++ [true]
        && events t == List.replicate 13 .none
        && t.blk.p == Parser.reset) = true := by
  decide

/-- PV-13. -/
theorem test_fileParam_dispatches :
    nextIs (exec (.fileParam [0x10]) (bin Parser.reset []))
      (fun t => t.blk.p.sub == .dispatch
        && t.blk.p.cmd == 0x03
        && t.blk.p.len == 1
        && t.blk.p.buf.read 0 == 0x10) = true := by
  decide

/-- P2: payload FE 5A is data, DISPATCH with p_acc 93. -/
theorem test_filePacket_payload_is_data :
    nextIs (exec (.filePacket [0xFE, 0x5A]) (bin Parser.reset []))
      (fun t => t.blk.p.sub == .dispatch && t.blk.p.acc == 0x93 && t.blk.p.buf.firstBytes 2 == [0xFE, 0x5A]) = true := by
  decide

/-- PV-15. -/
theorem test_customize_dispatches :
    nextIs (exec (.customize [0x10]) (bin Parser.reset []))
      (fun t => t.blk.p.sub == .dispatch && t.blk.p.cmd == 0x05 && t.blk.p.buf.read 0 == 0x10) = true := by
  decide

/-- M-4: mode 0, HEAD0, the byte 00 left in the queue, no event. -/
theorem test_setModeAsciiRepl_abandons_the_frame :
    nextIs (exec .setModeAsciiRepl (bin (parserAt .lenHi) [0x00]))
      (fun t => t.blk.mode == .asciiRepl
        && t.blk.p == Parser.reset
        && qContents t.params t.blk.q == [0x00]
        && events t == [.none]) = true := by
  decide

/-- M-9: mode 1, HEAD0, the byte FE left in the queue. -/
theorem test_setModeBinaryFrame_stops_the_step :
    nextIs (exec .setModeBinaryFrame (stepping (repl [0xFE])))
      (fun t => t.blk.mode == .binaryFrame && t.blk.p == Parser.reset && qContents t.params t.blk.q == [0xFE]) = true := by
  decide

/-- R131: writing the current mode does not reset a frame in progress. -/
theorem test_setModeBinaryFrame_same_mode :
    nextIs (exec .setModeBinaryFrame (bin (parserAt .cmd) []))
      (fun t => t.blk.p == parserAt .cmd) = true := by
  decide

/-- X-3, Q-10: a byte driven in the rst cycle is not stored. -/
theorem test_rst_drops_the_byte :
    nextIs (exec .rst { bin (parserAt .cmd) [0x07] with pins := { quietPins with in_valid := true, in_byte := 0x41 } })
      (fun t => t.blk == Block.reset) = true := by
  decide

/-- R101's example: q_buf[511] = 41, q_wr = 0, count 509. -/
theorem test_push_wraps :
    nextIs (exec (.push 0x41) (mk vecParams { buf := [], wr := 511, rd := 3, ovr := false } .asciiRepl Parser.reset Encoder.reset quietPins))
      (fun t => t.blk.q.buf.read 511 == 0x41 && t.blk.q.wr == 0 && qCount t.params t.blk.q == 509) = true := by
  decide

/-- R103: B C D left, q_wr = 0, q_rd = 1, q_ovr = 1. -/
theorem test_push_drops_oldest :
    nextIs (exec (.push 0xD0) (mk (queueParams .dropOldest) (queueOf [0xA0, 0xB0, 0xC0]) .asciiRepl Parser.reset Encoder.reset quietPins))
      (fun t => qContents t.params t.blk.q == [0xB0, 0xC0, 0xD0]
        && t.blk.q.wr == 0
        && t.blk.q.rd == 1
        && t.blk.q.ovr) = true := by
  decide

/-- R104's example: q_rd = 511, q_wr = 1 gives q_buf[511], q_rd = 0, one byte left. -/
theorem test_tryPopRepl_wraps :
    nextIs (exec .tryPopRepl (mk vecParams { buf := [(511, 0x41)], wr := 1, rd := 511, ovr := false } .asciiRepl Parser.reset Encoder.reset quietPins))
      (fun t => t.ret == .popped (some 0x41) && t.blk.q.rd == 0 && qCount t.params t.blk.q == 1) = true := by
  decide

/-- Q-9: no byte in BinaryFrame mode. -/
theorem test_tryPopRepl_in_binaryFrame :
    nextIs (exec .tryPopRepl (bin Parser.reset [0x07]))
      (fun t => t.ret == .popped none && t.blk.q == queueOf [0x07]) = true := by
  decide

/-- R181: one byte in a byte-reading sub-state. -/
theorem test_tryPopParser_takes_one :
    nextIs (exec (.tryPopParser true) (bin (parserAt .cmd) [0x01, 0x02]))
      (fun t => t.ret == .popped (some 0x01) && qContents t.params t.blk.q == [0x02] && t.blk.p.cmd == 0x01) = true := by
  decide

/-- R182: nothing in DISPATCH. -/
theorem test_tryPopParser_in_dispatch :
    nextIs (exec (.tryPopParser true) (bin (holding .dispatch 0x01) [0x41]))
      (fun t => t.ret == .popped none && t.blk.q == queueOf [0x41]) = true := by
  decide

/-- PV-16b: the third tick in CMD with T_CMD = 3. -/
theorem test_popBlocking_times_out :
    nextIs (exec (.popBlocking true true) (bin { parserAt .cmd with acc := 0x58, tim := 2 } []))
      (fun t => t.ret == .polled .timeout && events t == [.timeout] && t.blk.p == Parser.reset) = true := by
  decide

/-- PV-17: the byte wins over the tick. -/
theorem test_popBlocking_byte_before_tick :
    nextIs (exec (.popBlocking true true) (bin { parserAt .cmd with acc := 0x58 } [0x01]))
      (fun t => t.ret == .polled (.byte 0x01)
        && events t == [.none]
        && t.blk.p.sub == .lenHi
        && t.blk.p.tim == 0) = true := by
  decide

/-- Q-1: q_empty_o = 0 with bytes in the queue. -/
theorem test_isEmpty_reads :
    nextIs (exec .isEmpty (repl [0xA1]))
      (fun t => t.ret == .flag false && t.blk == (repl [0xA1]).blk) = true := by
  decide

/-- R130. -/
theorem test_currentMode_reads :
    nextIs (exec .currentMode (bin Parser.reset []))
      (fun t => t.ret == .mode .binaryFrame && t.blk == (bin Parser.reset []).blk) = true := by
  decide

/-- R27: LENLO is AwaitLen, code 2. -/
theorem test_currentState_reads :
    nextIs (exec .currentState (bin (parserAt .lenLo) []))
      (fun t => t.ret == .parserState .awaitLen && t.outs.map (fun o => o.pstate_o.code) == [2]) = true := by
  decide

/-- M-7: mode 1, HEAD0, no event. -/
theorem test_reset_abandons :
    nextIs (exec .reset (bin (parserAt .cmd) []))
      (fun t => t.blk.mode == .binaryFrame && t.blk.p == Parser.reset && events t == [.none]) = true := by
  decide

/-- M-6: evt 6, HEAD0, mode 1. -/
theorem test_replError_reports :
    nextIs (exec .replError (bin (parserAt .cmd) []))
      (fun t => (events t).map Event.code == [6] && t.blk.p == Parser.reset && t.blk.mode == .binaryFrame) = true := by
  decide

/-- PV-3: 00 in HEAD1 is consumed, evt 2. -/
theorem test_processStep_bad_head :
    nextIs (exec .processStep (bin { parserAt .head1 with acc := 0xFE } [0x00]))
      (fun t => (events t).map Event.code == [2] && t.blk.p == Parser.reset && qEmpty t.blk.q) = true := by
  decide

/-- PV-10: L = 504 is AllocationFailure. -/
theorem test_processStep_oversize :
    nextIs (exec .processStep (bin { parserAt .lenLo with len := 0x0100 } [0xF8]))
      (fun t => (events t).map Event.code == [5] && t.blk.p == Parser.reset) = true := by
  decide

/-- CS-1: FF. -/
theorem test_checksum_of_the_scenario :
    nextIs (exec (.checksum (some ⟨0x01, [0x41, 0x42, 0x43]⟩)) (repl []))
      (fun t => t.ret == .sum 0xFF) = true := by
  decide

/-- R162: NULL_SUM. -/
theorem test_checksum_absent :
    nextIs (exec (.checksum none) (repl []))
      (fun t => t.ret == .sum 0xFF) = true := by
  decide

/-- PV-14: FILE_PACKET with disp_ack = 0 is released. -/
theorem test_dispatchDone_no_ack :
    nextIs (exec (.dispatchDone false) (stepping (bin (holding .dispatch 0x04) [])))
      (fun t => t.blk.p == Parser.reset
        && t.blk.e == Encoder.reset
        && t.outs.map (fun o => o.disp_rdata) == [0x10]) = true := by
  decide

/-- PV-15: CUSTOMIZE with disp_ack = 1 goes to ACKREQ. -/
theorem test_dispatchDone_ack :
    nextIs (exec (.dispatchDone true) (stepping (bin (holding .dispatch 0x05) [])))
      (fun t => t.blk.p.sub == .ackReq) = true := by
  decide

/-- E-1, cycle 1. -/
theorem test_sendFrame_accepted :
    nextIs (exec (.sendFrame 0x05 0x0002) (sending Encoder.reset))
      (fun t => t.ret == .flag true && t.blk.e == loadExt 0x05 0x0002) = true := by
  decide

/-- E-4, cycle 2: not accepted, and FE is held with out_ready = 0. -/
theorem test_sendFrame_busy :
    nextIs (exec (.sendFrame 0x03 0x0000) (sending (loadExt 0x01 0x0000)))
      (fun t => t.ret == .flag false && t.blk.e == loadExt 0x01 0x0000) = true := by
  decide

/-- E-5, cycle 15: the ACK is taken and tx_accept = 0. -/
theorem test_sendAck_before_external :
    nextIs (exec .sendAck { bin (holding .ackReq 0x01) [] with pins := { quietPins with tx_req := true, tx_cmd := 0x03 } })
      (fun t => t.ret == .flag true
        && t.blk.e == loadAck
        && t.blk.p == Parser.reset
        && t.outs.map (fun o => o.tx_accept) == [false]) = true := by
  decide

/-- E-6: ACKREQ waits for a busy encoder and pops nothing. -/
theorem test_sendAck_waits :
    nextIs (exec .sendAck (mk vecParams (queueOf [0x41]) .binaryFrame (holding .ackReq 0x01) (loadExt 0x03 0x0000) quietPins))
      (fun t => t.ret == .flag false && t.blk.p == holding .ackReq 0x01 && t.blk.q == queueOf [0x41]) = true := by
  decide

/-- E-1, cycle 11: 6F leaves and the encoder is idle. -/
theorem test_byteOut_sum :
    nextIs (exec (.byteOut true) (sending { sub := .sum, src := .ext, cmd := 0x05, len := 2, idx := 2, acc := 0x6F }))
      (fun t => t.ret == .popped (some 0x6F) && t.blk.e.sub == .idle) = true := by
  decide

/-- E-3, cycle 8: tx_dvalid = 0, out_valid = 0, tx_dready = 1, nothing transfers. -/
theorem test_byteOut_data_gap :
    nextIs (exec (.byteOut true) (sending { sub := .payload, src := .ext, cmd := 0x03, len := 1, idx := 0, acc := 0x5C }))
      (fun t => t.ret == .popped none
        && t.outs.map (fun o => (o.out_valid, o.tx_dready)) == [(false, true)]
        && t.blk.e.sub == .payload) = true := by
  decide

/-- PV-7: a frame with cmd 09 is an UnknownCommand in its last cycle. -/
theorem test_unknown_command_frame :
    nextIs (step { bin Parser.reset [] with
        stim := [{ word := .link [0xFE, 0x5A, 0x09, 0x00, 0x01, 0x41, 0xFA, 0xE3, 0x80], pins := quietPins }] })
      (fun t => (events t).map Event.code == [0, 0, 0, 0, 0, 0, 0, 0, 0, 4] && t.blk.p == Parser.reset) = true := by
  decide

/-- M-2: an invalid mode value is a no-op. -/
theorem test_invalid_mode :
    nextIs (step { repl [] with stim := [{ word := .modeVal 0x02, pins := quietPins }] })
      (fun t => t.blk == (repl []).blk && events t == [.none]) = true := by
  decide

/-- An index out of range stops the cycle, and rst still gets through (log 7). -/
theorem test_index_out_of_range :
    faults (exec .processStep (mk vecParams { buf := [], wr := 512, rd := 0, ovr := false } .binaryFrame Parser.reset
        Encoder.reset quietPins)) = true
      ∧ nextIs (exec .rst (mk vecParams { buf := [], wr := 512, rd := 0, ovr := false } .binaryFrame Parser.reset
          Encoder.reset quietPins)) (fun t => t.blk == Block.reset) = true := by
  decide

/-! ### Every statement's hypotheses are met

One theorem for each statement with hypotheses: a concrete state and operands that meet them together, each clause at a
boundary value of its range. -/

theorem ready_of (s : State) (h : (indexed s.params s.blk && s.blk.q.buf.wf && s.blk.p.buf.wf) = true) : Ready s := by
  simp only [Bool.and_eq_true] at h
  exact ⟨h.1.1, h.1.2, h.2⟩

theorem enabled_of (s : State)
    (h : (!s.pins.rst && decide (s.blk.mode = .binaryFrame) && !controlAction s.blk s.pins) = true) : ParserEnabled s := by
  simp only [Bool.and_eq_true, Bool.not_eq_true', decide_eq_true_eq] at h
  exact ⟨h.1.1, h.1.2, h.2⟩

theorem quiet_quietPins : Quiet quietPins := ⟨rfl, rfl, rfl, rfl, rfl, rfl, rfl, rfl, rfl⟩

theorem queueOk_of (P : Params) (q : Queue)
    (h : (decide (q.wr < P.cap) && decide (q.rd < P.cap) && q.buf.wf && q.buf.below P.cap) = true) : QueueOk P q := by
  simp only [Bool.and_eq_true, decide_eq_true_eq] at h
  exact ⟨h.1.1.1, h.1.1.2, h.1.2, h.2⟩

/-- A parser listening on an empty queue. -/
def listening : State := bin Parser.reset []

theorem listening_inv : listening.Inv := ⟨queueOk_of _ _ (by decide), rfl, trivial, fun _ => rfl⟩

theorem listening_listening : Listening listening :=
  ⟨listening_inv, enabled_of _ (by decide), rfl, rfl, rfl⟩

/-- The held lines with a mode write. -/
def modeWrite (v : Byte) : Inputs := { quietPins with mode_wr := true, mode_val := v }

/-- The held lines with out_ready and tx_dvalid. -/
def flowing : Inputs := { quietPins with out_ready := true, tx_dvalid := true }

theorem test_witness_DecodeOfEncodeIsTheInstruction :
    Instr.wf (.sendFrame 0xFF 0xFFFF) = true ∧ Instr.wf (.customize [0x00, 0xFF]) = true := by
  decide

theorem test_witness_EncodeOfDecodeIsTheWord :
    decode vecParams (.txPort 0b1000001010000000000000010#25) = .ok (.sendFrame 0x05 0x0002) := by
  decide

theorem test_witness_StepExecutesTheDecodedOperation :
    ({ listening with stim := [{ word := .inPort 0b101000001#9, pins := flowing }] } : State).stim
        = { word := .inPort 0b101000001#9, pins := flowing } :: []
      ∧ decode listening.params (.inPort 0b101000001#9) = .ok (.push 0x41) := by
  decide

theorem test_witness_StepWithoutStimulusIsOneHeldCycle : Ready State.reset ∧ State.reset.stim = [] :=
  ⟨ready_of _ (by decide), rfl⟩

theorem test_witness_DecodedOperationDrivesItsBits : decode listening.params (.dispPort 0b10#2) = .ok (.dispatchDone false) := by
  decide

theorem test_witness_SetModeSwitchesAndResetsTheParser :
    (Ready (bin (parserAt .cmd) []) ∧ (bin (parserAt .cmd) []).pins.rst = false
        ∧ (bin (parserAt .cmd) []).blk.mode = .binaryFrame)
      ∧ (Ready (repl [0x41]) ∧ (repl [0x41]).pins.rst = false ∧ (repl [0x41]).blk.mode = .asciiRepl)
      ∧ ((0x02 : Byte) ≠ 0x00 ∧ (0x02 : Byte) ≠ 0x01) ∧ (0xFF : Byte) ≠ 0x00 ∧ (0xFF : Byte) ≠ 0x01 :=
  ⟨⟨ready_of _ (by decide), rfl, rfl⟩, ⟨ready_of _ (by decide), rfl, rfl⟩, by decide⟩

theorem test_witness_SetModeLeavesQueueAndEncoder :
    Ready (bin (parserAt .cmd) []) ∧ Quiet (bin (parserAt .cmd) []).pins :=
  ⟨ready_of _ (by decide), quiet_quietPins⟩

theorem test_witness_OnlyRstAndModeWritesChangeTheMode :
    (driveRst true quietPins).rst = true
      ∧ ((modeWrite 0x00).rst = false ∧ (modeWrite 0x00).mode_wr = true ∧ (modeWrite 0x00).mode_val = 0x00
        ∧ listening.blk.mode = .binaryFrame)
      ∧ ((modeWrite 0x01).mode_wr = true ∧ (modeWrite 0x01).mode_val = 0x01 ∧ (repl []).blk.mode = .asciiRepl)
      ∧ (quietPins.rst = false ∧ quietPins.mode_wr = false)
      ∧ ((modeWrite 0x02).mode_val ≠ 0x00 ∧ (modeWrite 0x02).mode_val ≠ 0x01)
      ∧ ((modeWrite 0x00).mode_val = 0x00 ∧ (repl []).blk.mode = .asciiRepl) := by
  decide

theorem test_witness_SoftResetClearsTheParserOnly :
    Ready (bin (holding .dispatch 0x01) []) ∧ (bin (holding .dispatch 0x01) []).pins.rst = false
      ∧ Quiet (bin (holding .dispatch 0x01) []).pins :=
  ⟨ready_of _ (by decide), rfl, quiet_quietPins⟩

theorem test_witness_ReplErrorResetsAndReportsLineOverflow :
    Ready (repl [0x41]) ∧ (repl [0x41]).pins.rst = false ∧ Quiet (repl [0x41]).pins :=
  ⟨ready_of _ (by decide), rfl, quiet_quietPins⟩

/-- M-11's cycle drives all three control actions. -/
theorem test_witness_ControlActionsTakeTheirPriority :
    (driveRst true quietPins).rst = true
      ∧ ((driveReplErr true (driveSoftReset true (modeWrite 0x00))).rst = false
        ∧ (driveReplErr true (driveSoftReset true (modeWrite 0x00))).mode_wr = true
        ∧ (driveReplErr true (driveSoftReset true (modeWrite 0x00))).mode_val = 0x00
        ∧ listening.blk.mode ≠ .asciiRepl
        ∧ (driveReplErr true (driveSoftReset true (modeWrite 0x00))).soft_reset = true
        ∧ (driveReplErr true (driveSoftReset true (modeWrite 0x00))).repl_err = true)
      ∧ ((modeWrite 0x01).mode_val = 0x01 ∧ (repl []).blk.mode ≠ .binaryFrame) := by
  decide

theorem test_witness_StatusReadsAnswerFromThePreState : Ready (repl [0x41]) ∧ Quiet (repl [0x41]).pins :=
  ⟨ready_of _ (by decide), quiet_quietPins⟩

theorem test_witness_ParserHoldsWithoutItsEnable :
    (quietPins.rst = false ∧ controlAction listening.blk quietPins = false ∧ quietPins.step_en = false
        ∧ listening.blk.mode = .binaryFrame ∧ quietPins.in_valid = false)
      ∧ controlAction (repl [0x41]).blk quietPins = false ∧ (repl [0x41]).blk.mode = .asciiRepl := by
  decide

/-- A queue with one slot left, and full queues under both policies. -/
theorem test_witness_PushStoresItsByteAndAppliesThePolicy :
    (Ready (mk (queueParams .dropOldest) (queueOf [0xA1, 0xA2]) .asciiRepl Parser.reset Encoder.reset quietPins)
        ∧ quietPins.rst = false ∧ (2 + 1) % (queueParams .dropOldest).cap ≠ 0)
      ∧ (Ready (mk (queueParams .dropOldest) (queueOf [0xA1, 0xA2, 0xA3]) .asciiRepl Parser.reset Encoder.reset quietPins)
        ∧ (3 + 1) % (queueParams .dropOldest).cap = 0 ∧ (queueParams .dropOldest).policy = .dropOldest)
      ∧ (Ready (mk (queueParams .wrapToEmpty) (queueOf [0xA1, 0xA2, 0xA3]) .asciiRepl Parser.reset Encoder.reset quietPins)
        ∧ (3 + 1) % (queueParams .wrapToEmpty).cap = 0 ∧ (queueParams .wrapToEmpty).policy = .wrapToEmpty)
      ∧ Quiet quietPins :=
  ⟨⟨ready_of _ (by decide), by decide, by decide⟩, ⟨ready_of _ (by decide), by decide, by decide⟩,
    ⟨ready_of _ (by decide), by decide, by decide⟩, quiet_quietPins⟩

theorem test_witness_ReplPopTakesTheOfferedByte :
    (Ready (repl [0x41]) ∧ (repl [0x41]).pins.rst = false ∧ (repl [0x41]).blk.mode = .asciiRepl
        ∧ (repl [0x41]).blk.q.wr ≠ (repl [0x41]).blk.q.rd ∧ (repl [0x41]).pins.in_valid = false
        ∧ Quiet (repl [0x41]).pins)
      ∧ (Ready (bin Parser.reset [0x41]) ∧ (bin Parser.reset [0x41]).blk.mode = .binaryFrame)
      ∧ Ready (repl []) ∧ (repl []).blk.q.wr = (repl []).blk.q.rd :=
  ⟨⟨ready_of _ (by decide), rfl, rfl, by decide, rfl, quiet_quietPins⟩, ⟨ready_of _ (by decide), rfl⟩,
    ready_of _ (by decide), rfl⟩

/-- A full queue, popped and not popped. -/
theorem test_witness_QueueIsAFifo :
    QueueOk (queueParams .dropOldest) (queueOf [0xA1, 0xA2, 0xA3])
      ∧ (driveIn true 0xA4 quietPins).rst = false ∧ (driveIn true 0xA4 quietPins).in_valid = true
      ∧ (qContents (queueParams .dropOldest) (queueOf [0xA1, 0xA2, 0xA3])).length = (queueParams .dropOldest).cap - 1
      ∧ replTakes (repl [0xA1, 0xA2, 0xA3]).blk (driveReplPop true quietPins) = true :=
  ⟨queueOk_of _ _ (by decide), by decide, by decide, by decide, by decide⟩

/-- A full queue, and an empty one with C - 1 bytes, C bytes and the longest frame that fits to push (503 = C - 9). -/
theorem test_witness_QueueHoldsOneLessThanItsCapacity :
    QueueOk (queueParams .dropOldest) (queueOf [0xA1, 0xA2, 0xA3])
      ∧ (QueueOk (queueParams .wrapToEmpty) Queue.reset ∧ Quiet quietPins ∧ Queue.reset.wr = Queue.reset.rd)
      ∧ [(0xA1 : Byte), 0xA2, 0xA3].length = (queueParams .wrapToEmpty).cap - 1
      ∧ [(0xA1 : Byte), 0xA2, 0xA3, 0xA4].length = (queueParams .wrapToEmpty).cap
      ∧ QueueOk vecParams Queue.reset ∧ (List.replicate 503 (0x00 : Byte)).length + 9 ≤ vecParams.cap := by
  refine ⟨queueOk_of _ _ (by decide), ⟨queueOk_of _ _ (by decide), quiet_quietPins, rfl⟩, by decide, by decide,
    queueOk_of _ _ (by decide), ?_⟩
  rw [List.length_replicate]
  decide

/-- Q-6's cycle and Q-5's. -/
theorem test_witness_PushIsPoppableFromTheNextCycle :
    (QueueOk (queueParams .dropOldest) Queue.reset ∧ (driveIn true 0x09 (driveReplPop true quietPins)).rst = false
        ∧ (driveIn true 0x09 (driveReplPop true quietPins)).in_valid = true ∧ Queue.reset.wr = Queue.reset.rd)
      ∧ QueueOk (queueParams .dropOldest) (queueOf [0x01, 0x02, 0x03])
      ∧ ((queueOf [0x01, 0x02, 0x03]).wr + 1) % (queueParams .dropOldest).cap = (queueOf [0x01, 0x02, 0x03]).rd
      ∧ replTakes (repl [0x01, 0x02, 0x03]).blk (driveIn true 0x04 (driveReplPop true quietPins)) = true :=
  ⟨⟨queueOk_of _ _ (by decide), rfl, rfl, rfl⟩, queueOk_of _ _ (by decide), by decide, by decide⟩

theorem test_witness_ParserTryPopTakesAtMostOneByte :
    (Ready (bin (parserAt .sum) [0x41]) ∧ ParserEnabled (bin (parserAt .sum) [0x41])
        ∧ (bin (parserAt .sum) [0x41]).pins.in_valid = false ∧ ParserSub.sum ≠ .dispatch ∧ ParserSub.sum ≠ .ackReq
        ∧ (bin (parserAt .sum) [0x41]).blk.q.wr ≠ (bin (parserAt .sum) [0x41]).blk.q.rd)
      ∧ (Ready (bin (holding .dispatch 0x01) [0x41]) ∧ ParserEnabled (bin (holding .dispatch 0x01) [0x41]))
      ∧ (Ready (bin (holding .ackReq 0x01) [0x41]) ∧ ParserEnabled (bin (holding .ackReq 0x01) [0x41]))
      ∧ Ready listening ∧ ParserEnabled listening ∧ listening.blk.q.wr = listening.blk.q.rd :=
  ⟨⟨ready_of _ (by decide), enabled_of _ (by decide), rfl, by decide, by decide, by decide⟩,
    ⟨ready_of _ (by decide), enabled_of _ (by decide)⟩, ⟨ready_of _ (by decide), enabled_of _ (by decide)⟩,
    ready_of _ (by decide), enabled_of _ (by decide), rfl⟩

/-- In CMD with T_CMD = 3: a byte, no tick, the second tick (2 < T) and the third (T ≤ 3); HEAD0 on an empty queue. -/
theorem test_witness_PollTakesAByteOrCountsTowardsTimeout :
    (Ready (bin (parserAt .cmd) [0x41]) ∧ ParserEnabled (bin (parserAt .cmd) [0x41]) ∧ ParserSub.cmd ≠ .dispatch
        ∧ ParserSub.cmd ≠ .ackReq ∧ (bin (parserAt .cmd) [0x41]).blk.q.wr ≠ (bin (parserAt .cmd) [0x41]).blk.q.rd)
      ∧ (Ready (bin { parserAt .cmd with tim := 1 } []) ∧ ParserEnabled (bin { parserAt .cmd with tim := 1 } [])
        ∧ ParserSub.cmd ≠ .head0 ∧ 1 + 1 < vecParams.tCmd)
      ∧ (Ready (bin { parserAt .cmd with tim := 2 } []) ∧ ParserEnabled (bin { parserAt .cmd with tim := 2 } [])
        ∧ vecParams.tCmd ≤ 2 + 1)
      ∧ Ready listening ∧ ParserEnabled listening ∧ listening.blk.p.sub = .head0
      ∧ listening.blk.q.wr = listening.blk.q.rd :=
  ⟨⟨ready_of _ (by decide), enabled_of _ (by decide), by decide, by decide, by decide⟩,
    ⟨ready_of _ (by decide), enabled_of _ (by decide), by decide, by decide⟩,
    ⟨ready_of _ (by decide), enabled_of _ (by decide), by decide⟩, ready_of _ (by decide), enabled_of _ (by decide), rfl, rfl⟩

/-- The state bin p [x] meets what the statements about one byte ask for, whatever p and x are, when its indices do. -/
theorem byteReady (p : Parser) (x : Byte)
    (h : (indexed vecParams (bin p [x]).blk && (bin p [x]).blk.q.buf.wf && p.buf.wf) = true) :
    Ready (bin p [x]) ∧ ParserEnabled (bin p [x]) ∧ (bin p [x]).blk.q.wr ≠ (bin p [x]).blk.q.rd :=
  ⟨ready_of _ h, ⟨rfl, rfl, rfl⟩, by show 1 ≠ 0; decide⟩

theorem test_witness_HeadBytesAreMatchedInOrder :
    (Ready (bin Parser.reset [0xFE]) ∧ ParserEnabled (bin Parser.reset [0xFE])
        ∧ (bin Parser.reset [0xFE]).blk.q.wr ≠ (bin Parser.reset [0xFE]).blk.q.rd)
      ∧ (Ready (bin (parserAt .head1) [0x5A]) ∧ ParserEnabled (bin (parserAt .head1) [0x5A])
        ∧ (bin (parserAt .head1) [0x5A]).blk.q.wr ≠ (bin (parserAt .head1) [0x5A]).blk.q.rd)
      ∧ ((bin Parser.reset [0xFE]).blk.p.sub = .head0 ∧ (bin Parser.reset [0xFE]).blk.q.buf.read 0 = 0xFE)
      ∧ ((bin (parserAt .head1) [0x5A]).blk.p.sub = .head1 ∧ (bin (parserAt .head1) [0x5A]).blk.q.buf.read 0 = 0x5A)
      ∧ (bin Parser.reset [0x5A]).blk.q.buf.read 0 ≠ 0xFE ∧ (bin (parserAt .head1) [0xFE]).blk.q.buf.read 0 ≠ 0x5A :=
  ⟨byteReady _ _ (by decide), byteReady _ _ (by decide), by decide, by decide, by decide, by decide⟩

/-- L = 504, L = 503 = PAYLOAD_MAX, L = 0 and L = 1, each as {high byte held, byte read}. -/
theorem test_witness_CmdAndLenBytesAreTaken :
    (Ready (bin (parserAt .cmd) [0x00]) ∧ ParserEnabled (bin (parserAt .cmd) [0x00])
        ∧ (bin (parserAt .cmd) [0x00]).blk.q.wr ≠ (bin (parserAt .cmd) [0x00]).blk.q.rd)
      ∧ (Ready (bin { parserAt .lenLo with len := 0x0100 } [0xF8]) ∧ ParserEnabled (bin { parserAt .lenLo with len := 0x0100 } [0xF8])
        ∧ (bin { parserAt .lenLo with len := 0x0100 } [0xF8]).blk.q.wr ≠ (bin { parserAt .lenLo with len := 0x0100 } [0xF8]).blk.q.rd)
      ∧ vecParams.payloadMax < (BitVec.ofNat 16 (0x0100 / 256 * 256 + 0xF8) : Half).toNat
      ∧ (BitVec.ofNat 16 (0x0100 / 256 * 256 + 0xF7) : Half).toNat = vecParams.payloadMax
      ∧ (BitVec.ofNat 16 (0x0000 / 256 * 256 + 0x00) : Half).toNat = 0
      ∧ (BitVec.ofNat 16 (0x0000 / 256 * 256 + 0x01) : Half).toNat = 1 :=
  ⟨byteReady _ _ (by decide), byteReady _ _ (by decide), by decide, by decide, by decide, by decide⟩

theorem test_witness_PayloadByteIsStoredAtItsIndex :
    Ready (bin { parserAt .payload with len := 1 } [0xFE]) ∧ ParserEnabled (bin { parserAt .payload with len := 1 } [0xFE])
      ∧ (bin { parserAt .payload with len := 1 } [0xFE]).blk.q.wr ≠ (bin { parserAt .payload with len := 1 } [0xFE]).blk.q.rd :=
  byteReady _ _ (by decide)

theorem test_witness_TailBytesAreComparedTogether :
    (Ready (bin (parserAt .tail0) [0xFB]) ∧ ParserEnabled (bin (parserAt .tail0) [0xFB])
        ∧ (bin (parserAt .tail0) [0xFB]).blk.q.wr ≠ (bin (parserAt .tail0) [0xFB]).blk.q.rd)
      ∧ (Ready (bin { parserAt .tail1 with t0 := 0xFA } [0xE3]) ∧ ParserEnabled (bin { parserAt .tail1 with t0 := 0xFA } [0xE3])
        ∧ (bin { parserAt .tail1 with t0 := 0xFA } [0xE3]).blk.q.wr ≠ (bin { parserAt .tail1 with t0 := 0xFA } [0xE3]).blk.q.rd)
      ∧ ((0xFA, 0xE3) : Byte × Byte) = (0xFA, 0xE3) ∧ ((0xFA, 0x00) : Byte × Byte) ≠ (0xFA, 0xE3)
      ∧ (bin (parserAt .tail0) [0xFB]).pins.in_valid = false :=
  ⟨byteReady _ _ (by decide), byteReady _ _ (by decide), by decide, by decide, rfl⟩

theorem test_witness_SumByteIsCheckedBeforeTheCommand :
    (Ready (bin { parserAt .sum with acc := 0x35 } [0x35]) ∧ ParserEnabled (bin { parserAt .sum with acc := 0x35 } [0x35])
        ∧ (bin { parserAt .sum with acc := 0x35 } [0x35]).blk.q.wr ≠ (bin { parserAt .sum with acc := 0x35 } [0x35]).blk.q.rd)
      ∧ (bin { parserAt .sum with acc := 0x35 } [0x35]).blk.q.buf.read 0 = 0x35
      ∧ (bin { parserAt .sum with acc := 0x35 } [0x36]).blk.q.buf.read 0 ≠ 0x35
      ∧ (0x00 : Byte) ≠ 0x01 ∧ (0x00 : Byte) ≠ 0x02 ∧ (0x06 : Byte) ≠ 0x05 :=
  ⟨byteReady _ _ (by decide), by decide, by decide, by decide, by decide, by decide⟩

theorem test_witness_ParserStepLeavesTheOtherUnits :
    (Ready (bin (parserAt .cmd) [0x41]) ∧ ParserEnabled (bin (parserAt .cmd) [0x41])
        ∧ (bin (parserAt .cmd) [0x41]).blk.q.wr ≠ (bin (parserAt .cmd) [0x41]).blk.q.rd)
      ∧ (bin (parserAt .cmd) [0x41]).pins.in_valid = false
      ∧ (Ready (bin (holding .dispatch 0x01) [0x41]) ∧ ParserEnabled (bin (holding .dispatch 0x01) [0x41])
        ∧ (bin (holding .dispatch 0x01) [0x41]).blk.q.wr ≠ (bin (holding .dispatch 0x01) [0x41]).blk.q.rd) :=
  ⟨byteReady _ _ (by decide), rfl, byteReady _ _ (by decide)⟩

/-- The parser is not enabled with step_en at 0, in AsciiRepl mode, and in the cycle of a control action. -/
theorem test_witness_SinkAnswerDecidesTheAck :
    (Ready (stepping (bin (holding .dispatch 0x04) [])) ∧ ParserEnabled (stepping (bin (holding .dispatch 0x04) []))
        ∧ (stepping (bin (holding .dispatch 0x04) [])).pins.step_en = true
        ∧ (stepping (bin (holding .dispatch 0x04) [])).blk.p.sub = .dispatch
        ∧ (0 : Half).toNat < (holding .dispatch 0x04).len.toNat
        ∧ (stepping (bin (holding .dispatch 0x04) [])).pins.disp_done = false)
      ∧ (Ready listening ∧ listening.blk.p.sub ≠ .dispatch)
      ∧ (Ready (bin (holding .dispatch 0x04) [])
        ∧ pstep (bin (holding .dispatch 0x04) []).blk (bin (holding .dispatch 0x04) []).pins = false)
      ∧ pstep { (bin (holding .dispatch 0x04) []).blk with mode := .asciiRepl } (driveStep true quietPins) = false
      ∧ pstep (bin (holding .dispatch 0x04) []).blk (driveSoftReset true (driveStep true quietPins)) = false :=
  ⟨⟨ready_of _ (by decide), enabled_of _ (by decide), rfl, rfl, by decide, rfl⟩, ⟨ready_of _ (by decide), by decide⟩,
    ⟨ready_of _ (by decide), by decide⟩, by decide, by decide⟩

theorem test_witness_AckIsHandedToAnIdleEncoder :
    (Ready (bin (holding .ackReq 0x01) []) ∧ ParserEnabled (bin (holding .ackReq 0x01) [])
        ∧ (bin (holding .ackReq 0x01) []).blk.p.sub = .ackReq ∧ (bin (holding .ackReq 0x01) []).blk.e.sub = .idle)
      ∧ Ready (mk vecParams Queue.reset .binaryFrame (holding .ackReq 0x01) (loadExt 0x03 0x0000) quietPins)
      ∧ ParserEnabled (mk vecParams Queue.reset .binaryFrame (holding .ackReq 0x01) (loadExt 0x03 0x0000) quietPins)
      ∧ (loadExt 0x03 0x0000).sub ≠ .idle :=
  ⟨⟨ready_of _ (by decide), enabled_of _ (by decide), rfl, rfl⟩, ready_of _ (by decide), enabled_of _ (by decide), by decide⟩

/-- PV-3's cycle. -/
theorem test_witness_ErrorIsTakenByResettingTheParser :
    (cycle vecParams (bin (parserAt .head1) [0x00]).blk (driveStep true quietPins)).2.evt ≠ .none
      ∧ (cycle vecParams (bin (parserAt .head1) [0x00]).blk (driveStep true quietPins)).2.evt ≠ .lineOverflow
      ∧ (driveStep true quietPins).in_valid = false := by
  decide

/-- A cycle for each kind: M-5's for LineOverflow, then one step of each sub-state and byte that R281 names as a cause, the third
tick of T_CMD = 3 (R184), and the sum of a received ACK. -/
theorem test_witness_EventsAriseOnlyFromTheirCause :
    ((driveReplErr true quietPins).rst = false ∧ (driveReplErr true quietPins).repl_err = true)
      ∧ (cycle vecParams (bin { parserAt .cmd with tim := 2 } []).blk (driveStepTick true true quietPins)).2.evt = .timeout
      ∧ (cycle vecParams (bin (parserAt .head1) [0x00]).blk (driveStep true quietPins)).2.evt = .magicMismatch
      ∧ (cycle vecParams (bin { parserAt .tail1 with t0 := 0xFB } [0xE3]).blk (driveStep true quietPins)).2.evt = .magicMismatch
      ∧ (cycle vecParams (bin { parserAt .sum with acc := 0x0A } [0x0B]).blk (driveStep true quietPins)).2.evt
          = .checksumMismatch
      ∧ (cycle vecParams (bin { parserAt .sum with cmd := 0x09, acc := 0x0A } [0x0A]).blk (driveStep true quietPins)).2.evt
          = .unknownCommand
      ∧ (cycle vecParams (bin { parserAt .lenLo with len := 0x0100 } [0xF8]).blk (driveStep true quietPins)).2.evt
          = .allocationFailure
      ∧ (cycle vecParams (bin { parserAt .sum with cmd := 0x02, acc := 0x0A } [0x0A]).blk (driveStep true quietPins)).2.rx_ack
          = true
      ∧ (driveRst true quietPins).rst = true := by
  decide

/-- The empty payload and the longest, PAYLOAD_MAX = 503 bytes. -/
theorem test_witness_ValidFrameIsDispatchedWithItsPayload :
    Listening listening ∧ ([] : List Byte).length ≤ listening.params.payloadMax
      ∧ (List.replicate 503 (0x00 : Byte)).length ≤ listening.params.payloadMax := by
  refine ⟨listening_listening, by decide, ?_⟩
  rw [List.length_replicate]
  decide

theorem test_witness_ReceivedAckFramePulsesRxAck :
    Listening listening ∧ [(0x41 : Byte), 0x43, 0x4B, 0x00].length ≤ listening.params.payloadMax :=
  ⟨listening_listening, by decide⟩

theorem test_witness_UnknownCommandFrameIsDiscarded :
    Listening listening ∧ [(0x41 : Byte)].length ≤ listening.params.payloadMax
      ∧ ((0x00 : Byte) ≠ 0x01 ∧ (0x00 : Byte) ≠ 0x02 ∧ (0x00 : Byte) ≠ 0x03 ∧ (0x00 : Byte) ≠ 0x04 ∧ (0x00 : Byte) ≠ 0x05)
      ∧ (0x06 : Byte) ≠ 0x01 ∧ (0x06 : Byte) ≠ 0x02 ∧ (0x06 : Byte) ≠ 0x03 ∧ (0x06 : Byte) ≠ 0x04 ∧ (0x06 : Byte) ≠ 0x05 :=
  ⟨listening_listening, by decide, by decide, by decide⟩

/-- PV-6: the scenario's frame with sum 00. -/
theorem test_witness_WrongSumFrameIsDiscarded :
    Listening listening ∧ [(0x41 : Byte), 0x42, 0x43].length ≤ listening.params.payloadMax
      ∧ (0x00 : Byte) ≠ frameChecksum listening.params 0x01 [0x41, 0x42, 0x43] :=
  ⟨listening_listening, by decide, by decide⟩

/-- 504 bytes and 65535; the frame of 504 zeros has no 0xFE after its len. -/
theorem test_witness_OversizeFrameFailsAllocation :
    Listening listening
      ∧ (listening.params.payloadMax < (List.replicate 504 (0x00 : Byte)).length
        ∧ (List.replicate 504 (0x00 : Byte)).length ≤ 65535)
      ∧ (listening.params.payloadMax < (List.replicate 65535 (0x00 : Byte)).length
        ∧ (List.replicate 65535 (0x00 : Byte)).length ≤ 65535)
      ∧ ∀ x ∈ (frameBytes listening.params 0x01 (List.replicate 504 0x00)).drop 5, x ≠ 0xFE := by
  refine ⟨listening_listening, ?_, ?_, by decide +kernel⟩ <;> rw [List.length_replicate] <;> decide

/-- PV-1's noise. -/
theorem test_witness_GarbageBeforeAHeadIsIgnored :
    Listening listening ∧ ∀ x ∈ [(0x00 : Byte), 0x7F, 0x5A, 0x33], x ≠ 0xFE :=
  ⟨listening_listening, by decide⟩

/-- The longest frame that fits, 503 + 8 = C - 1. -/
theorem test_witness_AsciiReplModeQueuesAFrameForTheRepl :
    (repl []).Inv ∧ (repl []).pins.rst = false ∧ (repl []).blk.mode = .asciiRepl
      ∧ controlAction (repl []).blk (repl []).pins = false ∧ (repl []).pins.repl_pop = false
      ∧ (repl []).pins.in_valid = false ∧ (repl []).blk.q.wr = (repl []).blk.q.rd
      ∧ (List.replicate 503 (0x00 : Byte)).length + 8 ≤ (repl []).params.cap - 1
      ∧ (List.replicate 503 (0x00 : Byte)).length ≤ 65535 := by
  refine ⟨⟨queueOk_of _ _ (by decide), rfl, trivial, fun _ => rfl⟩, rfl, rfl, by decide, rfl, rfl, rfl, ?_, ?_⟩ <;>
    rw [List.length_replicate] <;> decide

/-- The last index of the payload and the first beyond it. -/
theorem test_witness_DispatchPortShowsTheFrameInDispatchOnly :
    ((holding .dispatch 0x01).sub = .dispatch ∧ (0 : Half).toNat < (holding .dispatch 0x01).len.toNat
        ∧ (holding .dispatch 0x01).len.toNat ≤ (1 : Half).toNat)
      ∧ (holding .ackReq 0x01).sub ≠ .dispatch ∧ quietPins.rst = false := by
  decide

theorem test_witness_SendFrameIsAcceptedByAnIdleEncoder :
    (Ready (sending Encoder.reset) ∧ (sending Encoder.reset).pins.rst = false ∧ (sending Encoder.reset).blk.e.sub = .idle
        ∧ ¬(pstep (sending Encoder.reset).blk (sending Encoder.reset).pins = true
          ∧ (sending Encoder.reset).blk.p.sub = .ackReq))
      ∧ (Ready (sending (loadExt 0x01 0x0000)) ∧ (sending (loadExt 0x01 0x0000)).blk.e.sub ≠ .idle)
      ∧ Ready (stepping (bin (holding .ackReq 0x01) []))
      ∧ pstep (stepping (bin (holding .ackReq 0x01) [])).blk (stepping (bin (holding .ackReq 0x01) [])).pins = true
      ∧ (stepping (bin (holding .ackReq 0x01) [])).blk.p.sub = .ackReq :=
  ⟨⟨ready_of _ (by decide), rfl, rfl, by decide⟩, ⟨ready_of _ (by decide), by decide⟩, ready_of _ (by decide), by decide, rfl⟩

/-- An encoder in a sub-state of an external frame. -/
def encoderAt (sub : EncoderSub) (src : EncoderSource) : Encoder :=
  { sub := sub, src := src, cmd := 0x02, len := 4, idx := 3, acc := 0x10 }

/-- Every sub-state, with both sources and the wait for the external sender. -/
theorem test_witness_ByteOutTransfersTheOfferedByte :
    (∀ x ∈ [EncoderSub.head0, .head1, .cmd, .lenHi, .lenLo, .payload, .tail0, .tail1, .sum], ∀ y ∈ [EncoderSource.ack, .ext],
        Ready (sending (encoderAt x y)) ∧ (sending (encoderAt x y)).pins.rst = false
          ∧ (sending (encoderAt x y)).blk.e.sub ≠ .idle)
      ∧ (encoderAt .payload .ext).sub = .payload ∧ (encoderAt .payload .ext).src = .ext
      ∧ (sending (encoderAt .payload .ext)).pins.tx_dvalid = false := by
  refine ⟨fun x hx y hy => ⟨ready_of _ ?_, rfl, ?_⟩, rfl, rfl, rfl⟩ <;> revert y <;> revert x <;> decide

theorem test_witness_IdleEncoderOffersNothing : Ready listening ∧ listening.blk.e.sub = .idle :=
  ⟨ready_of _ (by decide), rfl⟩

/-- E-2: the zero-length frame of cmd 01, eight transfer cycles. -/
theorem test_witness_ExternalFrameLeavesWholeAndInOrder :
    (sending (loadExt 0x01 0x0000)).blk.e = { sub := .head0, src := .ext, cmd := 0x01, len := 0x0000, idx := 0, acc := 0 }
      ∧ (∀ i ∈ List.replicate 8 flowing, i.rst = false)
      ∧ BusyUntilEnd vecParams (sending (loadExt 0x01 0x0000)).blk (List.replicate 8 flowing) :=
  ⟨rfl, by decide, by unfold BusyUntilEnd; decide⟩

/-- R251: the ACK frame, twelve transfer cycles. -/
theorem test_witness_AckFrameLeavesWholeAndInOrder :
    (sending loadAck).blk.e = { sub := .head0, src := .ack, cmd := 0x02, len := 4, idx := 0, acc := 0 }
      ∧ (∀ i ∈ List.replicate 12 flowing, i.rst = false)
      ∧ BusyUntilEnd vecParams (sending loadAck).blk (List.replicate 12 flowing)
      ∧ vecParams.tail = .standard ∧ vecParams.sumsCmd = true ∧ ({ vecParams with sumsCmd := false } : Params).sumsCmd = false :=
  ⟨rfl, by decide, by unfold BusyUntilEnd; decide, rfl, rfl, rfl⟩

theorem test_witness_UnstalledFrameTakesItsLengthInCycles :
    (loadExt 0x01 0x0002).sub = .head0 ∧ (loadExt 0x01 0x0002).idx = 0
      ∧ (∀ i ∈ List.replicate 10 flowing, i.rst = false ∧ i.out_ready = true ∧ i.tx_dvalid = true)
      ∧ (List.replicate 10 flowing).length = (loadExt 0x01 0x0002).len.toNat + 8 := by
  decide

theorem test_witness_EncoderIsIndependentOfTheOtherUnits :
    (bin (parserAt .cmd) [0x41]).blk.e = (repl []).blk.e ∧ (bin (parserAt .cmd) [0x41]).blk.p.sub ≠ .ackReq
      ∧ (repl []).blk.p.sub ≠ .ackReq ∧ (driveStep true flowing).rst = flowing.rst
      ∧ (driveStep true flowing).tx_req = flowing.tx_req ∧ (driveStep true flowing).tx_cmd = flowing.tx_cmd
      ∧ (driveStep true flowing).tx_len = flowing.tx_len ∧ (driveStep true flowing).tx_dvalid = flowing.tx_dvalid
      ∧ (driveStep true flowing).tx_data = flowing.tx_data ∧ (driveStep true flowing).out_ready = flowing.out_ready := by
  decide

theorem test_witness_ChecksumIsTheModularSumOfTheFrame :
    Ready (repl []) ∧ [(0x41 : Byte), 0x42, 0x43].length ≤ 65535 ∧ Quiet (repl []).pins :=
  ⟨ready_of _ (by decide), by decide, quiet_quietPins⟩

/-- As in CS-6, the summed bytes of `FE 5A 01 00 00 FA E3` with the two head bytes exchanged, with cmd summed and not; two frames that
exchange a payload byte and cmd. -/
theorem test_witness_ChecksumIgnoresTheOrderOfBytes :
    (vecParams.sumsCmd = true ∧ [(0x5A : Byte), 0xFE, 0x01, 0x00, 0x00, 0xFA, 0xE3].Perm (summedBytes vecParams ⟨0x01, []⟩))
      ∧ (({ vecParams with sumsCmd := false } : Params).sumsCmd = false
        ∧ [(0x5A : Byte), 0xFE, 0x00, 0x00, 0xFA, 0xE3].Perm
            ((summedBytes { vecParams with sumsCmd := false } ⟨0x01, []⟩).eraseIdx 2))
      ∧ (summedBytes vecParams ⟨0x02, [0x05]⟩).Perm (summedBytes vecParams ⟨0x05, [0x02]⟩)
      ∧ [(0x41 : Byte), 0x42].Perm [0x42, 0x41] ∧ [(0x00 : Byte), 0x43].length < 256
      ∧ [(0x43 : Byte)].length < 256 ∧ sumBytes [(0x00 : Byte), 0x43] = sumBytes [0x43] := by
  decide

theorem test_witness_StepKeepsTheInvariant : listening.Inv ∧ nextIs (step listening) (fun _ => true) = true :=
  ⟨listening_inv, by decide⟩

theorem test_witness_InvariantStateNeverStops : listening.Inv := listening_inv

theorem test_witness_OperationsKeepParametersAndLines : nextIs (exec (.push 0x41) listening) (fun _ => true) = true := by
  decide

/-- A push into a full queue sets the flag (Q-2), and a queue whose flag is set. -/
theorem test_witness_OverrunFlagIsSticky :
    (driveIn true 0xA4 quietPins).rst = false ∧ (queueOf [0xA1, 0xA2, 0xA3]).ovr = false
      ∧ (cycle (queueParams .dropOldest) (repl [0xA1, 0xA2, 0xA3]).blk (driveIn true 0xA4 quietPins)).1.q.ovr = true
      ∧ ({ queueOf [0xA1] with ovr := true } : Queue).ovr = true := by
  decide

theorem test_witness_BootLeadsToTheParser : State.reset.pins = Inputs.idle := rfl

end Sys2Proof.Tests
end

/-! Proofs. 00_scope.md: an error of the parser is taken by reset() and touches no other unit (R9, R280, R285); the parameters,
the held lines and the stimulus belong to no operation (R10, R314). -/

namespace Sys2Proof.Machine

variable {P : Params} {b : Block} {i : Inputs}

/-! ### What a cycle leaves as it is -/

/-- R131: the mode changes only by a control action. -/
theorem modePhase_of_not_control (h : controlAction b i = false) : modePhase b i = b.mode := by
  have hm : modeChange b i = none := by simp_all [controlAction]
  simp [modePhase, hm]

/-- R100: one cycle takes at most one byte from the queue. -/
theorem popPhase_cases (P : Params) (b : Block) (i : Inputs) : popPhase P b i = b.q ∨ popPhase P b i = qPop P b.q := by
  unfold popPhase
  split_ifs
  · exact .inr rfl
  · exact .inl rfl

theorem pushPhase_of_not_valid (q : Queue) (h : i.in_valid = false) : pushPhase P q i = q := by
  simp [pushPhase, h]

/-- R199: a sub-state that reads a byte hands no ACK to the encoder. -/
theorem ackTake_of_readsByte (h : b.p.sub.readsByte = true) : ackTake b i = false := by
  simp [ackTake, (ParserSub.ne_of_readsByte h).2]

/-- The encoder does not read `step_en`; the parser's enable reaches it only through the ACK request. -/
theorem encoderPhase_driveStep (P : Params) (e : Encoder) (v : Bool) (i : Inputs) (a : Bool) :
    encoderPhase P e (driveStep v i) a = encoderPhase P e i a := rfl

/-! ### An error of the parser -/

/-- R283, R285: codes 1 to 5 come from a step of the parser in a byte-reading sub-state, which resets it. -/
theorem parserError_of_eventOf (h0 : eventOf P b i ≠ .none) (h6 : eventOf P b i ≠ .lineOverflow) :
    i.rst = false ∧ controlAction b i = false ∧ b.p.sub.readsByte = true ∧ (parserPhase P b i).p = Parser.reset := by
  have hr : i.rst = false := by
    by_contra hr
    simp [eventOf, hr] at h0
  have hc : controlAction b i = false := by
    by_contra hc
    cases he : i.repl_err <;> simp_all [eventOf]
  have hevt : (parserPhase P b i).evt ≠ .none := by simpa [eventOf, hr, hc] using h0
  have hs : pstep b i = true := by
    by_contra hs
    simp [parserPhase, hs] at hevt
  rw [parserPhase_of_pstep hs] at hevt ⊢
  obtain ⟨hnone, -⟩ | ⟨hreads, hp, -⟩ | ⟨-, -, -, hnone, -⟩ := parserStep_lawful P b i
  · exact absurd hnone hevt
  · exact ⟨hr, hc, hreads, hp⟩
  · exact absurd hnone hevt

/-- Settles O32: an event that is no line overflow is the parser's, and each unit of the next block is read off its phase. -/
theorem errorIsTakenByResettingTheParser : Obligations.ErrorIsTakenByResettingTheParser := by
  intro P b i h0 h6
  obtain ⟨hr, hc, hreads, hp⟩ := parserError_of_eventOf h0 h6
  change _ ∧ _ ∧ _ = (nextBlock P b (driveStep false i)).e ∧ _
  rw [cycle_fst, nextBlock_eq hr, nextBlock_eq (i := driveStep false i) hr]
  refine ⟨?_, modePhase_of_not_control hc, ?_, fun hv => ?_⟩
  · simpa [hc] using hp
  · simp only [ackTake_of_readsByte hreads, encoderPhase_driveStep]
  · rw [pushPhase_of_not_valid _ hv]
    exact popPhase_cases P b i

/-! ### The fields no operation writes -/

/-- R10: the cycles of an operation keep the parameters, the held lines and the stimulus. -/
theorem perform_keeps {cycles : List Inputs} {ret : Result} {s t : State} (h : perform cycles ret s = .next t) :
    t.params = s.params ∧ t.pins = s.pins ∧ t.stim = s.stim := by
  obtain ⟨hparams, hpins, hstim, -⟩ := clockAll_keeps h
  exact ⟨hparams, hpins, hstim⟩

/-- Settles O56: every operation is a run of cycles. -/
theorem operationsKeepParametersAndLines : Obligations.OperationsKeepParametersAndLines := by
  intro i s t h
  obtain ⟨cycles, ret, hexec⟩ := exec_eq_perform i s
  exact perform_keeps (hexec ▸ h)

end Sys2Proof.Machine

/-! Proofs. 10_state.md: the registers after hardware reset (R310), the overrun flag (R24) and the status outputs (R35). -/

namespace Sys2Proof.Machine

variable {P : Params} {b : Block} {i : Inputs}

/-! ### The reset values -/

/-- Settles O7: each register of the reset state is the one `State.reset` writes, and every index of the empty array reads 0x00. -/
theorem resetStateHoldsTheSpecValues : Obligations.ResetStateHoldsTheSpecValues := by
  have hbuf : ∀ k, State.reset.blk.p.buf.read k = 0 := fun _ => rfl
  exact ⟨rfl, rfl, rfl, rfl, rfl, rfl, rfl, rfl, hbuf, rfl, rfl, rfl, rfl, rfl, rfl, rfl, rfl, rfl, rfl⟩

/-! ### The overrun flag -/

/-- R102: a push adds to the flag whether it found the queue full. -/
@[simp] theorem qPush_ovr (P : Params) (q : Queue) (x : Byte) : (qPush P q x).ovr = (q.ovr || qFull P q) := rfl

/-- R104: a pop moves the read cursor only. -/
@[simp] theorem popPhase_ovr (P : Params) (b : Block) (i : Inputs) : (popPhase P b i).ovr = b.q.ovr := by
  obtain h | h := popPhase_cases P b i <;> simp [h]

@[simp] theorem popPhase_wr (P : Params) (b : Block) (i : Inputs) : (popPhase P b i).wr = b.q.wr := by
  obtain h | h := popPhase_cases P b i <;> simp [h]

theorem pushPhase_ovr (P : Params) (q : Queue) (i : Inputs) :
    (pushPhase P q i).ovr = (q.ovr || i.in_valid && qFull P q) := by
  cases hv : i.in_valid <;> simp [pushPhase, hv]

/-- R24, R316: the flag after a cycle without rst is the old one, or a push that finds the queue full after the pop. -/
theorem nextBlock_ovr (h : i.rst = false) :
    (nextBlock P b i).q.ovr = (b.q.ovr || i.in_valid && qFull P (popPhase P b i)) := by
  simp [nextBlock_eq h, pushPhase_ovr]

/-- Settles O57: both clauses are read off the flag's next value. -/
theorem overrunFlagIsSticky : Obligations.OverrunFlagIsSticky := by
  intro P b i hr
  rw [cycle_fst, nextBlock_ovr hr]
  refine ⟨fun hset => by simp [hset], fun hclear hnext => ?_⟩
  obtain ⟨hvalid, hfull⟩ : i.in_valid = true ∧ qFull P (popPhase P b i) = true := by simpa [hclear] using hnext
  rw [qFull_iff, popPhase_wr] at hfull
  exact ⟨hvalid, hfull⟩

/-! ### The status outputs -/

/-- Settles O41: each status output is defined by the pre-state alone; the code of R28 is compared for each sub-state. -/
theorem statusOutputsShowThePreState : Obligations.StatusOutputsShowThePreState := by
  intro P b i
  refine ⟨rfl, rfl, rfl, rfl, ?_⟩
  change b.p.sub.pstate.code = _
  cases b.p.sub <;> rfl

end Sys2Proof.Machine

/-! Proofs. 20_memory.md: every cycle keeps the invariant of the block (R61, R136, R163, R183, R190, R192, R200), so that no
index out of range can be formed (R66). -/

namespace Sys2Proof.Machine

variable {P : Params} {p : Parser} {e : Encoder} {b : Block} {i : Inputs}

/-! ### The parser keeps its scratch storage -/

theorem parserOk_reset (P : Params) : ParserOk P Parser.reset := rfl

@[simp] theorem hiByte_zero : hiByte 0#16 = 0 := rfl

@[simp] theorem loByte_zero : loByte 0#16 = 0 := rfl

/-- R190: the bytes received are as many as `p_idx` says. -/
@[simp] theorem received_length (p : Parser) : (received p).length = p.idx.toNat := Memory.firstBytes_length _ _

/-- R163: the sum after `len` high, once `len` low has come. -/
theorem sumFront_joinBytes (P : Params) (c x : Byte) {len : Half} (h : loByte len = 0) :
    sumFront P c (joinBytes (hiByte len) x) = sumFront P c len + x := by
  simp [sumFront, h]

/-- R160, R163: the checksum of a frame whose payload has `len` bytes, from the running sum after `len`. -/
theorem frameChecksum_eq_sumFront (P : Params) (c : Byte) {len : Half} {payload : List Byte}
    (h : payload.length = len.toNat) :
    frameChecksum P c payload = sumFront P c len + sumBytes payload + tailMagic0 P + tailMagic1 P := by
  simp [frameChecksum, sumFront, h]

/-- An index below a 16-bit bound moves on without wrapping. -/
theorem toNat_add_one_of_lt {k n : Half} (h : k.toNat < n.toNat) : (k + 1).toNat = k.toNat + 1 := by
  have := n.isLt
  rw [BitVec.toNat_add]
  exact Nat.mod_eq_of_lt (by simp; omega)

/-- R191: an index below a bound that moves on to another value than the bound is still below it. -/
theorem add_one_lt_of_ne {k n : Half} (h : k.toNat < n.toNat) (hne : k + 1 ≠ n) : (k + 1).toNat < n.toNat := by
  have hk := toNat_add_one_of_lt h
  have : (k + 1).toNat ≠ n.toNat := fun he => hne (BitVec.eq_of_toNat_eq he)
  omega

theorem toNat_pos_of_ne_zero {n : Half} (h : n ≠ 0) : 0 < n.toNat :=
  Nat.pos_of_ne_zero fun h0 => h (BitVec.eq_of_toNat_eq h0)

theorem onHead0_ok (hs : p.sub = .head0) (h : ParserOk P p) (x : Byte) : ParserOk P (onHead0 p x).p := by
  simp only [ParserOk, hs] at h
  subst h
  unfold onHead0
  split_ifs
  · exact ⟨rfl, rfl, rfl, rfl, rfl, rfl, P.tHead_legal.1⟩
  · exact parserOk_reset P

theorem onHead1_ok (hs : p.sub = .head1) (h : ParserOk P p) (x : Byte) : ParserOk P (onHead1 p x).p := by
  simp only [ParserOk, hs] at h
  obtain ⟨hcmd, hlen, hidx, ht0, hbuf, hacc, -⟩ := h
  unfold onHead1
  split_ifs with hx
  · exact ⟨hcmd, hlen, hidx, ht0, hbuf, by simp [hacc, hx], P.tCmd_legal.1⟩
  · exact parserOk_reset P

theorem onCmd_ok (hs : p.sub = .cmd) (h : ParserOk P p) (x : Byte) : ParserOk P (onCmd P p x).p := by
  simp only [ParserOk, hs] at h
  obtain ⟨-, hlen, hidx, ht0, hbuf, hacc, -⟩ := h
  exact ⟨hlen, hidx, ht0, hbuf, by simp [onCmd, hacc, sumFront], P.tLen_legal.1⟩

theorem onLenHi_ok (hs : p.sub = .lenHi) (h : ParserOk P p) (x : Byte) : ParserOk P (onLenHi p x).p := by
  simp only [ParserOk, hs] at h
  obtain ⟨-, hidx, ht0, hbuf, hacc, -⟩ := h
  exact ⟨loByte_joinBytes x 0, hidx, ht0, hbuf, by simp [onLenHi, hacc, sumFront], P.tLen_legal.1⟩

theorem onLenLo_ok (hs : p.sub = .lenLo) (h : ParserOk P p) (x : Byte) : ParserOk P (onLenLo P p x).p := by
  simp only [ParserOk, hs] at h
  obtain ⟨hlo, hidx, ht0, hbuf, hacc, -⟩ := h
  have hsum := sumFront_joinBytes P p.cmd x hlo
  unfold onLenLo
  dsimp only
  split_ifs with hmax hzero
  · exact parserOk_reset P
  · rw [hzero] at hsum
    refine ⟨⟨?_, ?_, ?_⟩, ht0, ?_, P.tTail_legal.1⟩
    · simp [hidx, hzero]
    · simp [hzero]
    · simp [bufferOk, hbuf, Memory.wf, Memory.below]
    · simpa [received, hidx, hzero, hacc, Memory.firstBytes] using hsum.symm
  · refine ⟨?_, by simpa using hmax, ?_, ht0, ?_, P.tPayload_legal.1⟩
    · simpa using toNat_pos_of_ne_zero hzero
    · simp [bufferOk, hbuf, Memory.wf, Memory.below]
    · simp [received, hsum, hacc, Memory.firstBytes]

theorem onPayload_ok (hs : p.sub = .payload) (h : ParserOk P p) (x : Byte) : ParserOk P (onPayload p x).p := by
  simp only [ParserOk, hs] at h
  obtain ⟨hlt, hmax, ⟨hwf, hbelow⟩, ht0, hacc, -⟩ := h
  have hidx := toNat_add_one_of_lt hlt
  have hbuf : bufferOk (onPayload p x).p := by
    refine ⟨Memory.wf_write hwf _ _, ?_⟩
    simp only [onPayload, quietStep_p, hidx]
    exact Memory.below_write (Memory.below_mono hbelow (Nat.le_succ _)) (Nat.lt_succ_self _) x
  have hrec : received (onPayload p x).p = received p ++ [x] := by
    simp only [received, onPayload, quietStep_p, hidx]
    exact Memory.firstBytes_write hwf _ _
  have hsum : (onPayload p x).p.acc = sumFront P p.cmd p.len + sumBytes (received (onPayload p x).p) := by
    rw [hrec, sumBytes_append, ← BitVec.add_assoc, ← hacc]
    simp [onPayload]
  by_cases hlast : p.idx + 1 = p.len
  · have hsub : (onPayload p x).p.sub = .tail0 := if_pos hlast
    simp only [ParserOk, hsub]
    exact ⟨⟨hlast, hmax, hbuf⟩, ht0, hsum, P.tTail_legal.1⟩
  · have hsub : (onPayload p x).p.sub = .payload := if_neg hlast
    simp only [ParserOk, hsub]
    exact ⟨add_one_lt_of_ne hlt hlast, hmax, hbuf, ht0, hsum, P.tPayload_legal.1⟩

theorem onTail0_ok (hs : p.sub = .tail0) (h : ParserOk P p) (x : Byte) : ParserOk P (onTail0 p x).p := by
  simp only [ParserOk, hs] at h
  obtain ⟨hpay, -, hacc, -⟩ := h
  exact ⟨hpay, by simp [onTail0, received, hacc], P.tTail_legal.1⟩

theorem onTail1_ok (hs : p.sub = .tail1) (h : ParserOk P p) (x : Byte) : ParserOk P (onTail1 P p x).p := by
  simp only [ParserOk, hs] at h
  obtain ⟨hpay, hacc, -⟩ := h
  unfold onTail1
  split_ifs with hx
  · obtain ⟨ht0, hx⟩ := hx
    have hlen : (received p).length = p.len.toNat := by rw [received_length, hpay.1]
    refine ⟨⟨hpay, ht0, ?_⟩, P.tSum_legal.1⟩
    change add8 p.acc x = frameChecksum P p.cmd (received p)
    rw [frameChecksum_eq_sumFront P p.cmd hlen, add8_eq, hacc, ht0, hx]
  · exact parserOk_reset P

theorem classify_ok (h : frameComplete P p) : ParserOk P (classify p).p := by
  unfold classify
  split_ifs with hcmd
  · exact ⟨h, rfl, hcmd⟩
  · exact parserOk_reset P
  · exact parserOk_reset P

theorem onSum_ok (hs : p.sub = .sum) (h : ParserOk P p) (x : Byte) : ParserOk P (onSum p x).p := by
  simp only [ParserOk, hs] at h
  unfold onSum
  split_ifs
  · exact classify_ok h.1
  · exact parserOk_reset P

/-- R185 to R197: the rule of every sub-state leaves the scratch storage as the next sub-state has it. -/
theorem onByte_ok (h : ParserOk P p) (x : Byte) : ParserOk P (onByte P p x).p := by
  cases hs : p.sub <;> simp only [onByte, hs]
  case head0 => exact onHead0_ok hs h x
  case head1 => exact onHead1_ok hs h x
  case cmd => exact onCmd_ok hs h x
  case lenHi => exact onLenHi_ok hs h x
  case lenLo => exact onLenLo_ok hs h x
  case payload => exact onPayload_ok hs h x
  case tail0 => exact onTail0_ok hs h x
  case tail1 => exact onTail1_ok hs h x
  case sum => exact onSum_ok hs h x
  case dispatch => exact h
  case ackReq => exact h

/-- R183: within its budget the timer may hold any value. -/
theorem ParserOk.setTimer (h : ParserOk P p) {t n : Nat} (ht : budget P p.sub = some t) (hn : n < t) :
    ParserOk P { p with tim := n } := by
  cases hs : p.sub <;> simp only [hs, budget, reduceCtorEq, Option.some.injEq] at ht <;> subst ht <;>
    simp only [ParserOk, hs, ← and_assoc] at h ⊢ <;> exact ⟨h.1, hn⟩

theorem onEmpty_ok (h : ParserOk P p) (tick : Bool) : ParserOk P (onEmpty P p tick).p := by
  unfold onEmpty
  split
  · exact h
  · rename_i t ht
    split_ifs with htick hover
    · exact parserOk_reset P
    · exact h.setTimer ht (by omega)
    · exact h

theorem onDispatch_ok (hs : p.sub = .dispatch) (h : ParserOk P p) (done a : Bool) : ParserOk P (onDispatch p done a).p := by
  unfold onDispatch
  split_ifs
  · simp only [ParserOk, hs] at h
    exact h
  · exact parserOk_reset P
  · exact h

theorem onAckReq_ok (h : ParserOk P p) (encoderIdle : Bool) : ParserOk P (onAckReq p encoderIdle).p := by
  unfold onAckReq
  split_ifs
  · exact parserOk_reset P
  · exact h

theorem parserStep_ok (h : ParserOk P b.p) (i : Inputs) : ParserOk P (parserStep P b i).p := by
  unfold parserStep
  split_ifs with hs
  · exact onDispatch_ok hs h _ _
  · exact onAckReq_ok h _
  · split
    · exact onByte_ok h _
    · exact onEmpty_ok h _

theorem parserPhase_ok (h : ParserOk P b.p) (i : Inputs) : ParserOk P (parserPhase P b i).p := by
  unfold parserPhase
  split_ifs
  · exact parserStep_ok h i
  · exact h

/-! ### The encoder keeps its place in its frame -/

theorem encoderOk_of_idle (h : e.sub = .idle) : EncoderOk P e := by
  simp [EncoderOk, h]

theorem loadAck_ok (P : Params) : EncoderOk P loadAck := ⟨fun _ => ⟨rfl, rfl⟩, rfl, rfl⟩

theorem loadExt_ok (P : Params) (c : Byte) (len : Half) : EncoderOk P (loadExt c len) :=
  ⟨fun hsrc => by simp at hsrc, rfl, rfl⟩

/-- R63, R246: the sum of the bytes of ACK_ROM below an index grows by the byte at the index. -/
theorem sumBytes_take_ackPayload {k : Half} (h : k.toNat < 4) :
    sumBytes (ackPayload.take (k.toNat + 1)) = sumBytes (ackPayload.take k.toNat) + ackRom k := by
  have hlen : k.toNat < ackPayload.length := h
  rw [List.take_succ_eq_append_getElem hlen, sumBytes_append]
  simp [ackRom, hlen]

theorem advance_lenLo_of_zero {o : Byte} (hs : e.sub = .lenLo) (hlen : e.len = 0) :
    advance P e o = { e with sub := .tail0, acc := e.acc + o } := by
  simp only [advance, hs, if_pos hlen, add8_eq]

theorem advance_lenLo_of_ne_zero {o : Byte} (hs : e.sub = .lenLo) (hlen : e.len ≠ 0) :
    advance P e o = { e with sub := .payload, acc := e.acc + o } := by
  simp only [advance, hs, if_neg hlen, add8_eq]

theorem advance_payload_of_last {o : Byte} (hs : e.sub = .payload) (hlast : e.idx + 1 = e.len) :
    advance P e o = { e with sub := .tail0, idx := e.idx + 1, acc := e.acc + o } := by
  simp only [advance, hs, if_pos hlast, add8_eq]

theorem advance_payload_of_not_last {o : Byte} (hs : e.sub = .payload) (hlast : e.idx + 1 ≠ e.len) :
    advance P e o = { e with sub := .payload, idx := e.idx + 1, acc := e.acc + o } := by
  simp only [advance, hs, if_neg hlast, add8_eq]

theorem advance_lenLo_ok (hs : e.sub = .lenLo) (h : EncoderOk P e) : EncoderOk P (advance P e (loByte e.len)) := by
  simp only [EncoderOk, hs] at h
  obtain ⟨hack, hidx, hacc⟩ := h
  have hsum : e.acc + loByte e.len = sumFront P e.cmd e.len := by simp [hacc, sumFront]
  by_cases hlen : e.len = 0
  · rw [advance_lenLo_of_zero hs hlen]
    refine ⟨hidx.trans hlen.symm, fun hsrc => ?_⟩
    exact absurd (hlen.symm.trans (hack hsrc).2) (by decide)
  · rw [advance_lenLo_of_ne_zero hs hlen]
    refine ⟨by simpa [hidx] using toNat_pos_of_ne_zero hlen, fun hsrc => ?_⟩
    exact ⟨(hack hsrc).1, (hack hsrc).2, by simp [hsum, hidx]⟩

theorem advance_payload_ok (hs : e.sub = .payload) (h : EncoderOk P e) {o : Byte} (ho : e.src = .ack → o = ackRom e.idx) :
    EncoderOk P (advance P e o) := by
  simp only [EncoderOk, hs] at h
  obtain ⟨hlt, hack⟩ := h
  have hsum (hsrc : e.src = .ack) : e.cmd = cmdAck ∧ e.len = 4
      ∧ e.acc + o = sumFront P e.cmd e.len + sumBytes (ackPayload.take (e.idx + 1).toNat) := by
    obtain ⟨hcmd, hlen, hacc⟩ := hack hsrc
    have hidx : e.idx.toNat < 4 := by simpa [hlen] using hlt
    rw [toNat_add_one_of_lt hlt, sumBytes_take_ackPayload hidx, ho hsrc, hacc]
    exact ⟨hcmd, hlen, BitVec.add_assoc _ _ _⟩
  by_cases hlast : e.idx + 1 = e.len
  · rw [advance_payload_of_last hs hlast]
    refine ⟨hlast, fun hsrc => ?_⟩
    obtain ⟨hcmd, hlen, hacc⟩ := hsum hsrc
    rw [hlast, hlen] at hacc
    exact ⟨hcmd, hlen, hacc.trans (by rw [hlen]; rfl)⟩
  · rw [advance_payload_of_not_last hs hlast]
    exact ⟨add_one_lt_of_ne hlt hlast, hsum⟩

/-- R247: the transfer of the byte offered leaves the encoder in its frame. -/
theorem advance_ok (h : EncoderOk P e) (i : Inputs) : EncoderOk P (advance P e (outByte P e i)) := by
  cases hs : e.sub
  case lenLo => simpa only [outByte, hs] using advance_lenLo_ok hs h
  case payload => exact advance_payload_ok hs h fun hsrc => by simp [outByte, hs, hsrc]
  all_goals simp only [EncoderOk, hs] at h; simp only [advance, outByte, hs, EncoderOk]
  case head0 | head1 =>
    obtain ⟨hack, hidx, hacc⟩ := h
    exact ⟨hack, hidx, by simp [hacc]⟩
  case cmd | lenHi =>
    obtain ⟨hack, hidx, hacc⟩ := h
    exact ⟨hack, hidx, by simp [hacc, sumFront]⟩
  case tail0 =>
    obtain ⟨hidx, hack⟩ := h
    refine ⟨hidx, fun hsrc => ?_⟩
    obtain ⟨hcmd, hlen, hacc⟩ := hack hsrc
    exact ⟨hcmd, hlen, by rw [hacc, add8_eq]⟩
  case tail1 =>
    obtain ⟨hidx, hack⟩ := h
    refine ⟨hidx, fun hsrc => ?_⟩
    obtain ⟨hcmd, hlen, hacc⟩ := hack hsrc
    exact ⟨hcmd, hlen, by rw [hacc, add8_eq, hcmd, hlen]; rfl⟩

theorem encoderPhase_ok (h : EncoderOk P e) (i : Inputs) (a : Bool) : EncoderOk P (encoderPhase P e i a) := by
  unfold encoderPhase
  split_ifs
  · exact loadAck_ok P
  · exact loadExt_ok P _ _
  · exact h
  · exact advance_ok h i
  · exact h

/-! ### Every cycle, operation and step keeps the invariant -/

theorem queueOk_reset (P : Params) : QueueOk P Queue.reset := by
  have hcap := P.cap_legal
  exact ⟨by simp [Queue.reset]; omega, by simp [Queue.reset]; omega, rfl, rfl⟩

theorem Block.reset_ok (P : Params) : Block.Ok P Block.reset :=
  ⟨queueOk_reset P, parserOk_reset P, encoderOk_of_idle rfl, fun _ => rfl⟩

theorem popPhase_ok (h : QueueOk P b.q) (i : Inputs) : QueueOk P (popPhase P b i) := by
  obtain hp | hp := popPhase_cases P b i <;> rw [hp]
  · exact h
  · exact h.pop

theorem pushPhase_ok {q : Queue} (h : QueueOk P q) (i : Inputs) : QueueOk P (pushPhase P q i) := by
  unfold pushPhase
  split_ifs
  · exact h.push _
  · exact h

/-- R61, R136, R163, R183, R190, R192, R200: every cycle keeps the invariant, whatever its inputs. -/
theorem nextBlock_ok (h : b.Ok P) (i : Inputs) : (nextBlock P b i).Ok P := by
  obtain ⟨hq, hp, he, hmode⟩ := h
  cases hr : i.rst
  case true => simpa only [nextBlock_of_rst hr] using Block.reset_ok P
  case false =>
    rw [nextBlock_eq hr]
    refine ⟨pushPhase_ok (popPhase_ok hq i) i, ?_, encoderPhase_ok he i _, ?_⟩
    · split_ifs
      · exact parserOk_reset P
      · exact parserPhase_ok hp i
    · intro hascii
      change modePhase b i = .asciiRepl at hascii
      split_ifs with hc
      · rfl
      · rw [modePhase_of_not_control (by simpa using hc)] at hascii
        have hs : pstep b i = false := by simp [pstep, hascii]
        simpa [parserPhase_of_not_pstep hs] using hmode hascii

theorem inv_endCycle (i : Inputs) (s : State) (h : s.Inv) : (endCycle i s).Inv := nextBlock_ok h i

theorem inv_beginOp (ret : Result) {s : State} (h : s.Inv) : (beginOp ret s).Inv := h

theorem inv_takeStimulus (e : Stimulus) (rest : List Stimulus) {s : State} (h : s.Inv) : (takeStimulus e rest s).Inv := h

theorem inv_perform {cycles : List Inputs} {ret : Result} {s t : State} (h : perform cycles ret s = .next t) (hs : s.Inv) :
    t.Inv :=
  clockAll_induct inv_endCycle h (inv_beginOp ret hs)

/-- Every step is the cycles of one operation, from the state itself or with the next stimulus entry's lines held. -/
theorem step_eq_perform (s : State) :
    ∃ cycles ret s', step s = perform cycles ret s' ∧ (s' = s ∨ ∃ e rest, s' = takeStimulus e rest s) := by
  obtain ⟨-, hstep⟩ | ⟨e, rest, i, -, -, hstep⟩ | ⟨e, rest, -, -, -, hstep⟩ := step_cases s
  · exact ⟨_, _, s, hstep, .inl rfl⟩
  · obtain ⟨cycles, ret, hexec⟩ := exec_eq_perform i (takeStimulus e rest s)
    exact ⟨cycles, ret, _, hstep.trans hexec, .inr ⟨e, rest, rfl⟩⟩
  · exact ⟨_, _, _, hstep, .inr ⟨e, rest, rfl⟩⟩

/-- The state a step's cycles begin in has the invariant when the state before the step has it. -/
theorem inv_of_stepStart {s s' : State} (h : s.Inv) (hs' : s' = s ∨ ∃ e rest, s' = takeStimulus e rest s) : s'.Inv := by
  obtain rfl | ⟨e, rest, rfl⟩ := hs'
  · exact h
  · exact inv_takeStimulus e rest h

/-- Settles O54: a step is a run of cycles, and each cycle keeps the invariant unit by unit. -/
theorem stepKeepsTheInvariant : Obligations.StepKeepsTheInvariant := by
  intro s t hs hstep
  obtain ⟨cycles, ret, s', heq, hs'⟩ := step_eq_perform s
  exact inv_perform (heq ▸ hstep) (inv_of_stepStart hs hs')

/-! ### No index out of range -/

/-- R189, R192: in PAYLOAD the next byte has a slot in p_buf. -/
theorem ParserOk.idx_lt (h : ParserOk P p) (hs : p.sub = .payload) : p.idx.toNat < P.payloadMax := by
  simp only [ParserOk, hs] at h
  obtain ⟨hlt, hmax, -⟩ := h
  omega

/-- R62, R196: in DISPATCH the whole payload lies in p_buf. -/
theorem ParserOk.len_le (h : ParserOk P p) (hs : p.sub = .dispatch) : p.len.toNat ≤ P.payloadMax := by
  simp only [ParserOk, hs] at h
  obtain ⟨⟨⟨-, hmax, -⟩, -⟩, -⟩ := h
  exact hmax

/-- R246: in E_PAYLOAD of an ACK the index lies in ACK_ROM. -/
theorem EncoderOk.idx_lt (h : EncoderOk P e) (hs : e.sub = .payload) (hsrc : e.src = .ack) : e.idx.toNat < 4 := by
  simp only [EncoderOk, hs] at h
  obtain ⟨hlt, hack⟩ := h
  obtain ⟨-, hlen, -⟩ := hack hsrc
  simpa [hlen] using hlt

/-- R190: p_buf is all zero before PAYLOAD, and from then on holds what has been received. -/
theorem ParserOk.buf_cases (h : ParserOk P p) : p.buf = [] ∨ bufferOk p := by
  cases hs : p.sub <;> simp only [ParserOk, hs] at h
  case head0 => exact .inl (h ▸ rfl)
  case head1 | cmd =>
    obtain ⟨-, -, -, -, hbuf, -⟩ := h
    exact .inl hbuf
  case lenHi | lenLo =>
    obtain ⟨-, -, -, hbuf, -⟩ := h
    exact .inl hbuf
  case payload =>
    obtain ⟨-, -, hbuf, -⟩ := h
    exact .inr hbuf
  case tail0 | tail1 =>
    obtain ⟨⟨-, -, hbuf⟩, -⟩ := h
    exact .inr hbuf
  case sum | dispatch | ackReq =>
    obtain ⟨⟨⟨-, -, hbuf⟩, -⟩, -⟩ := h
    exact .inr hbuf

theorem ParserOk.buf_wf (h : ParserOk P p) : p.buf.wf = true := by
  obtain hbuf | hbuf := h.buf_cases
  · simp [hbuf, Memory.wf]
  · exact hbuf.1

/-- R66: under the invariant every array index the next cycle can form lies in its array. -/
theorem indexed_of_ok (h : b.Ok P) : indexed P b = true := by
  obtain ⟨⟨hwr, hrd, -⟩, hp, he, -⟩ := h
  have hpay := imp_iff_not_or.mp hp.idx_lt
  have hdisp := imp_iff_not_or.mp hp.len_le
  have hrom := imp_iff_not_or.mp fun hs : b.e.sub = .payload ∧ b.e.src = .ack => he.idx_lt hs.1 hs.2
  rw [not_and_or] at hrom
  simp only [indexed, Bool.and_eq_true, Bool.or_eq_true, decide_eq_true_eq]
  exact ⟨⟨⟨⟨hwr, hrd⟩, hpay⟩, hdisp⟩, hrom⟩

theorem ready_of_inv {s : State} (h : s.Inv) : Ready s := by
  have hindexed := indexed_of_ok h
  obtain ⟨⟨-, -, hqbuf, -⟩, hp, -⟩ := h
  exact ⟨hindexed, hqbuf, hp.buf_wf⟩

/-- R66: the cycles of an operation complete. -/
theorem perform_completes (cycles : List Inputs) (ret : Result) {s : State} (h : s.Inv) : ∃ t, perform cycles ret s = .next t :=
  clockAll_completes inv_endCycle (fun _ hs => indexed_of_ok hs) cycles (inv_beginOp ret h)

/-- Settles O55: every operation and every step is a run of cycles, each of which completes under the invariant and keeps it. -/
theorem invariantStateNeverStops : Obligations.InvariantStateNeverStops := by
  intro s hs
  refine ⟨ready_of_inv hs, ?_, fun i => ?_⟩
  · obtain ⟨cycles, ret, s', heq, hs'⟩ := step_eq_perform s
    exact heq ▸ perform_completes cycles ret (inv_of_stepStart hs hs')
  · obtain ⟨cycles, ret, heq⟩ := exec_eq_perform i s
    exact heq ▸ perform_completes cycles ret hs

end Sys2Proof.Machine

/-! Proofs. 20_memory.md: the queue seen as the list of its unread bytes (R70, R71, R100 to R104), and what the dispatch port
shows of the frame (R62). -/

namespace Sys2Proof.Machine

variable {P : Params} {q : Queue} {b : Block} {i : Inputs}

/-! ### The queue as a list -/

/-- R104: no consumer takes a byte from an empty queue. -/
theorem ne_of_takes (h : (replTakes b i || parserTakes b i) = true) : b.q.wr ≠ b.q.rd := by
  intro he
  simp [replTakes, parserTakes, qEmpty_iff.mpr he] at h

theorem popPhase_of_takes (h : (replTakes b i || parserTakes b i) = true) : popPhase P b i = qPop P b.q := if_pos h

theorem popPhase_of_not_takes (h : (replTakes b i || parserTakes b i) = false) : popPhase P b i = b.q := by
  simp [popPhase, h]

/-- R104: the pop of a cycle takes the head of the unread bytes. -/
theorem qContents_popPhase (h : QueueOk P b.q) :
    qContents P (popPhase P b i)
      = if replTakes b i || parserTakes b i then (qContents P b.q).tail else qContents P b.q := by
  split_ifs with htakes
  · rw [popPhase_of_takes htakes, qContents_pop h (ne_of_takes htakes), List.tail_cons]
  · rw [popPhase_of_not_takes (by simpa using htakes)]

/-- Settles O19: the pop takes the head, and the push falls under R101 or R102 by whether the pop left the queue full. -/
theorem queueIsAFifo : Obligations.QueueIsAFifo := by
  intro P b i hq hr
  dsimp only
  refine ⟨fun htakes => ?_, ?_⟩
  · rw [qContents_pop hq (ne_of_takes htakes)]
    rfl
  · have hpop := popPhase_ok hq i
    rw [cycle_fst, nextBlock_eq hr, ← qContents_popPhase hq, qContents_length]
    dsimp only [pushPhase]
    split_ifs with hvalid hcount
    · have hfull := (qFull_iff_count hpop).mpr hcount
      split
      · exact qContents_push_dropOldest hpop hfull ‹_› i.in_byte
      · exact qContents_push_wrapToEmpty hpop hfull ‹_› i.in_byte
    · exact qContents_push hpop (mt (qFull_iff_count hpop).mp hcount) i.in_byte
    · rfl

/-! ### A push and a pop in one cycle -/

/-- R101: an empty queue has room. -/
theorem not_qFull_of_empty (h : QueueOk P q) (he : q.wr = q.rd) : ¬ qFull P q = true := by
  have hcap := P.cap_legal
  rw [qFull_iff_count h, ← qContents_length, qContents_of_empty h.2.1 he, List.length_nil]
  omega

/-- R317: a pop makes room. -/
theorem not_qFull_qPop (h : QueueOk P q) (hne : q.wr ≠ q.rd) : ¬ qFull P (qPop P q) = true := by
  have hcount := qCount_pop h hne
  have hlt := qCount_lt P q
  rw [qFull_iff_count h.pop]
  omega

/-- R70: a queue with one unread byte offers that byte. -/
theorem qFront_of_contents {x : Byte} (h : QueueOk P q) (hx : qContents P q = [x]) : q.wr ≠ q.rd ∧ qFront q = x := by
  have hne : q.wr ≠ q.rd := fun he => by simp [qContents_of_empty h.2.1 he] at hx
  rw [qContents_pop h hne] at hx
  exact ⟨hne, (List.cons.inj hx).1⟩

/-- Settles O21: an empty queue gives nothing and then holds the pushed byte alone; a pop leaves a full queue with room. -/
theorem pushIsPoppableFromTheNextCycle : Obligations.PushIsPoppableFromTheNextCycle := by
  intro P b i hq hr hvalid
  refine ⟨fun hempty => ?_, fun _ htakes => ?_⟩
  · have htakes : (replTakes b i || parserTakes b i) = false :=
      Bool.eq_false_iff.mpr fun h => ne_of_takes h hempty
    have hnext : (cycle P b i).1.q = qPush P b.q i.in_byte := by
      rw [cycle_fst, nextBlock_eq hr, popPhase_of_not_takes htakes]
      simp [pushPhase, hvalid]
    have hone : qContents P (qPush P b.q i.in_byte) = [i.in_byte] := by
      rw [qContents_push hq (not_qFull_of_empty hq hempty), qContents_of_empty hq.2.1 hempty, List.nil_append]
    obtain ⟨hrepl, hparser⟩ := Bool.or_eq_false_iff.mp htakes
    rw [hnext]
    exact ⟨hrepl, hparser, qFront_of_contents (hq.push i.in_byte) hone⟩
  · have htakes : (replTakes b i || parserTakes b i) = true := by simpa using htakes
    have hroom := not_qFull_qPop hq (ne_of_takes htakes)
    rw [cycle_fst, nextBlock_ovr hr, popPhase_of_takes htakes]
    simp [hroom]

/-! ### The dispatch port -/

/-- Settles O42: every output of the port is guarded by the DISPATCH sub-state, and the read by the index below p_len. -/
theorem dispatchPortShowsTheFrameInDispatchOnly : Obligations.DispatchPortShowsTheFrameInDispatchOnly := by
  intro P b i _
  dsimp only [cycle_snd, outputsOf]
  refine ⟨fun hs => ?_, fun hs => ?_⟩
  · refine ⟨by simp [hs], if_pos hs, if_pos hs, fun hlt => if_pos ⟨hs, hlt⟩, fun hle => ?_⟩
    exact if_neg fun hread => absurd hread.2 (Nat.not_lt.mpr hle)
  · exact ⟨by simp [hs], if_neg hs, if_neg hs, if_neg fun hread => hs hread.1⟩

end Sys2Proof.Machine

/-! Proofs. 20_memory.md: a frame leaves whole and in order, with what its sender gave as payload (R74, R241, R248, R250). -/

namespace Sys2Proof.Machine

variable {P : Params} {c : Byte} {len : Half} {given sent : List Byte} {e : Encoder} {b : Block} {i : Inputs}

/-! ### The encoder on its way through a frame -/

/-- R241: what has left of the frame of `c`, `len` and the payload bytes given so far, when the encoder is in a sub-state. -/
def leftBy (P : Params) (c : Byte) (len : Half) (given : List Byte) : EncoderSub → List Byte
  | .head0 => []
  | .head1 => [headMagic0]
  | .cmd => [headMagic0, headMagic1]
  | .lenHi => [headMagic0, headMagic1, c]
  | .lenLo => [headMagic0, headMagic1, c, hiByte len]
  | .payload | .tail0 => [headMagic0, headMagic1, c, hiByte len, loByte len] ++ given
  | .tail1 => [headMagic0, headMagic1, c, hiByte len, loByte len] ++ given ++ [tailMagic0 P]
  | .sum => [headMagic0, headMagic1, c, hiByte len, loByte len] ++ given ++ [tailMagic0 P, tailMagic1 P]
  | .idle => frameBytes P c given

/-- R247, R248: how many payload bytes have been given when the encoder is in its sub-state. -/
def GivenUpTo (e : Encoder) (given : List Byte) : Prop :=
  match e.sub with
  | .head0 | .head1 | .cmd | .lenHi | .lenLo => given = [] ∧ e.idx = 0
  | .payload => given.length = e.idx.toNat ∧ e.idx.toNat < e.len.toNat
  | .tail0 | .tail1 | .sum | .idle => given.length = e.len.toNat

/-- R241, R250: the encoder is on its way through one frame: the bytes sent are those before its sub-state, and while it is
busy its running sum is theirs (R163), with `cmd` counted as CHECKSUM_INCLUDES_CMD says. -/
structure Sending (P : Params) (c : Byte) (len : Half) (given sent : List Byte) (e : Encoder) : Prop where
  cmd_eq : e.cmd = c
  len_eq : e.len = len
  upTo : GivenUpTo e given
  sent_eq : sent = leftBy P c len given e.sub
  acc_eq : e.sub ≠ .idle → e.acc = sumBytes (leftBy P (cmdTerm P c) len given e.sub)

/-- R160: the sum over the frame up to its tail is its checksum. -/
theorem sumBytes_leftBy_sum (h : given.length = len.toNat) :
    sumBytes (leftBy P (cmdTerm P c) len given .sum) = frameChecksum P c given := by
  rw [frameChecksum_eq_sumFront P c h]
  simp [leftBy, sumBytes_append, sumFront, ← BitVec.add_assoc]

/-- R80: the sum byte completes the frame. -/
theorem leftBy_sum_append (h : given.length = len.toNat) :
    leftBy P c len given .sum ++ [frameChecksum P c given] = frameBytes P c given := by
  simp [leftBy, frameBytes, frameFront, h]

/-- R247: a busy encoder that moves on by the byte o, which adds `term` to its sum, is still on its way through its frame. -/
theorem Sending.next {e' : Encoder} {given' : List Byte} {o term : Byte} (h : Sending P c len given sent e)
    (hbusy : e.sub ≠ .idle) (hcmd : e'.cmd = e.cmd) (hlen : e'.len = e.len) (hacc : e'.acc = e.acc + term)
    (hupTo : GivenUpTo e' given') (hsent : leftBy P c len given' e'.sub = leftBy P c len given e.sub ++ [o])
    (hsum : leftBy P (cmdTerm P c) len given' e'.sub = leftBy P (cmdTerm P c) len given e.sub ++ [term]) :
    Sending P c len given' (sent ++ [o]) e' where
  cmd_eq := hcmd.trans h.cmd_eq
  len_eq := hlen.trans h.len_eq
  upTo := hupTo
  sent_eq := by rw [hsent, h.sent_eq]
  acc_eq _ := by simp [hsum, sumBytes_append, ← h.acc_eq hbusy, hacc]

/-- The payload byte that a transfer carries: the byte itself in E_PAYLOAD, none elsewhere. -/
def payloadPart (e : Encoder) (o : Byte) : List Byte := if e.sub = .payload then [o] else []

theorem Sending.advance_lenLo (h : Sending P c len given sent e) (hs : e.sub = .lenLo) :
    Sending P c len given (sent ++ [loByte e.len]) (advance P e (loByte e.len)) := by
  have hbusy : e.sub ≠ .idle := by simp [hs]
  obtain rfl := h.len_eq
  have hupTo := h.upTo
  simp only [GivenUpTo, hs] at hupTo
  obtain ⟨rfl, hidx⟩ := hupTo
  by_cases hlen : e.len = 0
  · rw [advance_lenLo_of_zero hs hlen]
    exact h.next hbusy rfl rfl rfl (by simp [GivenUpTo, hlen]) (by simp [leftBy, hs]) (by simp [leftBy, hs])
  · rw [advance_lenLo_of_ne_zero hs hlen]
    have hpos : e.idx.toNat < e.len.toNat := by simpa [hidx] using toNat_pos_of_ne_zero hlen
    exact h.next hbusy rfl rfl rfl ⟨by simp [hidx], hpos⟩ (by simp [leftBy, hs]) (by simp [leftBy, hs])

theorem Sending.advance_payload (h : Sending P c len given sent e) (hs : e.sub = .payload) (o : Byte) :
    Sending P c len (given ++ [o]) (sent ++ [o]) (advance P e o) := by
  have hbusy : e.sub ≠ .idle := by simp [hs]
  obtain rfl := h.len_eq
  have hupTo := h.upTo
  simp only [GivenUpTo, hs] at hupTo
  obtain ⟨hcount, hlt⟩ := hupTo
  have hcount : (given ++ [o]).length = (e.idx + 1).toNat := by
    rw [toNat_add_one_of_lt hlt, List.length_append, hcount, List.length_singleton]
  by_cases hlast : e.idx + 1 = e.len
  · rw [advance_payload_of_last hs hlast]
    exact h.next hbusy rfl rfl rfl (hlast ▸ hcount) (by simp [leftBy, hs]) (by simp [leftBy, hs])
  · rw [advance_payload_of_not_last hs hlast]
    exact h.next hbusy rfl rfl rfl ⟨hcount, add_one_lt_of_ne hlt hlast⟩ (by simp [leftBy, hs]) (by simp [leftBy, hs])

/-- R247: a transfer moves a busy encoder on by one byte of its frame. -/
theorem Sending.after_transfer (h : Sending P c len given sent e) (hbusy : e.sub ≠ .idle) (i : Inputs) :
    Sending P c len (given ++ payloadPart e (outByte P e i)) (sent ++ [outByte P e i])
      (advance P e (outByte P e i)) := by
  cases hs : e.sub
  case idle => exact absurd hs hbusy
  case lenLo => simpa [payloadPart, outByte, hs] using h.advance_lenLo hs
  case payload => simpa [payloadPart, hs] using h.advance_payload hs (outByte P e i)
  all_goals
    obtain rfl := h.cmd_eq
    obtain rfl := h.len_eq
    have hupTo := h.upTo
    simp only [GivenUpTo, hs] at hupTo
    simp only [advance, outByte, payloadPart, hs, reduceCtorEq, if_false, List.append_nil]
  case head0 | head1 | cmd | lenHi | tail0 | tail1 =>
    exact h.next hbusy rfl rfl rfl hupTo (by simp [leftBy, hs]) (by simp [leftBy, hs])
  case sum =>
    have hchecksum : e.acc = frameChecksum P e.cmd given := by rw [h.acc_eq hbusy, hs, sumBytes_leftBy_sum hupTo]
    refine ⟨rfl, rfl, hupTo, ?_, fun hidle => absurd rfl hidle⟩
    rw [h.sent_eq, hs, hchecksum, leftBy_sum_append hupTo]
    rfl

/-! ### A run of cycles -/

theorem nextBlock_e_of_busy (hr : i.rst = false) (hbusy : b.e.sub ≠ .idle) :
    (nextBlock P b i).e = if xfer b.e i then advance P b.e (outByte P b.e i) else b.e := by
  rw [nextBlock_eq hr, ← encoderPhase_of_busy (a := ackTake b i) hbusy]

theorem sentByte_of_not_rst (hr : i.rst = false) :
    sentByte P b i = if xfer b.e i then some (outByte P b.e i) else none := by
  simp [sentByte, hr]

/-- R248: the external sender's byte is taken when it transfers, and is the byte on the transport. -/
theorem takenByte_of_ext (hr : i.rst = false) (hsrc : b.e.src = .ext) :
    (takenByte P b i).toList = if xfer b.e i then payloadPart b.e (outByte P b.e i) else [] := by
  have hready : ((outputsOf P b i).tx_dready && i.tx_dvalid) = (xfer b.e i && decide (b.e.sub = .payload)) := by
    simpa [outputsOf, hr, hsrc] using txDready_and_dvalid (e := b.e) (i := i)
  unfold takenByte payloadPart
  rw [hready]
  by_cases hx : xfer b.e i = true
  · by_cases hs : b.e.sub = .payload
    · obtain ⟨hvalid, -⟩ : i.tx_dvalid = true ∧ i.out_ready = true := by simpa [xfer, outValid, hs, hsrc] using hx
      simp [hx, hs, outByte, hsrc, hvalid]
    · simp [hs]
  · simp [hx]

/-- R241, R250: a cycle without rst sends the next bytes of an external frame, and takes those of the sender. -/
theorem Sending.after_cycle (h : Sending P c len given sent b.e) (hr : i.rst = false) (hsrc : b.e.src = .ext)
    (hbusy : b.e.sub ≠ .idle) :
    Sending P c len (given ++ (takenByte P b i).toList) (sent ++ (sentByte P b i).toList) (cycle P b i).1.e
      ∧ (cycle P b i).1.e.src = .ext := by
  rw [takenByte_of_ext hr hsrc, sentByte_of_not_rst hr, cycle_fst, nextBlock_e_of_busy hr hbusy]
  split_ifs
  · exact ⟨h.after_transfer hbusy i, (advance_keeps P b.e _).1.trans hsrc⟩
  · simpa using ⟨h, hsrc⟩

theorem busyUntilEnd_cons {ins : List Inputs} (h : BusyUntilEnd P b (i :: ins)) :
    b.e.sub ≠ .idle ∧ BusyUntilEnd P (cycle P b i).1 ins := by
  obtain ⟨hbusy, hidle⟩ := h
  exact ⟨hbusy 0 (by simp), fun k hk => hbusy (k + 1) (by simpa using hk), hidle⟩

/-- R250: a run of cycles without rst, busy up to its end, sends a frame on from where the encoder is in it. -/
theorem Sending.after_run {ins : List Inputs} (h : Sending P c len given sent b.e) (hsrc : b.e.src = .ext)
    (hr : ∀ i ∈ ins, i.rst = false) (hbusy : BusyUntilEnd P b ins) :
    Sending P c len (given ++ takenBytes P b ins) (sent ++ sentBytes P b ins) (runBlock P b ins).e := by
  induction ins generalizing b given sent with
  | nil => simpa [takenBytes, sentBytes, runBlock] using h
  | cons i ins ih =>
    obtain ⟨hri, hr⟩ := List.forall_mem_cons.mp hr
    obtain ⟨hb, hbusy⟩ := busyUntilEnd_cons hbusy
    obtain ⟨hnext, hsrc⟩ := h.after_cycle hri hsrc hb
    simpa only [takenBytes, sentBytes, runBlock, List.append_assoc] using ih hnext hsrc hr hbusy

/-- Settles O46: the encoder is on its way through the frame from the accept on, and at its end once it is idle. -/
theorem externalFrameLeavesWholeAndInOrder : Obligations.ExternalFrameLeavesWholeAndInOrder := by
  intro P b ins c len he hr hbusy
  have hstart : Sending P c len [] [] b.e := by
    rw [he]
    exact ⟨rfl, rfl, ⟨rfl, rfl⟩, rfl, fun _ => rfl⟩
  obtain ⟨-, hlen, hupTo, hsent, -⟩ := hstart.after_run (by rw [he]) hr hbusy
  simp only [GivenUpTo, hbusy.2] at hupTo
  rw [hbusy.2] at hsent
  exact ⟨hlen ▸ hupTo, hsent⟩

end Sys2Proof.Machine

/-! Proofs. 30_encoding.md: decoding and encoding are inverse to each other (R80 to R86, R164). -/

namespace Sys2Proof

variable {P : Params} {c : Byte} {payload tail bytes : List Byte} {i : Instr}

/-! ### The bits of a parallel port's word (R86) -/

/-- One bit of a word, as the line it drives. -/
theorem extractLsb'_one_eq_ofBool {n : Nat} (w : BitVec n) (k : Nat) : w.extractLsb' k 1 = BitVec.ofBool (w.getLsbD k) := by
  ext j hj
  obtain rfl : j = 0 := by omega
  simp

theorem ofBool_getLsbD_zero (w : BitVec 1) : BitVec.ofBool (w.getLsbD 0) = w := by
  rw [← extractLsb'_one_eq_ofBool, BitVec.extractLsb'_eq_self]

theorem getLsbD_ofBool_zero (v : Bool) : (BitVec.ofBool v).getLsbD 0 = v := by
  cases v <;> rfl

/-- in_valid then in_byte. -/
theorem inWord_valid (b : Byte) : ((1 : BitVec 1) ++ b).getLsbD 8 = true := by
  rw [BitVec.getLsbD_append]
  rfl

theorem inWord_byte (b : Byte) : ((1 : BitVec 1) ++ b).extractLsb' 0 8 = b := by
  rw [BitVec.extractLsb'_append_eq_of_add_le (by decide), BitVec.extractLsb'_eq_self]

theorem inWord_of_valid {w : BitVec 9} (h : w.getLsbD 8 = true) : (1 : BitVec 1) ++ w.extractLsb' 0 8 = w := by
  have hvalid : w.extractLsb' 8 1 = 1 := by rw [extractLsb'_one_eq_ofBool, h]; rfl
  rw [← hvalid]
  exact (BitVec.extractLsb'_append_extractLsb'_eq_extractLsb' (start₁ := 0) (len₁ := 8) rfl).trans BitVec.extractLsb'_eq_self

/-- Two lines of one bit each. -/
theorem twoLines_high (v w : Bool) : (BitVec.ofBool v ++ BitVec.ofBool w).getLsbD 1 = v := by
  cases v <;> cases w <;> rfl

theorem twoLines_low (v w : Bool) : (BitVec.ofBool v ++ BitVec.ofBool w).getLsbD 0 = w := by
  cases v <;> cases w <;> rfl

theorem twoLines_of_bits (w : BitVec 2) : BitVec.ofBool (w.getLsbD 1) ++ BitVec.ofBool (w.getLsbD 0) = w := by
  rw [← extractLsb'_one_eq_ofBool, ← extractLsb'_one_eq_ofBool]
  exact (BitVec.extractLsb'_append_extractLsb'_eq_extractLsb' (start₁ := 0) (len₁ := 1) rfl).trans BitVec.extractLsb'_eq_self

/-- tx_req, tx_cmd, tx_len. -/
theorem txWord_req (c : Byte) (l : Half) : ((1 : BitVec 1) ++ c ++ l).getLsbD 24 = true := by
  rw [BitVec.getLsbD_append]
  exact inWord_valid c

theorem txWord_cmd (c : Byte) (l : Half) : ((1 : BitVec 1) ++ c ++ l).extractLsb' 16 8 = c := by
  rw [BitVec.extractLsb'_append_eq_of_le (by decide)]
  exact inWord_byte c

theorem txWord_len (c : Byte) (l : Half) : ((1 : BitVec 1) ++ c ++ l).extractLsb' 0 16 = l := by
  rw [BitVec.extractLsb'_append_eq_of_add_le (by decide), BitVec.extractLsb'_eq_self]

theorem txWord_of_req {w : BitVec 25} (h : w.getLsbD 24 = true) :
    (1 : BitVec 1) ++ w.extractLsb' 16 8 ++ w.extractLsb' 0 16 = w := by
  have hreq : w.extractLsb' 24 1 = 1 := by rw [extractLsb'_one_eq_ofBool, h]; rfl
  have hfront : w.extractLsb' 24 1 ++ w.extractLsb' 16 8 = w.extractLsb' 16 9 :=
    BitVec.extractLsb'_append_extractLsb'_eq_extractLsb' (len₁ := 8) rfl
  rw [← hreq, hfront]
  exact (BitVec.extractLsb'_append_extractLsb'_eq_extractLsb' (start₁ := 0) (len₁ := 16) rfl).trans BitVec.extractLsb'_eq_self

theorem onStrobe_eq_ok {w : BitVec 1} {j : Instr} : onStrobe w j = .ok i ↔ w = 1 ∧ j = i := by
  unfold onStrobe
  split_ifs with h
  · exact ⟨fun hok => ⟨h, Except.ok.inj hok⟩, fun hj => congrArg Except.ok hj.2⟩
  · exact ⟨fun hok => (nomatch hok), fun hj => absurd hj.1 h⟩

/-! ### A frame taken apart (R80, R81) -/

@[simp] theorem payloadFits_iff : payloadFits payload = true ↔ payload.length ≤ 65535 := by simp [payloadFits]

/-- R80, R81: the front of a frame and what follows the payload come apart where `len` says. -/
theorem splitFrame_frameFront (h : payload.length ≤ 65535) :
    splitFrame (frameFront c payload ++ tail) = .ok (c, payload, tail) := by
  simp only [splitFrame, frameFront, List.cons_append, joinBytes_hiByte_loByte, length_toNat h]
  simp

/-- R81: with a byte left after the payload, what was taken apart is the front of a frame and the rest. -/
theorem eq_of_splitFrame (h : splitFrame bytes = .ok (c, payload, tail)) (htail : tail ≠ []) :
    bytes = frameFront c payload ++ tail ∧ payload.length ≤ 65535 := by
  unfold splitFrame at h
  split at h
  · rename_i h0 h1 c' hi lo rest
    split_ifs at h with hhead
    obtain ⟨rfl, rfl⟩ := hhead
    simp only [Except.ok.injEq, Prod.mk.injEq] at h
    obtain ⟨rfl, rfl, rfl⟩ := h
    have hlen : (rest.take (joinBytes hi lo).toNat).length = (joinBytes hi lo).toNat :=
      List.length_take_of_le (le_of_lt (by simpa using htail))
    have hlt := (joinBytes hi lo).isLt
    refine ⟨?_, by omega⟩
    simp [frameFront, hlen]
  · simp at h

/-! ### Frames on the link (R82 to R84, R164) -/

/-- A frame with the right tail and sum is decoded by its command. -/
theorem decodeLink_frameBytes (h : payload.length ≤ 65535) : decodeLink P (frameBytes P c payload) = decodeCmd c payload := by
  simp [decodeLink, frameBytes, splitFrame_frameFront h]

/-- Only such a frame is an operation. -/
theorem eq_of_decodeLink (h : decodeLink P bytes = .ok i) :
    ∃ c payload, bytes = frameBytes P c payload ∧ payload.length ≤ 65535 ∧ decodeCmd c payload = .ok i := by
  unfold decodeLink at h
  split at h
  · simp at h
  · rename_i c payload t0 t1 s hsplit
    split_ifs at h with htail hsum
    obtain ⟨rfl, rfl⟩ := htail
    obtain ⟨hbytes, hfits⟩ := eq_of_splitFrame hsplit (by simp)
    exact ⟨c, payload, by rw [hbytes, hsum, frameBytes], hfits, h⟩
  · simp at h

theorem decodeSummed_summedBytes {f : Frame} (h : f.payload.length ≤ 65535) :
    decodeSummed P (summedBytes P f) = .ok (.checksum (some f)) := by
  simp [decodeSummed, summedBytes, splitFrame_frameFront h]

theorem eq_of_decodeSummed (h : decodeSummed P bytes = .ok i) :
    ∃ f : Frame, bytes = summedBytes P f ∧ f.payload.length ≤ 65535 ∧ i = .checksum (some f) := by
  unfold decodeSummed at h
  split at h
  · simp at h
  · rename_i c payload t0 t1 hsplit
    split_ifs at h with htail
    obtain ⟨rfl, rfl⟩ := htail
    obtain ⟨hbytes, hfits⟩ := eq_of_splitFrame hsplit (by simp)
    exact ⟨⟨c, payload⟩, hbytes, hfits, (Except.ok.inj h).symm⟩
  · simp at h

/-- R83: the operation that a command selects has that command in its word, and the frame's payload. -/
theorem encode_of_decodeCmd (h : decodeCmd c payload = .ok i) :
    encode P i = .link (frameBytes P c payload) ∧ i.wf = payloadFits payload := by
  unfold decodeCmd at h
  split_ifs at h <;> cases h <;> subst c <;> exact ⟨rfl, rfl⟩

/-! ### The two round trips -/

/-- Settles O1: a frame comes apart where it was put together, and a parallel port's word gives back each line's bits. -/
theorem decodeOfEncodeIsTheInstruction : Obligations.DecodeOfEncodeIsTheInstruction := by
  intro P i hwf
  cases i
  case transCmd | ack | fileParam | filePacket | customize => exact decodeLink_frameBytes (payloadFits_iff.mp hwf)
  case checksum frame =>
    cases frame
    · rfl
    · exact decodeSummed_summedBytes (payloadFits_iff.mp hwf)
  case push => simp only [encode, decode, inWord_valid, inWord_byte, if_true]
  case sendFrame => simp only [encode, decode, txWord_req, txWord_cmd, txWord_len, if_true]
  case tryPopParser | byteOut => simp only [encode, decode, getLsbD_ofBool_zero]
  case popBlocking => simp only [encode, decode, twoLines_high, twoLines_low]
  case dispatchDone a => cases a <;> rfl
  all_goals rfl

/-- Settles O2: a link word that decodes is a frame (R80), and a parallel port's word is its lines put together. -/
theorem encodeOfDecodeIsTheWord : Obligations.EncodeOfDecodeIsTheWord := by
  intro P w i h
  cases w
  case link bytes =>
    obtain ⟨c, payload, rfl, hfits, hcmd⟩ := eq_of_decodeLink h
    obtain ⟨hword, hwf⟩ := encode_of_decodeCmd (P := P) hcmd
    exact ⟨hword, hwf.trans (payloadFits_iff.mpr hfits)⟩
  case frameSum bytes =>
    cases bytes
    case none =>
      cases h
      exact ⟨rfl, rfl⟩
    case some bytes =>
      obtain ⟨f, rfl, hfits, rfl⟩ := eq_of_decodeSummed h
      exact ⟨rfl, payloadFits_iff.mpr hfits⟩
  case modeVal v =>
    simp only [decode] at h
    split_ifs at h <;> cases h <;> subst v <;> exact ⟨rfl, rfl⟩
  case rstLine v | replPort v | softReset v | replErr v | stepEn v =>
    obtain ⟨rfl, rfl⟩ := onStrobe_eq_ok.mp h
    exact ⟨rfl, rfl⟩
  case inPort v =>
    simp only [decode] at h
    split_ifs at h with hvalid
    cases h
    exact ⟨congrArg PortWord.inPort (inWord_of_valid hvalid), rfl⟩
  case txPort v =>
    simp only [decode] at h
    split_ifs at h with hreq
    cases h
    exact ⟨congrArg PortWord.txPort (txWord_of_req hreq), rfl⟩
  case dispPort v =>
    simp only [decode] at h
    split_ifs at h with hdone
    cases h
    refine ⟨congrArg PortWord.dispPort ?_, rfl⟩
    have hlines := twoLines_of_bits v
    rwa [hdone] at hlines
  case stepTick v =>
    cases h
    exact ⟨congrArg PortWord.stepTick (twoLines_of_bits v), rfl⟩
  case parserPop v =>
    cases h
    exact ⟨congrArg PortWord.parserPop (ofBool_getLsbD_zero v), rfl⟩
  case outPort v =>
    cases h
    exact ⟨congrArg PortWord.outPort (ofBool_getLsbD_zero v), rfl⟩
  case sampleEmpty | sampleMode | sampleState | ackHandOver =>
    cases h
    exact ⟨rfl, rfl⟩

/-- Settles O3: each word is taken apart by evaluation. -/
theorem specWordsDecodeToTheirOperations : Obligations.SpecWordsDecodeToTheirOperations := by
  refine ⟨?_, ?_, ?_, ?_, ?_, rfl, rfl, rfl, rfl, rfl, rfl, ?_, ?_, ?_, ?_, rfl, rfl⟩ <;> decide

end Sys2Proof

/-! Proofs. 30_encoding.md: a step runs the operation of the next port word (R89, R90), and an operation drives the bits of its
word (R86). -/

namespace Sys2Proof.Machine

/-! ### The step -/

/-- Settles O4: the second way of a step. -/
theorem stepExecutesTheDecodedOperation : Obligations.StepExecutesTheDecodedOperation := by
  intro s e rest i hstim hword
  simp only [step, hstim, hword]
  rfl

/-- Settles O5: a step without stimulus is one cycle under the held lines, which completes in a ready state. -/
theorem stepWithoutStimulusIsOneHeldCycle : Obligations.StepWithoutStimulusIsOneHeldCycle := by
  rintro s ⟨hindexed, -, -⟩ hstim
  have hstep : step s = .next (endCycle s.pins (beginOp .none s)) := by
    simp only [step, hstim, idleStep]
    exact perform_one_of_indexed hindexed
  exact ⟨_, hstep, rfl, rfl, rfl, rfl, hstim⟩

/-! ### An operation drives the bits of its word -/

/-- R80, R86: an operation runs the cycles that the bits of its word drive, and gives a value of its own. -/
theorem exec_eq_perform_rawInputs (i : Instr) (s : State) :
    ∃ ret, exec i s = perform (rawInputs (encode s.params i) s.pins) ret s := by
  cases i
  case push b =>
    refine ⟨.none, ?_⟩
    simp only [encode, rawInputs, inWord_valid, inWord_byte]
    rfl
  case sendFrame c l =>
    refine ⟨.flag (txAcceptOf s.blk (driveTx true c l s.pins)), ?_⟩
    simp only [encode, rawInputs, txWord_req, txWord_cmd, txWord_len]
    rfl
  case tryPopParser v => cases v <;> exact ⟨_, rfl⟩
  case popBlocking v w => cases v <;> cases w <;> exact ⟨_, rfl⟩
  case checksum frame => cases frame <;> exact ⟨_, rfl⟩
  case dispatchDone v => cases v <;> exact ⟨_, rfl⟩
  case byteOut v => cases v <;> exact ⟨_, rfl⟩
  all_goals exact ⟨_, rfl⟩

/-- The value an operation gives is seen neither in the block nor on the outputs. -/
theorem shown_clockAll_ret (is : List Inputs) (ret : Result) (s : State) :
    shown (clockAll is { s with ret := ret }) = shown (clockAll is s) := by
  induction is generalizing s with
  | nil => rfl
  | cons i is ih =>
    simp only [clockAll, clock]
    split_ifs
    · exact ih (endCycle i s)
    · rfl

/-- Settles O6: a word that decodes is the word of its operation, which runs the cycles of the word's bits. -/
theorem decodedOperationDrivesItsBits : Obligations.DecodedOperationDrivesItsBits := by
  intro s w i h
  obtain ⟨rfl, -⟩ := encodeOfDecodeIsTheWord s.params w i h
  obtain ⟨ret, hexec⟩ := exec_eq_perform_rawInputs i s
  rw [hexec]
  exact shown_clockAll_ret _ ret (beginOp .none s)

end Sys2Proof.Machine

/-! Proofs. 43_frame_parser.md: what the parser makes of the bytes of a frame, one after another (R185 to R197). -/

namespace Sys2Proof.Machine

variable {P : Params} {p p' p'' : Parser} {c : Byte} {len : Half} {got xs ys payload : List Byte} {x : Byte}

/-! ### Bytes read with no report -/

/-- R185 to R195: from the parser `p`, the bytes are read one by one, each in a sub-state that reads a byte and none with a
report, and leave `p'`. -/
inductive ReadsTo (P : Params) : Parser → List Byte → Parser → Prop
  | nil (p : Parser) : ReadsTo P p [] p
  | cons {p p' p'' : Parser} {x : Byte} {xs : List Byte} (hreads : p.sub.readsByte = true)
      (hstep : onByte P p x = quietStep p') (htail : ReadsTo P p' xs p'') : ReadsTo P p (x :: xs) p''

theorem readsTo_nil_iff : ReadsTo P p [] p' ↔ p' = p := by
  refine ⟨fun h => ?_, fun h => h ▸ .nil _⟩
  cases h
  rfl

theorem readsTo_cons_iff :
    ReadsTo P p (x :: xs) p'' ↔ ∃ p', p.sub.readsByte = true ∧ onByte P p x = quietStep p' ∧ ReadsTo P p' xs p'' := by
  refine ⟨fun h => ?_, fun ⟨_, hreads, hstep, htail⟩ => .cons hreads hstep htail⟩
  cases h with
  | cons hreads hstep htail => exact ⟨_, hreads, hstep, htail⟩

theorem ReadsTo.append (h : ReadsTo P p xs p') (h' : ReadsTo P p' ys p'') : ReadsTo P p (xs ++ ys) p'' := by
  induction h with
  | nil => exact h'
  | cons hreads hstep _ ih => exact .cons hreads hstep (ih h')

theorem ReadsTo.single (hreads : p.sub.readsByte = true) (hstep : onByte P p x = quietStep p') : ReadsTo P p [x] p' :=
  .cons hreads hstep (.nil p')

/-- Bytes that are read keep the parser's part of the invariant. -/
theorem ReadsTo.parserOk (h : ReadsTo P p xs p') (hp : ParserOk P p) : ParserOk P p' := by
  induction h with
  | nil => exact hp
  | @cons p p' p'' x xs hreads hstep htail ih =>
    have hp' := onByte_ok hp x
    rw [hstep] at hp'
    exact ih hp'

/-- R185: in HEAD0 every byte but 0xFE is dropped. -/
theorem readsTo_reset_of_noHead (h : ∀ x ∈ xs, x ≠ headMagic0) : ReadsTo P Parser.reset xs Parser.reset := by
  induction xs with
  | nil => exact .nil _
  | cons x xs ih =>
    obtain ⟨hx, hxs⟩ := List.forall_mem_cons.mp h
    exact .cons rfl (if_neg hx) (ih hxs)

/-! ### The front of a frame -/

/-- The parser after head, cmd and the high byte of `len`. -/
def atLenLo (P : Params) (c : Byte) (len : Half) : Parser :=
  { Parser.reset with
    sub := .lenLo, cmd := c, len := joinBytes (hiByte len) 0
    acc := headMagic0 + headMagic1 + cmdTerm P c + hiByte len }

/-- R185 to R188: the four bytes before `len` low. -/
theorem readsTo_atLenLo (P : Params) (c : Byte) (len : Half) :
    ReadsTo P Parser.reset [headMagic0, headMagic1, c, hiByte len] (atLenLo P c len) :=
  .cons rfl rfl <| .cons rfl rfl <| .cons rfl rfl <| .single rfl rfl

/-- R189: a frame longer than PAYLOAD_MAX. -/
theorem onByte_atLenLo_of_oversize (h : P.payloadMax < len.toNat) :
    onByte P (atLenLo P c len) (loByte len) = raiseErr .allocationFailure (atLenLo P c len) := by
  simp [onByte, onLenLo, atLenLo, h]

/-- The frame's cmd and len are read, and so are these bytes of its payload. -/
structure InFrame (P : Params) (c : Byte) (len : Half) (got : List Byte) (p : Parser) : Prop where
  ok : ParserOk P p
  cmd_eq : p.cmd = c
  len_eq : p.len = len
  received_eq : received p = got

/-- The parser after the front of a frame, its `len` within PAYLOAD_MAX. -/
def pastLen (P : Params) (c : Byte) (len : Half) : Parser :=
  { atLenLo P c len with
    sub := if len = 0 then .tail0 else .payload, len := len, acc := (atLenLo P c len).acc + loByte len }

/-- R189: a frame within PAYLOAD_MAX goes on with its payload, or with its tail when it has none. -/
theorem onByte_atLenLo_of_fits (h : len.toNat ≤ P.payloadMax) :
    onByte P (atLenLo P c len) (loByte len) = quietStep (pastLen P c len) := by
  have hjoin : joinBytes (hiByte (atLenLo P c len).len) (loByte len) = len := by simp [atLenLo]
  have hmax : ¬ P.payloadMax < len.toNat := Nat.not_lt.mpr h
  change onLenLo P (atLenLo P c len) (loByte len) = _
  simp only [onLenLo, hjoin, if_neg hmax, pastLen]
  split_ifs <;> rfl

theorem readsTo_pastLen (c : Byte) (h : len.toNat ≤ P.payloadMax) :
    ReadsTo P Parser.reset [headMagic0, headMagic1, c, hiByte len, loByte len] (pastLen P c len) :=
  (readsTo_atLenLo P c len).append (.single rfl (onByte_atLenLo_of_fits h))

theorem inFrame_pastLen (c : Byte) (h : len.toNat ≤ P.payloadMax) : InFrame P c len [] (pastLen P c len) :=
  ⟨(readsTo_pastLen c h).parserOk (parserOk_reset P), rfl, rfl, rfl⟩

/-! ### The payload -/

/-- R191: a payload byte joins the bytes received. -/
theorem received_onPayload (hs : p.sub = .payload) (h : ParserOk P p) (x : Byte) :
    received (onPayload p x).p = received p ++ [x] := by
  simp only [ParserOk, hs] at h
  obtain ⟨hlt, -, ⟨hwf, -⟩, -⟩ := h
  simp only [received, onPayload, quietStep_p, toNat_add_one_of_lt hlt]
  exact Memory.firstBytes_write hwf _ _

theorem InFrame.idx_toNat (h : InFrame P c len got p) : p.idx.toNat = got.length := by
  rw [← received_length, h.received_eq]

/-- R191: a payload byte is read; after the last one the tail follows. -/
theorem InFrame.after_payloadByte (h : InFrame P c len got p) (hs : p.sub = .payload) (x : Byte) :
    ∃ p', onByte P p x = quietStep p' ∧ InFrame P c len (got ++ [x]) p'
      ∧ p'.sub = if got.length + 1 = len.toNat then .tail0 else .payload := by
  have hlt : p.idx.toNat < p.len.toNat := by
    have hok := h.ok
    simp only [ParserOk, hs] at hok
    exact hok.1
  refine ⟨(onPayload p x).p, by simp [onByte, hs]; rfl, ⟨onPayload_ok hs h.ok x, h.cmd_eq, h.len_eq, ?_⟩, ?_⟩
  · rw [received_onPayload hs h.ok, h.received_eq]
  · have hlast : p.idx + 1 = p.len ↔ got.length + 1 = len.toNat := by
      rw [← h.idx_toNat, ← h.len_eq, ← toNat_add_one_of_lt hlt]
      exact BitVec.toNat_inj.symm
    simp only [onPayload, quietStep_p, hlast]

/-- R191, R192: the rest of the payload is read, and the tail follows. -/
theorem InFrame.readsTo_payload (h : InFrame P c len got p) (hs : p.sub = if xs = [] then .tail0 else .payload)
    (hlen : got.length + xs.length = len.toNat) :
    ∃ p', ReadsTo P p xs p' ∧ InFrame P c len (got ++ xs) p' ∧ p'.sub = .tail0 := by
  induction xs generalizing p got with
  | nil => exact ⟨p, .nil p, by simpa using h, by simpa using hs⟩
  | cons x xs ih =>
    have hs : p.sub = .payload := by simpa using hs
    obtain ⟨p', hstep, hin, hs'⟩ := h.after_payloadByte hs x
    have hmore : p'.sub = if xs = [] then .tail0 else .payload := by
      rw [hs', ← hlen]
      simp
    obtain ⟨p'', hreads, hin, hs''⟩ := ih hin hmore (by simp at hlen ⊢; omega)
    exact ⟨p'', .cons (by simp [hs, ParserSub.readsByte]) hstep hreads, by simpa using hin, hs''⟩

/-! ### The tail and the sum -/

/-- R193, R194: the tail. -/
theorem InFrame.readsTo_tail (h : InFrame P c len got p) (hs : p.sub = .tail0) :
    ∃ p', ReadsTo P p [tailMagic0 P, tailMagic1 P] p' ∧ InFrame P c len got p' ∧ p'.sub = .sum := by
  have hreads : ReadsTo P p [tailMagic0 P, tailMagic1 P]
      { p with sub := .sum, t0 := tailMagic0 P, acc := p.acc + tailMagic0 P + tailMagic1 P, tim := 0 } :=
    .cons (by simp [hs, ParserSub.readsByte]) (by simp [onByte, hs]; rfl) (.single rfl (by simp [onByte, onTail1]))
  exact ⟨_, hreads, ⟨hreads.parserOk h.ok, h.cmd_eq, h.len_eq, h.received_eq⟩, rfl⟩

/-- R185 to R194: a frame within PAYLOAD_MAX is read up to its sum, with no report. -/
theorem readsTo_sum (c : Byte) (h : payload.length ≤ P.payloadMax) :
    ∃ p, ReadsTo P Parser.reset (summedBytes P ⟨c, payload⟩) p
      ∧ InFrame P c (BitVec.ofNat 16 payload.length) payload p ∧ p.sub = .sum := by
  have hlen := length_toNat (h.trans P.payloadMax_legal)
  have hzero : BitVec.ofNat 16 payload.length = 0 ↔ payload = [] := by
    rw [← BitVec.toNat_inj, hlen]
    simp
  have hfits := hlen.le.trans h
  obtain ⟨p, hpayload, hin, hs⟩ :=
    (inFrame_pastLen c hfits).readsTo_payload (if_congr hzero rfl rfl) (by simpa using hlen.symm)
  obtain ⟨p', htail, hin', hs'⟩ := hin.readsTo_tail hs
  exact ⟨p', ((readsTo_pastLen c hfits).append hpayload).append htail, hin', hs'⟩

/-- R196: at the sum the running checksum is the frame's. -/
theorem InFrame.acc_eq (h : InFrame P c len got p) (hs : p.sub = .sum) : p.acc = frameChecksum P c got := by
  have hok := h.ok
  simp only [ParserOk, hs] at hok
  obtain ⟨⟨-, -, hacc⟩, -⟩ := hok
  rw [hacc, h.cmd_eq, h.received_eq]

/-- R196, R197: the right sum byte leads to the classification by cmd. -/
theorem InFrame.onByte_sum (h : InFrame P c len got p) (hs : p.sub = .sum) :
    onByte P p (frameChecksum P c got) = classify p := by
  simp [onByte, onSum, hs, h.acc_eq hs]

end Sys2Proof.Machine

/-! Proofs. 30_encoding.md: bytes arriving on the link, one a cycle, while the parser reads one cycle behind (R80, R89). -/

namespace Sys2Proof.Machine

/-! ### A run of cycles as an operation -/

/-- The outputs of a run, cycle by cycle. -/
def runOutputs (P : Params) : Block → List Inputs → List Outputs
  | _, [] => []
  | b, i :: rest => outputsOf P b i :: runOutputs P (nextBlock P b i) rest

@[simp] theorem runBlock_nil (P : Params) (b : Block) : runBlock P b [] = b := rfl
@[simp] theorem runBlock_cons (P : Params) (b : Block) (i : Inputs) (is : List Inputs) :
    runBlock P b (i :: is) = runBlock P (nextBlock P b i) is := rfl
@[simp] theorem runOutputs_nil (P : Params) (b : Block) : runOutputs P b [] = [] := rfl
@[simp] theorem runOutputs_cons (P : Params) (b : Block) (i : Inputs) (is : List Inputs) :
    runOutputs P b (i :: is) = outputsOf P b i :: runOutputs P (nextBlock P b i) is := rfl

theorem runBlock_append (P : Params) (b : Block) (is js : List Inputs) :
    runBlock P b (is ++ js) = runBlock P (runBlock P b is) js := by
  induction is generalizing b with
  | nil => rfl
  | cons i is ih => exact ih _

theorem runOutputs_append (P : Params) (b : Block) (is js : List Inputs) :
    runOutputs P b (is ++ js) = runOutputs P b is ++ runOutputs P (runBlock P b is) js := by
  induction is generalizing b with
  | nil => rfl
  | cons i is ih => exact congrArg _ (ih _)

/-- A run is its first `k` cycles and the rest. -/
theorem runBlock_take_drop (P : Params) (b : Block) (is : List Inputs) (k : Nat) :
    runBlock P b is = runBlock P (runBlock P b (is.take k)) (is.drop k) := by
  rw [← runBlock_append, List.take_append_drop]

theorem runOutputs_take_drop (P : Params) (b : Block) (is : List Inputs) (k : Nat) :
    runOutputs P b is = runOutputs P b (is.take k) ++ runOutputs P (runBlock P b (is.take k)) (is.drop k) := by
  rw [← runOutputs_append, List.take_append_drop]

@[simp] theorem runOutputs_length (P : Params) (b : Block) (is : List Inputs) :
    (runOutputs P b is).length = is.length := by
  induction is generalizing b with
  | nil => rfl
  | cons i is ih => exact congrArg _ (ih _)

/-- Under the invariant cycles complete: the block is run over them, and their outputs are recorded. -/
theorem clockAll_of_inv {s : State} (h : s.Inv) (is : List Inputs) :
    clockAll is s
      = .next { s with blk := runBlock s.params s.blk is, outs := s.outs ++ runOutputs s.params s.blk is } := by
  induction is generalizing s with
  | nil => simp [clockAll]
  | cons i is ih =>
    simp only [clockAll, clock_eq (i := i) (s := s) (by simp [indexed_of_ok h]), ih (inv_endCycle i s h)]
    simp

theorem perform_of_inv {s : State} (h : s.Inv) (is : List Inputs) (ret : Result) :
    perform is ret s
      = .next { s with blk := runBlock s.params s.blk is, outs := runOutputs s.params s.blk is, ret := ret } :=
  clockAll_of_inv (inv_beginOp ret h) is

/-! ### What every arriving byte does -/

section Arrival

variable {s : State} {i : Inputs} {b : Block} {n : Nat} {x : Byte} {xs unread : List Byte} {p p' : Parser}

/-- The lines of a cycle of an arrival on the link: the parser steps, and all but the arriving byte is as held. -/
structure LinkCycle (s : State) (i : Inputs) : Prop where
  rst_eq : i.rst = s.pins.rst
  control_eq : ∀ b, controlAction b i = controlAction b s.pins
  step_en : i.step_en = true
  tx_req_eq : i.tx_req = s.pins.tx_req

theorem linkCycle_driveFeedStep (s : State) (x : Byte) : LinkCycle s (driveFeedStep s.pins x) :=
  ⟨rfl, fun _ => rfl, rfl, rfl⟩

theorem linkCycle_driveStep (s : State) : LinkCycle s (driveStep true s.pins) := ⟨rfl, fun _ => rfl, rfl, rfl⟩

/-- The byte that arrives in a cycle. -/
def arriving (i : Inputs) : List Byte := if i.in_valid then [i.in_byte] else []

@[simp] theorem arriving_driveFeedStep (pins : Inputs) (x : Byte) : arriving (driveFeedStep pins x) = [x] := rfl

theorem arriving_driveStep_of_not_valid (h : s.pins.in_valid = false) : arriving (driveStep true s.pins) = [] := by
  simp [arriving, h]

/-- From the state `s` on, `n` bytes have arrived on the link: the mode has stayed, the write cursor has moved on by `n` slots,
and no other slot has been written. -/
structure Hearing (s : State) (n : Nat) (b : Block) : Prop where
  ok : b.Ok s.params
  mode_eq : b.mode = s.blk.mode
  wr_eq : b.q.wr = (s.blk.q.wr + n) % s.params.cap
  kept : ∀ k, (∀ j, j < n → k ≠ (s.blk.q.wr + j) % s.params.cap) → b.q.buf.read k = s.blk.q.buf.read k

theorem Hearing.queueOk (h : Hearing s n b) : QueueOk s.params b.q := by
  obtain ⟨hq, -⟩ := h.ok
  exact hq

theorem hearing_start (h : s.Inv) : Hearing s 0 s.blk := by
  have ⟨⟨hwr, _⟩, _⟩ := h
  exact ⟨h, rfl, (Nat.mod_eq_of_lt hwr).symm, fun _ _ => rfl⟩

/-- Whether a control action is asked for depends on the mode alone of the block. -/
theorem controlAction_of_mode_eq {b' : Block} (h : b.mode = b'.mode) (i : Inputs) :
    controlAction b i = controlAction b' i := by
  simp only [controlAction, modeChange, h]

theorem Hearing.controlAction_eq (h : Hearing s n b) (hi : LinkCycle s i) :
    controlAction b i = controlAction s.blk s.pins :=
  (hi.control_eq b).trans (controlAction_of_mode_eq h.mode_eq _)

@[simp] theorem popPhase_buf (P : Params) (b : Block) (i : Inputs) : (popPhase P b i).buf = b.q.buf := by
  obtain h | h := popPhase_cases P b i <;> simp [h]

/-- R101, R102: a byte is stored at the write cursor, which moves on, whether or not the queue was full. -/
theorem Hearing.cycle (h : Hearing s n b) (hr : s.pins.rst = false) (hc : controlAction s.blk s.pins = false)
    (hi : LinkCycle s i) : Hearing s (n + (arriving i).length) (nextBlock s.params b i) := by
  have hmode : (nextBlock s.params b i).mode = s.blk.mode := by
    rw [nextBlock_eq (hi.rst_eq.trans hr), ← h.mode_eq]
    exact modePhase_of_not_control ((h.controlAction_eq hi).trans hc)
  have hq : (nextBlock s.params b i).q = pushPhase s.params (popPhase s.params b i) i := by
    rw [nextBlock_eq (hi.rst_eq.trans hr)]
  cases hv : i.in_valid
  case false =>
    rw [pushPhase_of_not_valid _ hv] at hq
    simp only [arriving, hv]
    exact ⟨nextBlock_ok h.ok i, hmode, by simp [hq, h.wr_eq], fun k hk => by simp [hq, h.kept k hk]⟩
  case true =>
    simp only [pushPhase, hv, if_true] at hq
    simp only [arriving, hv, if_true, List.length_singleton]
    refine ⟨nextBlock_ok h.ok i, hmode, by simp [hq, qPush, nextSlot, h.wr_eq, Nat.add_assoc], fun k hk => ?_⟩
    have hne : k ≠ b.q.wr := h.wr_eq ▸ hk n (by omega)
    obtain ⟨-, -, hwf, -⟩ := h.queueOk
    simp only [hq, qPush, popPhase_buf, popPhase_wr, Memory.read_write_other hwf _ hne]
    exact h.kept k fun j hj => hk j (by omega)

/-- The bytes arrive, whatever the parser makes of them. -/
theorem Hearing.link (h : Hearing s n b) (hr : s.pins.rst = false) (hc : controlAction s.blk s.pins = false)
    (hv : s.pins.in_valid = false) (xs : List Byte) :
    Hearing s (n + xs.length) (runBlock s.params b (driveLink xs s.pins)) := by
  induction xs generalizing n b with
  | nil =>
    have hnext := h.cycle hr hc (linkCycle_driveStep s)
    rwa [arriving_driveStep_of_not_valid hv] at hnext
  | cons x xs ih =>
    have hnext := ih (h.cycle hr hc (linkCycle_driveFeedStep s x))
    rwa [arriving_driveFeedStep, Nat.add_assoc, List.length_singleton, Nat.add_comm 1] at hnext

/-! ### What the parser reads of the arriving bytes -/

/-- The parser keeps up with the link: it is `p`, and `unread` are the bytes it has not read. No byte was lost, and an idle
encoder with no request has stayed as it was. -/
structure KeepingUp (s : State) (n : Nat) (unread : List Byte) (p : Parser) (b : Block) : Prop extends Hearing s n b where
  parser_eq : b.p = p
  unread_eq : qContents s.params b.q = unread
  ovr_eq : b.q.ovr = s.blk.q.ovr
  encoder_eq : s.blk.e.sub = .idle → s.pins.tx_req = false → b.e = s.blk.e

theorem keepingUp_start (h : Listening s) : KeepingUp s 0 [] Parser.reset s.blk := by
  obtain ⟨hinv, -, -, hp, hempty⟩ := h
  have hstart := hearing_start hinv
  obtain ⟨-, hrd, -⟩ := hstart.queueOk
  exact ⟨hstart, hp, qContents_of_empty hrd hempty, rfl, fun _ _ => rfl⟩

/-- R71: only the empty queue has no unread byte. -/
theorem wr_eq_rd_of_qContents_nil {P : Params} {q : Queue} (h : QueueOk P q) (he : qContents P q = []) : q.wr = q.rd := by
  by_contra hne
  simp [qContents_pop h hne] at he

theorem KeepingUp.rd_eq_wr (h : KeepingUp s n [] p b) : b.q.rd = b.q.wr :=
  (wr_eq_rd_of_qContents_nil h.queueOk h.unread_eq).symm

theorem KeepingUp.pstep (h : KeepingUp s n unread p b) (he : ParserEnabled s) (hi : LinkCycle s i) : pstep b i = true := by
  obtain ⟨hr, hbin, hc⟩ := he
  exact pstep_iff.mpr ⟨hi.rst_eq.trans hr, h.mode_eq.trans hbin, hi.step_en, (h.controlAction_eq hi).trans hc⟩

/-- R181: one unread byte, or none, is none after the pop of a cycle. -/
theorem KeepingUp.qContents_popPhase_eq_nil (h : KeepingUp s n unread p b) (he : ParserEnabled s) (hi : LinkCycle s i)
    (hreads : p.sub.readsByte = true) (hone : unread.length ≤ 1) :
    qContents s.params (popPhase s.params b i) = [] := by
  obtain ⟨-, hrd, -⟩ := h.queueOk
  rw [qContents_popPhase h.queueOk, h.unread_eq]
  cases hq : qEmpty b.q
  case true =>
    have hnil : unread = [] := h.unread_eq ▸ qContents_of_empty hrd (qEmpty_iff.mp hq)
    simp [hnil]
  case false =>
    have htakes : parserTakes b i = true := by simp [parserTakes, h.pstep he hi, h.parser_eq, hreads, hq]
    rw [htakes, Bool.or_true, if_pos rfl]
    exact List.eq_nil_of_length_eq_zero (by simp; omega)

/-- A cycle shows the report of the parser's step. -/
def Reports (o : Outputs) (r : ParserStep) : Prop := o.evt = r.evt ∧ o.rx_ack = r.rxAck

/-- R181: in a cycle of the arrival the parser makes its step, and the byte that arrives is the one left unread. -/
theorem KeepingUp.cycle (h : KeepingUp s n unread p b) (he : ParserEnabled s) (hi : LinkCycle s i)
    (hreads : p.sub.readsByte = true) (hone : unread.length ≤ 1) :
    KeepingUp s (n + (arriving i).length) (arriving i) (parserStep s.params b i).p (nextBlock s.params b i)
      ∧ Reports (outputsOf s.params b i) (parserStep s.params b i) := by
  have hstep := h.pstep he hi
  have hunread := h.qContents_popPhase_eq_nil he hi hreads hone
  obtain ⟨hr, -, hc⟩ := he
  have hri := hi.rst_eq.trans hr
  have hci := (h.controlAction_eq hi).trans hc
  have hpop := popPhase_ok h.queueOk i
  have hroom := not_qFull_of_empty hpop (wr_eq_rd_of_qContents_nil hpop hunread)
  have hack : ackTake b i = false := ackTake_of_readsByte (h.parser_eq ▸ hreads)
  refine ⟨⟨h.toHearing.cycle hr hc hi, ?_, ?_, ?_, fun hidle hreq => ?_⟩, ?_⟩
  · simp [nextBlock_eq hri, hci, parserPhase_of_pstep hstep]
  · rw [nextBlock_eq hri]
    simp only [pushPhase, arriving]
    split_ifs
    · rw [qContents_push hpop hroom, hunread, List.nil_append]
    · exact hunread
  · simp [nextBlock_ovr hri, hroom, h.ovr_eq]
  · have hb := h.encoder_eq hidle hreq
    simp only [nextBlock_eq hri, hb, encoderPhase_of_idle hidle, hack, hi.tx_req_eq, hreq]
    rfl
  · simp [Reports, outputsOf, eventOf, rxAckOf, hri, hci, parserPhase_of_pstep hstep]

/-- R185 to R197: the unread byte is read by the rule of the sub-state. -/
theorem KeepingUp.reads (h : KeepingUp s n [x] p b) (he : ParserEnabled s) (hi : LinkCycle s i)
    (hreads : p.sub.readsByte = true) :
    KeepingUp s (n + (arriving i).length) (arriving i) (onByte s.params p x).p (nextBlock s.params b i)
      ∧ Reports (outputsOf s.params b i) (onByte s.params p x) := by
  obtain ⟨hne, hfront⟩ := qFront_of_contents h.queueOk h.unread_eq
  have hstep : parserStep s.params b i = onByte s.params p x := by
    rw [parserStep_of_byte (h.parser_eq ▸ hreads) hne, h.parser_eq, hfront]
  exact hstep ▸ h.cycle he hi hreads le_rfl

/-- R183, D10: in HEAD0 the parser waits for a byte without a budget. -/
theorem KeepingUp.waits (h : KeepingUp s n [] Parser.reset b) (he : ParserEnabled s) (hi : LinkCycle s i) :
    KeepingUp s (n + (arriving i).length) (arriving i) Parser.reset (nextBlock s.params b i)
      ∧ Reports (outputsOf s.params b i) (quietStep Parser.reset) := by
  have hstep : parserStep s.params b i = quietStep Parser.reset := by
    rw [parserStep_of_empty (h.parser_eq ▸ rfl) h.rd_eq_wr.symm, h.parser_eq]
    rfl
  have hnext := h.cycle he hi rfl (Nat.zero_le 1)
  rwa [hstep] at hnext

theorem allSilent_cons {o : Outputs} {outs : List Outputs} (ho : Reports o (quietStep p)) (h : AllSilent outs) :
    AllSilent (o :: outs) :=
  List.forall_mem_cons.mpr ⟨ho, h⟩

/-- The unread byte and those that arrive before the last cycle are read one by one. -/
theorem KeepingUp.run (h : KeepingUp s n [x] p b) (he : ParserEnabled s) (hi : LinkCycle s i)
    (hreads : ReadsTo s.params p (x :: xs) p') :
    KeepingUp s (n + xs.length + (arriving i).length) (arriving i) p'
        (runBlock s.params b (xs.map (driveFeedStep s.pins) ++ [i]))
      ∧ AllSilent (runOutputs s.params b (xs.map (driveFeedStep s.pins) ++ [i])) := by
  induction xs generalizing n x p b with
  | nil =>
    obtain ⟨q, hbyte, hstep, hnil⟩ := readsTo_cons_iff.mp hreads
    obtain rfl := readsTo_nil_iff.mp hnil
    obtain ⟨hnext, hout⟩ := h.reads he hi hbyte
    rw [hstep] at hnext hout
    exact ⟨hnext, allSilent_cons hout (by simp [AllSilent])⟩
  | cons y xs ih =>
    obtain ⟨q, hbyte, hstep, hreads⟩ := readsTo_cons_iff.mp hreads
    obtain ⟨hnext, hout⟩ := h.reads he (linkCycle_driveFeedStep s y) hbyte
    rw [hstep] at hnext hout
    obtain ⟨hrun, houts⟩ := ih hnext hreads
    exact ⟨by simpa [Nat.add_assoc, Nat.add_comm 1] using hrun, allSilent_cons hout houts⟩

/-- R80, R89: bytes that arrive at a listening parser are read one cycle behind. -/
theorem Listening.run (h : Listening s) (hi : LinkCycle s i) (hreads : ReadsTo s.params Parser.reset xs p') (hne : xs ≠ []) :
    KeepingUp s (xs.length + (arriving i).length) (arriving i) p'
        (runBlock s.params s.blk (xs.map (driveFeedStep s.pins) ++ [i]))
      ∧ AllSilent (runOutputs s.params s.blk (xs.map (driveFeedStep s.pins) ++ [i])) := by
  obtain ⟨x, xs, rfl⟩ := List.exists_cons_of_ne_nil hne
  have hstart := keepingUp_start h
  obtain ⟨-, he, -⟩ := h
  obtain ⟨hnext, hout⟩ := hstart.waits he (linkCycle_driveFeedStep s x)
  obtain ⟨hrun, houts⟩ := hnext.run he hi hreads
  exact ⟨by simpa [Nat.add_comm 1] using hrun, allSilent_cons hout houts⟩

end Arrival

end Sys2Proof.Machine

/-! Proofs. 43_frame_parser.md: a whole frame that arrives at a listening parser, by its command (R84, R196, R197) and beyond
PAYLOAD_MAX (R81, R189, R322). -/

namespace Sys2Proof.Machine

variable {P : Params} {s : State} {c y : Byte} {len : Half} {payload ys : List Byte} {p : Parser}

/-! ### A frame up to its classification -/

theorem frameBytes_eq_summedBytes (P : Params) (c : Byte) (payload : List Byte) :
    frameBytes P c payload = summedBytes P ⟨c, payload⟩ ++ [frameChecksum P c payload] := by
  simp [frameBytes, summedBytes]

@[simp] theorem summedBytes_length (P : Params) (f : Frame) : (summedBytes P f).length = f.payload.length + 7 := by
  simp [summedBytes, frameFront]

theorem driveLink_append_singleton (xs : List Byte) (x : Byte) (pins : Inputs) :
    driveLink (xs ++ [x]) pins = xs.map (driveFeedStep pins) ++ [driveFeedStep pins x] ++ [driveStep true pins] := by
  simp [driveLink]

/-- R196, R197: a frame within PAYLOAD_MAX is read with no report up to its sum, and classified in the last cycle. -/
theorem Listening.classifies (h : Listening s) (c : Byte) (hmax : payload.length ≤ s.params.payloadMax) :
    ∃ p, InFrame s.params c (BitVec.ofNat 16 payload.length) payload p ∧ p.sub = .sum
      ∧ KeepingUp s (payload.length + 8) [] (classify p).p
          (runBlock s.params s.blk (driveLink (frameBytes s.params c payload) s.pins))
      ∧ ∃ front last, runOutputs s.params s.blk (driveLink (frameBytes s.params c payload) s.pins) = front ++ [last]
          ∧ AllSilent front ∧ Reports last (classify p) := by
  obtain ⟨p, hreads, hin, hsub⟩ := readsTo_sum c hmax
  obtain ⟨hrun, hsilent⟩ :=
    h.run (linkCycle_driveFeedStep s (frameChecksum s.params c payload)) hreads (by simp [summedBytes, frameFront])
  obtain ⟨-, he, hv, -⟩ := h
  obtain ⟨hlast, hout⟩ := hrun.reads (x := frameChecksum s.params c payload) he (linkCycle_driveStep s)
    (by simp [hsub, ParserSub.readsByte])
  rw [hin.onByte_sum hsub] at hlast hout
  rw [frameBytes_eq_summedBytes, driveLink_append_singleton, runBlock_append, runOutputs_append]
  rw [summedBytes_length, arriving_driveStep_of_not_valid hv] at hlast
  exact ⟨p, hin, hsub, hlast, _, _, rfl, hsilent, hout⟩

theorem classify_of_dispatched
    (h : p.cmd = cmdTransCmd ∨ p.cmd = cmdFileParam ∨ p.cmd = cmdFilePacket ∨ p.cmd = cmdCustomize) :
    classify p = quietStep { p with sub := .dispatch, tim := 0 } := if_pos h

theorem classify_of_ack (h : p.cmd = cmdAck) : classify p = { p := Parser.reset, evt := .none, rxAck := true } := by
  simp [classify, h]

/-- R84: outside the closed set of commands. -/
theorem classify_of_unknown (h1 : p.cmd ≠ cmdTransCmd) (h2 : p.cmd ≠ cmdAck) (h3 : p.cmd ≠ cmdFileParam)
    (h4 : p.cmd ≠ cmdFilePacket) (h5 : p.cmd ≠ cmdCustomize) : classify p = raiseErr .unknownCommand p := by
  rw [classify, if_neg (by tauto), if_neg h2]

/-! ### The commands -/

/-- Settles O34: the frame is classified in its last cycle, which leaves the scratch storage as the frame filled it. -/
theorem validFrameIsDispatchedWithItsPayload : Obligations.ValidFrameIsDispatchedWithItsPayload := by
  intro s payload h hmax i c hi
  have hexec : exec i s = receiveFrame c payload s := by
    obtain ⟨rfl, rfl⟩ | ⟨rfl, rfl⟩ | ⟨rfl, rfl⟩ | ⟨rfl, rfl⟩ := hi <;> rfl
  have hc : c = cmdTransCmd ∨ c = cmdFileParam ∨ c = cmdFilePacket ∨ c = cmdCustomize := by tauto
  obtain ⟨p, hin, hsub, hkeeps, front, last, houts, hfront, hlast⟩ := h.classifies c hmax
  obtain ⟨hinv, ⟨-, hbin, -⟩, -⟩ := h
  rw [classify_of_dispatched (hin.cmd_eq ▸ hc)] at hkeeps hlast
  refine ⟨_, hexec.trans (perform_of_inv hinv _ _), ?_⟩
  have hp := hkeeps.parser_eq
  have hbuf : p.buf.firstBytes payload.length = payload := hin.idx_toNat ▸ hin.received_eq
  dsimp only
  rw [hp]
  refine ⟨rfl, hin.cmd_eq, ?_, hbuf, hin.acc_eq hsub, ?_, ?_, hkeeps.mode_eq.trans hbin, hkeeps.wr_eq, hkeeps.rd_eq_wr,
    hkeeps.ovr_eq, hkeeps.kept, hkeeps.encoder_eq⟩
  · exact (congrArg BitVec.toNat hin.len_eq).trans (length_toNat (hmax.trans s.params.payloadMax_legal))
  · rw [houts]
    exact List.forall_mem_append.mpr ⟨hfront, List.forall_mem_singleton.mpr hlast⟩
  · simp [driveLink]

/-- Settles O35: an ACK frame is classified by the pulse and reset(). -/
theorem receivedAckFramePulsesRxAck : Obligations.ReceivedAckFramePulsesRxAck := by
  intro s payload h hmax
  obtain ⟨p, hin, -, hkeeps, front, last, houts, hfront, hlast⟩ := h.classifies cmdAck hmax
  obtain ⟨hinv, ⟨-, hbin, -⟩, -⟩ := h
  rw [classify_of_ack hin.cmd_eq] at hkeeps hlast
  obtain ⟨hevt, hack⟩ := hlast
  exact ⟨_, front, last, perform_of_inv hinv _ _, houts, hfront, hack, hevt, hkeeps.parser_eq, hkeeps.mode_eq.trans hbin,
    hkeeps.wr_eq, hkeeps.rd_eq_wr, hkeeps.ovr_eq, hkeeps.kept, hkeeps.encoder_eq⟩

/-- R82 to R84: bytes on the link that are no operation arrive all the same (log 13). -/
theorem step_of_link_error {bytes : List Byte} {err : DecodeError} (h : decode s.params (.link bytes) = .error err)
    (rest : List Stimulus) :
    step { s with stim := { word := .link bytes, pins := s.pins } :: rest }
      = perform (driveLink bytes s.pins) .none { s with stim := rest } := by
  simp only [step, h]
  rfl

theorem decode_frameBytes_of_unknown (hfits : payload.length ≤ 65535) (h1 : c ≠ cmdTransCmd) (h2 : c ≠ cmdAck)
    (h3 : c ≠ cmdFileParam) (h4 : c ≠ cmdFilePacket) (h5 : c ≠ cmdCustomize) :
    decode P (.link (frameBytes P c payload)) = .error .unknownCommand := by
  rw [decode, decodeLink_frameBytes hfits]
  simp only [decodeCmd, if_neg h1, if_neg h2, if_neg h3, if_neg h4, if_neg h5]

/-- Settles O36: the frame is no operation, its bytes arrive, and it is classified by the error. -/
theorem unknownCommandFrameIsDiscarded : Obligations.UnknownCommandFrameIsDiscarded := by
  intro s c payload rest h hmax h1 h2 h3 h4 h5
  have hword := decode_frameBytes_of_unknown (P := s.params) (hmax.trans s.params.payloadMax_legal) h1 h2 h3 h4 h5
  obtain ⟨p, hin, -, hkeeps, front, last, houts, hfront, hlast⟩ := h.classifies c hmax
  obtain ⟨hinv, ⟨-, hbin, -⟩, -⟩ := h
  obtain rfl := hin.cmd_eq
  rw [classify_of_unknown h1 h2 h3 h4 h5] at hkeeps hlast
  obtain ⟨hevt, hack⟩ := hlast
  have hrest : State.Inv { s with stim := rest } := hinv
  exact ⟨_, front, last, (step_of_link_error hword rest).trans (perform_of_inv hrest _ _), houts, hfront, hevt, hack,
    hkeeps.parser_eq, hkeeps.mode_eq.trans hbin, hkeeps.wr_eq, hkeeps.rd_eq_wr, hkeeps.ovr_eq, hkeeps.kept,
    hkeeps.encoder_eq⟩

/-! ### A frame longer than PAYLOAD_MAX -/

/-- R189: the frame's `len` is read in the sixth cycle, in which its first payload byte arrives, and fails allocation. -/
theorem Listening.failsAllocation (h : Listening s) (c : Byte) (hmax : s.params.payloadMax < (y :: ys).length)
    (hfits : (y :: ys).length ≤ 65535) :
    let first := (driveLink (frameBytes s.params c (y :: ys)) s.pins).take 6
    KeepingUp s 6 [y] Parser.reset (runBlock s.params s.blk first)
      ∧ ∃ front o, runOutputs s.params s.blk first = front ++ [o] ∧ front.length = 5 ∧ AllSilent front
          ∧ o.evt = .allocationFailure ∧ o.rx_ack = false := by
  have hlen := length_toNat hfits
  let len : Half := BitVec.ofNat 16 (y :: ys).length
  obtain ⟨hrun, hsilent⟩ := h.run (linkCycle_driveFeedStep s (loByte len)) (readsTo_atLenLo s.params c len) (by simp)
  obtain ⟨-, he, -⟩ := h
  obtain ⟨hnext, hout⟩ := hrun.reads (x := loByte len) he (linkCycle_driveFeedStep s y) rfl
  rw [onByte_atLenLo_of_oversize (hlen.symm ▸ hmax)] at hnext hout
  exact ⟨hnext, _, _, rfl, rfl, hsilent, hout⟩

/-- R185, R322: with no head among them, the bytes that go on arriving are dropped. -/
theorem KeepingUp.drops {n : Nat} {b : Block} (h : KeepingUp s n [y] Parser.reset b) (he : ParserEnabled s)
    (hv : s.pins.in_valid = false) (hys : ∀ x ∈ y :: ys, x ≠ headMagic0) :
    KeepingUp s (n + ys.length) [] Parser.reset (runBlock s.params b (driveLink ys s.pins))
      ∧ AllSilent (runOutputs s.params b (driveLink ys s.pins)) := by
  have hrun := h.run he (linkCycle_driveStep s) (readsTo_reset_of_noHead hys)
  rwa [arriving_driveStep_of_not_valid hv] at hrun

/-- Settles O38: the allocation fails in the sixth cycle; the bytes after `len` arrive whatever the parser makes of them, and
those that are no head are dropped. -/
theorem oversizeFrameFailsAllocation : Obligations.OversizeFrameFailsAllocation := by
  intro s payload h hmax hfits i c hi
  have hexec : exec i s = receiveFrame c payload s := by
    obtain ⟨rfl, rfl⟩ | ⟨rfl, rfl⟩ | ⟨rfl, rfl⟩ | ⟨rfl, rfl⟩ | ⟨rfl, rfl⟩ := hi <;> rfl
  obtain ⟨y, ys, rfl⟩ : ∃ y ys, payload = y :: ys := List.exists_cons_of_length_pos (Nat.zero_lt_of_lt hmax)
  obtain ⟨hfailed, front, o, hsix, hlen, hfront, hevt, hack⟩ := h.failsAllocation c hmax hfits
  obtain ⟨hinv, he, hv, -⟩ := h
  have ⟨hr, hbin, hc⟩ := he
  intro cycles failed
  let rest := (frameBytes s.params c (y :: ys)).drop 6
  have hrest : cycles.drop 6 = driveLink rest s.pins := rfl
  have hcount : 6 + rest.length = (y :: ys).length + 8 := by simp [rest]; omega
  have hblk : runBlock s.params s.blk cycles = runBlock s.params failed (driveLink rest s.pins) :=
    runBlock_take_drop _ _ _ 6
  have houts : runOutputs s.params s.blk cycles = front ++ o :: runOutputs s.params failed (driveLink rest s.pins) := by
    rw [runOutputs_take_drop _ _ cycles 6, hsix, List.append_assoc]
    rfl
  have hheard : Hearing s ((y :: ys).length + 8) (runBlock s.params failed (driveLink rest s.pins)) :=
    hcount ▸ hfailed.toHearing.link hr hc hv rest
  have hrun : exec i s = .next { s with
      blk := runBlock s.params failed (driveLink rest s.pins)
      outs := front ++ o :: runOutputs s.params failed (driveLink rest s.pins)
      ret := .none } := by
    rw [← hblk, ← houts]
    exact hexec.trans (perform_of_inv hinv cycles .none)
  refine ⟨_, front, _, o, hrun, rfl, hlen, hfront, hevt, hack, hfailed.parser_eq, hfailed.unread_eq, hrest ▸ rfl,
    hheard.mode_eq.trans hbin, hheard.wr_eq, hheard.kept, fun hnohead => ?_⟩
  obtain ⟨hkeeps, hsilent⟩ := hfailed.drops he hv (ys := rest) hnohead
  exact ⟨hsilent, hkeeps.parser_eq, hkeeps.rd_eq_wr, hkeeps.ovr_eq⟩

end Sys2Proof.Machine

/-! Proofs. 40_bytequeue.md: which cycles pop (R100, R105, R106), and pushes that no pop takes apart (R109). -/

namespace Sys2Proof.Machine

variable {P : Params} {q : Queue} {b : Block} {i : Inputs} {xs : List Byte}

/-! ### Which cycles pop -/

theorem pstep_of_asciiRepl (h : b.mode = .asciiRepl) : pstep b i = false := by simp [pstep, h]

theorem pstep_of_not_step_en (h : i.step_en = false) : pstep b i = false := by simp [pstep, h]

theorem parserTakes_of_not_pstep (h : pstep b i = false) : parserTakes b i = false := by simp [parserTakes, h]

theorem replTakes_of_not_pop (h : i.repl_pop = false) : replTakes b i = false := by simp [replTakes, h]

theorem replTakes_of_binaryFrame (h : b.mode = .binaryFrame) : replTakes b i = false := by simp [replTakes, h]

/-- R106, R181: quiet lines pop nothing. -/
theorem Quiet.not_takes (h : Quiet i) (b : Block) : (replTakes b i || parserTakes b i) = false := by
  rw [replTakes_of_not_pop h.repl_pop, parserTakes_of_not_pstep (pstep_of_not_step_en h.step_en), Bool.or_self]

/-- R101: the push of a cycle is that of the byte that arrives, if one does. -/
theorem pushPhase_eq_foldl (P : Params) (q : Queue) (i : Inputs) : pushPhase P q i = (arriving i).foldl (qPush P) q := by
  unfold pushPhase arriving
  split_ifs <;> rfl

/-- R316: in a cycle that pops nothing the queue takes the arriving byte. -/
theorem nextBlock_q_of_not_takes (hr : i.rst = false) (ht : (replTakes b i || parserTakes b i) = false) :
    (nextBlock P b i).q = (arriving i).foldl (qPush P) b.q := by
  rw [nextBlock_eq hr, popPhase_of_not_takes ht]
  exact pushPhase_eq_foldl P b.q i

/-- R137, R180: without its enable the parser holds, and with no control action the mode does. -/
theorem nextBlock_of_not_pstep (hr : i.rst = false) (hc : controlAction b i = false) (hs : pstep b i = false) :
    (nextBlock P b i).p = b.p ∧ (nextBlock P b i).mode = b.mode := by
  rw [nextBlock_eq hr, hc, parserPhase_of_not_pstep hs]
  exact ⟨rfl, modePhase_of_not_control hc⟩

/-! ### The capacity -/

/-- R61: every cycle keeps the queue's form, whatever the other units hold. -/
theorem nextBlock_queueOk (h : QueueOk P b.q) (i : Inputs) : QueueOk P (nextBlock P b i).q := by
  cases hr : i.rst
  case true =>
    rw [nextBlock_of_rst hr]
    exact queueOk_reset P
  case false =>
    rw [nextBlock_eq hr]
    exact pushPhase_ok (popPhase_ok h i) i

theorem qContents_length_le (P : Params) (q : Queue) : (qContents P q).length ≤ P.cap - 1 := by
  have hlt := qCount_lt P q
  rw [qContents_length]
  omega

/-- R101, R109: pushes for which there is room append their bytes in order and set no flag. -/
theorem pushes_append (h : QueueOk P q) (hroom : qCount P q + xs.length < P.cap) :
    QueueOk P (xs.foldl (qPush P) q) ∧ qContents P (xs.foldl (qPush P) q) = qContents P q ++ xs
      ∧ (xs.foldl (qPush P) q).ovr = q.ovr := by
  induction xs generalizing q with
  | nil => exact ⟨h, (List.append_nil _).symm, rfl⟩
  | cons x xs ih =>
    rw [List.length_cons] at hroom
    have hnotFull : ¬ qFull P q = true := by
      rw [qFull_iff_count h]
      omega
    have hpush := qContents_push h hnotFull x
    have hcount : qCount P (qPush P q x) = qCount P q + 1 := by simpa using congrArg List.length hpush
    obtain ⟨hok, hcontents, hovr⟩ := ih (h.push x) (by omega)
    exact ⟨hok, by simpa [hpush] using hcontents, by simpa [hnotFull] using hovr⟩

/-- R109: as many pushes as an empty queue has room for lose nothing and set no flag. -/
theorem pushes_of_empty (h : QueueOk P q) (he : q.wr = q.rd) (hroom : xs.length < P.cap) :
    QueueOk P (xs.foldl (qPush P) q) ∧ qContents P (xs.foldl (qPush P) q) = xs ∧ (xs.foldl (qPush P) q).ovr = q.ovr := by
  have hempty := qContents_of_empty h.2.1 he
  have hcount : qCount P q = 0 := by rw [← qContents_length, hempty, List.length_nil]
  simpa [hempty] using pushes_append h (xs := xs) (by omega)

/-- R23, R109: C - 1 pushes fill an empty queue. -/
theorem qFull_pushes (h : QueueOk P q) (he : q.wr = q.rd) (hlen : xs.length = P.cap - 1) :
    qFull P (xs.foldl (qPush P) q) = true := by
  have hcap := P.cap_legal
  obtain ⟨hok, hcontents, -⟩ := pushes_of_empty h he (xs := xs) (by omega)
  rw [qFull_iff_count hok, ← qContents_length, hcontents, hlen]

/-- R102, R109: the C-th push into an empty queue overruns it. -/
theorem pushes_overrun (h : QueueOk P q) (he : q.wr = q.rd) (hlen : xs.length = P.cap) :
    (xs.foldl (qPush P) q).ovr = true := by
  have hcap := P.cap_legal
  obtain ⟨front, x, rfl⟩ : ∃ front x, xs = front ++ [x] := by
    simpa using List.eq_nil_or_concat xs |>.resolve_left (List.ne_nil_of_length_pos (by omega))
  have hfull := qFull_pushes h he (xs := front) (by simp at hlen; omega)
  simp [hfull]

/-- R100, R109: under quiet lines each cycle of a push pops nothing. -/
theorem runBlock_driveIn_q {pins : Inputs} (h : Quiet pins) (b : Block) (xs : List Byte) :
    (runBlock P b (xs.map fun x => driveIn true x pins)).q = xs.foldl (qPush P) b.q := by
  induction xs generalizing b with
  | nil => rfl
  | cons x xs ih =>
    have hpush : (nextBlock P b (driveIn true x pins)).q = qPush P b.q x :=
      nextBlock_q_of_not_takes (i := driveIn true x pins) h.rst (h.not_takes b)
    rw [List.map_cons, runBlock_cons, ih, hpush, List.foldl_cons]

/-- Settles O20: under quiet lines the queue after the run is the pushes on the empty queue. -/
theorem queueHoldsOneLessThanItsCapacity : Obligations.QueueHoldsOneLessThanItsCapacity := by
  refine ⟨fun P q _ => qContents_length_le P q,
    fun P b i h => ⟨nextBlock_queueOk h i, qContents_length_le P _⟩, fun P b pins h hquiet he => ?_⟩
  have hcap := P.cap_legal
  simp only [runBlock_driveIn_q hquiet]
  have hkept (bytes : List Byte) (hroom : bytes.length < P.cap) :
      qContents P (bytes.foldl (qPush P) b.q) = bytes ∧ (bytes.foldl (qPush P) b.q).ovr = b.q.ovr :=
    (pushes_of_empty h he hroom).2
  refine ⟨fun bytes => ⟨fun hlen => hkept bytes (by omega), fun hlen => qFull_iff.mp (qFull_pushes h he hlen),
    pushes_overrun h he⟩, fun c payload hlen => hkept _ ?_⟩
  rw [frameBytes_length]
  omega

end Sys2Proof.Machine

/-! Proofs. 40_bytequeue.md: in AsciiRepl mode the bytes that arrive on the link are left for the REPL (R100, R137, R313). -/

namespace Sys2Proof.Machine

section Collection

variable {s : State} {i : Inputs} {b : Block} {got : List Byte}

/-- R100, R137: from the state `s` on, the bytes `got` have arrived on the link and have been pushed, and nothing else has
happened: the parser has not stepped, and an idle encoder with no request has stayed as it was. -/
structure Collecting (s : State) (got : List Byte) (b : Block) : Prop extends Hearing s got.length b where
  queue_eq : b.q = got.foldl (qPush s.params) s.blk.q
  parser_eq : b.p = s.blk.p
  encoder_eq : s.blk.e.sub = .idle → s.pins.tx_req = false → b.e = s.blk.e

theorem collecting_start (h : s.Inv) : Collecting s [] s.blk := ⟨hearing_start h, rfl, rfl, fun _ _ => rfl⟩

/-- The held lines under which the REPL's bytes collect: AsciiRepl mode, no rst, no control action and no pop. -/
structure ReplWaits (s : State) : Prop where
  rst : s.pins.rst = false
  mode : s.blk.mode = .asciiRepl
  control : controlAction s.blk s.pins = false
  repl_pop : s.pins.repl_pop = false

/-- R137, R180: a cycle of the arrival pushes its byte and reports nothing. -/
theorem Collecting.cycle (h : Collecting s got b) (hw : ReplWaits s) (hi : LinkCycle s i) (hpop : i.repl_pop = false) :
    Collecting s (got ++ arriving i) (nextBlock s.params b i)
      ∧ (outputsOf s.params b i).evt = .none ∧ (outputsOf s.params b i).rx_ack = false := by
  have hr := hi.rst_eq.trans hw.rst
  have hc := (h.controlAction_eq hi).trans hw.control
  have hstep : pstep b i = false := pstep_of_asciiRepl (h.mode_eq.trans hw.mode)
  have htakes : (replTakes b i || parserTakes b i) = false := by
    rw [replTakes_of_not_pop hpop, parserTakes_of_not_pstep hstep, Bool.or_self]
  have hack : ackTake b i = false := by simp [ackTake, hstep]
  refine ⟨⟨?_, ?_, ?_, fun hidle hreq => ?_⟩, ?_⟩
  · rw [List.length_append]
    exact h.toHearing.cycle hw.rst hw.control hi
  · rw [nextBlock_q_of_not_takes hr htakes, h.queue_eq, List.foldl_append]
  · exact (nextBlock_of_not_pstep hr hc hstep).1.trans h.parser_eq
  · simp [nextBlock_eq hr, h.encoder_eq hidle hreq, encoderPhase_of_idle hidle, hack, hi.tx_req_eq, hreq]
  · simp [outputsOf, eventOf, rxAckOf, hr, hc, parserPhase_of_not_pstep hstep]

/-- R80, R313: the bytes that arrive on the link collect in the queue. -/
theorem Collecting.link (h : Collecting s got b) (hw : ReplWaits s) (hv : s.pins.in_valid = false) (xs : List Byte) :
    Collecting s (got ++ xs) (runBlock s.params b (driveLink xs s.pins))
      ∧ AllSilent (runOutputs s.params b (driveLink xs s.pins)) := by
  induction xs generalizing got b with
  | nil =>
    obtain ⟨hnext, hout⟩ := h.cycle hw (linkCycle_driveStep s) hw.repl_pop
    rw [arriving_driveStep_of_not_valid hv] at hnext
    exact ⟨hnext, List.forall_mem_singleton.mpr hout⟩
  | cons x xs ih =>
    obtain ⟨hnext, hout⟩ := h.cycle hw (linkCycle_driveFeedStep s x) hw.repl_pop
    obtain ⟨hrun, houts⟩ := ih hnext
    rw [arriving_driveFeedStep, List.append_assoc] at hrun
    exact ⟨hrun, List.forall_mem_cons.mpr ⟨hout, houts⟩⟩

end Collection

/-- Settles O40: the frame's bytes collect in the empty queue, which has room for them. -/
theorem asciiReplModeQueuesAFrameForTheRepl : Obligations.AsciiReplModeQueuesAFrameForTheRepl := by
  intro s payload hinv hr hmode hc hpop hv hempty hroom _ i c hi
  have hexec : exec i s = receiveFrame c payload s := by
    obtain ⟨rfl, rfl⟩ | ⟨rfl, rfl⟩ | ⟨rfl, rfl⟩ | ⟨rfl, rfl⟩ | ⟨rfl, rfl⟩ := hi <;> rfl
  obtain ⟨hrun, hsilent⟩ :=
    (collecting_start hinv).link ⟨hr, hmode, hc, hpop⟩ hv (frameBytes s.params c payload)
  rw [List.nil_append] at hrun
  obtain ⟨-, hcontents, hovr⟩ := pushes_of_empty (hearing_start hinv).queueOk hempty
    (xs := frameBytes s.params c payload) (by rw [frameBytes_length]; omega)
  rw [← hrun.queue_eq] at hcontents hovr
  exact ⟨_, hexec.trans (perform_of_inv hinv _ _), hcontents, hovr, hrun.parser_eq, hrun.mode_eq.trans hmode, hsilent,
    by simpa using hrun.kept, hrun.encoder_eq⟩

end Sys2Proof.Machine

/-! Proofs. 40_bytequeue.md: the queue's operations, each one cycle: the status reads (R108, R130, R133), push (R101, R102) and
the pops of the REPL (R106) and of the parser (R105, R181). -/

namespace Sys2Proof.Machine

variable {P : Params} {q : Queue} {b : Block} {i : Inputs} {x : Byte}

/-! ### An operation of one cycle -/

/-- R315, R316: an operation of one cycle that completes shows that cycle's outputs, leaves its next block and gives its value. -/
theorem perform_one_shows {s : State} (h : Ready s) (i : Inputs) (ret : Result) :
    ∃ t, perform [i] ret s = .next t ∧ t.outs = [outputsOf s.params s.blk i]
      ∧ t.blk = nextBlock s.params s.blk i ∧ t.ret = ret := by
  obtain ⟨hindexed, -, -⟩ := h
  exact ⟨_, perform_one_of_indexed hindexed, rfl, rfl, rfl⟩

/-! ### A reading -/

theorem Quiet.controlAction_eq (h : Quiet i) (b : Block) : controlAction b i = false := by
  simp [controlAction, modeChange, h.mode_wr, h.soft_reset, h.repl_err]

/-- R247: with no request and no ready transport the encoder holds. -/
theorem Quiet.encoderPhase_eq (h : Quiet i) (P : Params) (e : Encoder) : encoderPhase P e i false = e := by
  simp [encoderPhase, xfer, h.tx_req, h.out_ready]

/-- A cycle under quiet lines leaves the block as it is. -/
theorem Quiet.nextBlock_eq_self (h : Quiet i) (P : Params) (b : Block) : nextBlock P b i = b := by
  have hc := h.controlAction_eq b
  have hstep : pstep b i = false := pstep_of_not_step_en h.step_en
  have hack : ackTake b i = false := by simp [ackTake, hstep]
  rw [nextBlock_eq h.rst, hc, hack, h.encoderPhase_eq, parserPhase_of_not_pstep hstep, modePhase_of_not_control hc,
    popPhase_of_not_takes (h.not_takes b), pushPhase_of_not_valid _ h.in_valid]
  rfl

/-- Settles O15: each reading is one cycle under the held lines, whose outputs show the pre-state. -/
theorem statusReadsAnswerFromThePreState : Obligations.StatusReadsAnswerFromThePreState := by
  intro s hready
  have hread (ret : Result) : ∃ t o, perform [s.pins] ret s = .next t ∧ t.outs = [o] ∧ t.ret = ret
      ∧ o = outputsOf s.params s.blk s.pins ∧ t.blk = nextBlock s.params s.blk s.pins ∧ (Quiet s.pins → t.blk = s.blk) := by
    obtain ⟨t, hperform, houts, hblk, hret⟩ := perform_one_shows hready s.pins ret
    exact ⟨t, _, hperform, houts, hret, rfl, hblk, fun h => hblk.trans (h.nextBlock_eq_self _ _)⟩
  refine ⟨?_, ?_, ?_⟩
  · obtain ⟨t, o, hexec, houts, hret, rfl, hblk⟩ := hread (.flag (qEmpty s.blk.q))
    exact ⟨t, _, hexec, houts, hret, rfl, hblk⟩
  · obtain ⟨t, o, hexec, houts, hret, rfl, hblk⟩ := hread (.mode s.blk.mode)
    exact ⟨t, _, hexec, houts, hret, rfl, hblk⟩
  · obtain ⟨t, o, hexec, houts, hret, rfl, hblk⟩ := hread (.parserState s.blk.p.sub.pstate)
    exact ⟨t, _, hexec, houts, hret, rfl, hblk⟩

/-! ### push -/

/-- R101: a push into a queue with room drops nothing. -/
theorem qPush_of_room (h : ¬ qFull P q = true) : (qPush P q x).rd = q.rd ∧ (qPush P q x).ovr = q.ovr := by simp [qPush, h]

theorem qPush_ovr_of_full (h : qFull P q = true) : (qPush P q x).ovr = true := by simp [h]

theorem qPush_rd_of_dropOldest (h : qFull P q = true) (hp : P.policy = .dropOldest) :
    (qPush P q x).rd = nextSlot P q.rd := by simp [qPush, h, hp]

theorem qPush_rd_of_wrapToEmpty (hp : P.policy = .wrapToEmpty) : (qPush P q x).rd = q.rd := by simp [qPush, hp]

/-- R101, R316: a push is the queue's alone, after this cycle's pop. -/
theorem nextBlock_driveIn (hr : i.rst = false) (P : Params) (b : Block) (x : Byte) :
    nextBlock P b (driveIn true x i)
      = { nextBlock P b { i with in_valid := false } with q := qPush P (popPhase P b i) x } := by
  rw [nextBlock_eq (i := driveIn true x i) hr, nextBlock_eq (i := { i with in_valid := false }) hr]
  rfl

/-- Settles O17: the push is on the queue the pop left, by the cases of R102. -/
theorem pushStoresItsByteAndAppliesThePolicy : Obligations.PushStoresItsByteAndAppliesThePolicy := by
  intro s x hready hr P q unpushed
  obtain ⟨t, hexec, houts, hblk, -⟩ := perform_one_shows hready (driveIn true x s.pins) .none
  obtain ⟨-, hwf, -⟩ := hready
  have hqwf : q.buf.wf = true := by simpa [q] using hwf
  have hovr : q.ovr = s.blk.q.ovr := popPhase_ovr P s.blk s.pins
  rw [nextBlock_driveIn hr] at hblk
  refine ⟨t, hexec, houts, ?_⟩
  rw [hblk]
  refine ⟨Memory.read_write_same hqwf _ _, fun k hk => ?_, rfl, fun hroom => ?_, fun hfull => ?_, rfl, rfl, rfl,
    fun hquiet => ?_⟩
  · exact (Memory.read_write_other hqwf x hk).trans (by simp [q])
  · obtain ⟨hrd, hkept⟩ := qPush_of_room (P := P) (q := q) (x := x) fun hf => hroom (qFull_iff.mp hf)
    exact ⟨hrd, hkept.trans hovr⟩
  · have hf : qFull P q = true := qFull_iff.mpr hfull
    refine ⟨qPush_ovr_of_full hf, qPush_rd_of_dropOldest hf, fun hp => ?_⟩
    have hrd := qPush_rd_of_wrapToEmpty (q := q) (x := x) hp
    exact ⟨hrd, hfull.trans hrd.symm⟩
  · have hunpushed : Quiet { s.pins with in_valid := false } := { hquiet with in_valid := rfl }
    rw [hunpushed.nextBlock_eq_self]
    exact ⟨rfl, popPhase_of_not_takes (hquiet.not_takes s.blk)⟩

/-! ### try_pop by the REPL -/

theorem replValid_eq (b : Block) : replValid b = decide (b.mode = .asciiRepl ∧ b.q.wr ≠ b.q.rd) := by
  simp [replValid, qEmpty]

/-- R106: a pop takes a byte exactly when one is offered. -/
theorem replTakes_eq (hr : i.rst = false) (hpop : i.repl_pop = true) : replTakes b i = replValid b := by
  simp [replTakes, replValid, hr, hpop]

/-- R316: the REPL's pop is the queue's alone. -/
theorem nextBlock_driveReplPop (hr : i.rst = false) (P : Params) (b : Block) :
    nextBlock P b (driveReplPop true i)
      = { nextBlock P b { i with repl_pop := false } with
          q := pushPhase P (popPhase P b (driveReplPop true i)) i } := by
  rw [nextBlock_eq (i := driveReplPop true i) hr, nextBlock_eq (i := { i with repl_pop := false }) hr]
  rfl

/-- R106: with nothing offered a pop does nothing. -/
theorem nextBlock_driveReplPop_of_not_valid (hr : i.rst = false) (h : replValid b = false) (P : Params) :
    nextBlock P b (driveReplPop true i) = nextBlock P b { i with repl_pop := false } := by
  have htakes : replTakes b (driveReplPop true i) = replTakes b { i with repl_pop := false } := by
    rw [replTakes_eq (i := driveReplPop true i) hr rfl, h, replTakes_of_not_pop rfl]
  have hpop : popPhase P b (driveReplPop true i) = popPhase P b { i with repl_pop := false } := by
    simp only [popPhase, htakes]
    rfl
  rw [nextBlock_driveReplPop hr, hpop, nextBlock_eq (i := { i with repl_pop := false }) hr]
  rfl

/-- Settles O18: the pop takes a byte exactly when the port offers one. -/
theorem replPopTakesTheOfferedByte : Obligations.ReplPopTakesTheOfferedByte := by
  intro s hready hr
  let pop := driveReplPop true s.pins
  obtain ⟨t, hexec, houts, hblk, hret⟩ := perform_one_shows hready pop (.popped (replPopped s.blk pop))
  have hvalid := replValid_eq s.blk
  have htakes : replTakes s.blk pop = replValid s.blk := replTakes_eq hr rfl
  have hunits := hblk.trans (nextBlock_driveReplPop hr s.params s.blk)
  refine ⟨fun i => ⟨hvalid, by simp [outputsOf, hvalid, qFront]⟩, t, _, hexec, houts, ?_, fun hmode hne => ?_,
    fun hnone => ?_⟩
  · rw [hunits]
    exact ⟨rfl, rfl, rfl⟩
  · have hoffered : replValid s.blk = true := by simp [hvalid, hmode, hne]
    have hpopped (hv : s.pins.in_valid = false) :
        t.blk = { nextBlock s.params s.blk { s.pins with repl_pop := false } with q := qPop s.params s.blk.q } := by
      rw [hunits, popPhase_of_takes (by simp [pop, htakes, hoffered]), pushPhase_of_not_valid _ hv]
    refine ⟨hoffered, by simp [outputsOf, hoffered, qFront], by simp [hret, replPopped, htakes, hoffered, qFront],
      fun hv => congrArg Block.q (hpopped hv), fun hquiet => ?_⟩
    have hunpopped : Quiet { s.pins with repl_pop := false } := { hquiet with repl_pop := rfl }
    rw [hpopped hquiet.in_valid, hunpopped.nextBlock_eq_self]
    rfl
  · have hoffered : replValid s.blk = false := by
      obtain hmode | he := hnone
      · simp [hvalid, hmode]
      · simp [hvalid, he]
    exact ⟨hoffered, by simp [outputsOf, hoffered], by simp [hret, replPopped, htakes, hoffered],
      hblk.trans (nextBlock_driveReplPop_of_not_valid hr hoffered s.params)⟩

/-! ### try_pop by the parser -/

theorem ParserSub.readsByte_iff {x : ParserSub} : x.readsByte = true ↔ x ≠ .dispatch ∧ x ≠ .ackReq := by
  cases x <;> simp [ParserSub.readsByte]

/-- R105, R181: an enabled parser takes a byte when its sub-state reads one and the queue has one. -/
theorem parserTakes_iff (h : pstep b i = true) :
    parserTakes b i = true ↔ b.p.sub ≠ .dispatch ∧ b.p.sub ≠ .ackReq ∧ b.q.wr ≠ b.q.rd := by
  simp [parserTakes, h, ParserSub.readsByte_iff, qEmpty, and_assoc]

/-- R100: in BinaryFrame mode the queue gives its byte to the parser alone. -/
theorem nextBlock_q_of_binaryFrame (hr : i.rst = false) (hmode : b.mode = .binaryFrame) (hv : i.in_valid = false) :
    (nextBlock P b i).q = if parserTakes b i then qPop P b.q else b.q := by
  rw [nextBlock_eq hr, pushPhase_of_not_valid _ hv, popPhase, replTakes_of_binaryFrame hmode, Bool.false_or]

/-- Settles O22: the byte taken is the parser's pop of the cycle, and without step_en the parser makes no step. -/
theorem parserTryPopTakesAtMostOneByte : Obligations.ParserTryPopTakesAtMostOneByte := by
  rintro s hready ⟨hr, hmode, hc⟩ hv
  have hq (v : Bool) : (nextBlock s.params s.blk (driveStep v s.pins)).q
      = if parserTakes s.blk (driveStep v s.pins) then qPop s.params s.blk.q else s.blk.q :=
    nextBlock_q_of_binaryFrame hr hmode hv
  refine ⟨?_, ?_⟩
  · obtain ⟨t, hexec, houts, hblk, hret⟩ :=
      perform_one_shows hready (driveStep true s.pins) (.popped (parserPopped s.blk (driveStep true s.pins)))
    have htakes : parserTakes s.blk (driveStep true s.pins) = true
        ↔ s.blk.p.sub ≠ .dispatch ∧ s.blk.p.sub ≠ .ackReq ∧ s.blk.q.wr ≠ s.blk.q.rd :=
      parserTakes_iff (pstep_iff.mpr ⟨hr, hmode, rfl, hc⟩)
    have hqt := congrArg Block.q hblk |>.trans (hq true)
    refine ⟨t, hexec, fun hdisp hack hne => ?_, fun hnone => ?_, ?_⟩
    · rw [hret, hqt, parserPopped, htakes.mpr ⟨hdisp, hack, hne⟩]
      exact ⟨rfl, rfl⟩
    · have hnot : parserTakes s.blk (driveStep true s.pins) = false := by
        rw [← Bool.not_eq_true, htakes]
        tauto
      rw [hret, hqt, parserPopped, hnot]
      exact ⟨rfl, rfl⟩
    · exact shown_clockAll_ret _ _ (beginOp .none s)
  · obtain ⟨t, hexec, -, hblk, hret⟩ :=
      perform_one_shows hready (driveStep false s.pins) (.popped (parserPopped s.blk (driveStep false s.pins)))
    have hstep : pstep s.blk (driveStep false s.pins) = false := pstep_of_not_step_en rfl
    have hnot := parserTakes_of_not_pstep hstep
    have hqt := congrArg Block.q hblk |>.trans (hq false)
    obtain ⟨hp, hm⟩ := nextBlock_of_not_pstep (P := s.params) (i := driveStep false s.pins) hr hc hstep
    rw [← hblk] at hp hm
    refine ⟨t, hexec, ?_, ?_, hp, hm, congrArg Block.e hblk⟩
    · rw [hret, parserPopped, hnot]
      rfl
    · rw [hqt, hnot]
      rfl

end Sys2Proof.Machine

/-! Proofs. 41_mode_controller.md: which cycles change the mode (R131, R141), what a control action does to the rest of its cycle
(R134, R135, R138), and cycles in which the parser makes no step (R137, R180). -/

namespace Sys2Proof.Machine

variable {P : Params} {b : Block} {i : Inputs} {m : Mode} {v : Byte}

/-! ### The mode after a cycle -/

theorem modeOfCode_of_zero (h : v = 0x00) : modeOfCode v = some .asciiRepl := by
  rw [h]
  rfl

theorem modeOfCode_of_one (h : v = 0x01) : modeOfCode v = some .binaryFrame := by
  rw [h]
  rfl

/-- R85: the codes outside 0x00 and 0x01 name no mode. -/
theorem modeOfCode_of_invalid (h0 : v ≠ 0x00) (h1 : v ≠ 0x01) : modeOfCode v = none := by
  rw [modeOfCode, if_neg h0, if_neg h1]

theorem modeChange_of_write (hw : i.mode_wr = true) (hv : modeOfCode i.mode_val = some m) :
    modeChange b i = if m = b.mode then none else some m := by
  simp [modeChange, hw, hv]

theorem modeChange_of_not_write (h : i.mode_wr = false) : modeChange b i = none := by simp [modeChange, h]

/-- R131: the mode the block is in is no change. -/
theorem modeChange_of_current (hv : modeOfCode i.mode_val = some m) (hm : b.mode = m) : modeChange b i = none := by
  simp [modeChange, hv, hm]

theorem modeChange_of_no_mode (hv : modeOfCode i.mode_val = none) : modeChange b i = none := by simp [modeChange, hv]

theorem modePhase_of_modeChange_none (h : modeChange b i = none) : modePhase b i = b.mode := by simp [modePhase, h]

/-- R131: a valid code gives its mode, whatever the block is in. -/
theorem modePhase_of_write (hw : i.mode_wr = true) (hv : modeOfCode i.mode_val = some m) : modePhase b i = m := by
  rw [modePhase, modeChange_of_write hw hv]
  split_ifs with heq
  · exact heq.symm
  · rfl

/-- R138: a changing mode write is a control action. -/
theorem controlAction_of_write (hw : i.mode_wr = true) (hv : modeOfCode i.mode_val = some m) (hne : b.mode ≠ m) :
    controlAction b i = true := by
  simp [controlAction, modeChange_of_write hw hv, hne.symm]

theorem nextBlock_mode (hr : i.rst = false) : (nextBlock P b i).mode = modePhase b i := by rw [nextBlock_eq hr]

/-! ### What a cycle reads of `step_en` and the mode port -/

/-- The lines with other levels on `step_en` and the mode port. -/
def withStepAndMode (en wr : Bool) (v : Byte) (i : Inputs) : Inputs := { i with step_en := en, mode_wr := wr, mode_val := v }

/-- R131, R137: `step_en` and the mode port act on a cycle only through the mode change and the parser's enable. -/
theorem cycle_withStepAndMode {en wr : Bool} (P : Params)
    (hmode : modeChange b (withStepAndMode en wr v i) = modeChange b i)
    (hstep : pstep b (withStepAndMode en wr v i) = pstep b i) :
    cycle P b (withStepAndMode en wr v i) = cycle P b i := by
  have hcontrol : controlAction b (withStepAndMode en wr v i) = controlAction b i := by
    simp only [controlAction, hmode]
    rfl
  have hack : ackTake b (withStepAndMode en wr v i) = ackTake b i := by
    simp only [ackTake, hstep]
  have hpop : popPhase P b (withStepAndMode en wr v i) = popPhase P b i := by
    simp only [popPhase, parserTakes, hstep]
    rfl
  have hparser : parserPhase P b (withStepAndMode en wr v i) = parserPhase P b i := by
    simp only [parserPhase, hstep]
    rfl
  simp only [cycle, nextBlock, outputsOf, modePhase, eventOf, rxAckOf, txAcceptOf, hmode, hcontrol, hack, hpop, hparser]
  rfl

/-- R131: a mode port that changes nothing is like one that writes nothing, whatever stands on it. -/
theorem cycle_eq_unwritten (h : modeChange b i = none) (v : Byte) :
    cycle P b i = cycle P b { i with mode_wr := false, mode_val := v } := by
  have hmode : modeChange b (withStepAndMode i.step_en false v i) = modeChange b i := (modeChange_of_not_write rfl).trans h.symm
  refine (cycle_withStepAndMode P hmode ?_).symm
  simp only [pstep, controlAction, hmode]
  rfl

theorem cycle_driveMode_of_no_change (h : modeChange b (driveMode v i) = none) :
    cycle P b (driveMode v i) = cycle P b { i with mode_wr := false } :=
  cycle_eq_unwritten h i.mode_val

/-! ### A cycle of a control action -/

/-- The cycle without its control actions and without the parser's enable: what the other lines ask. -/
def uncontrolled (i : Inputs) : Inputs :=
  { i with step_en := false, mode_wr := false, soft_reset := false, repl_err := false }

/-- R316: a cycle in which the parser makes no step leaves the queue and the encoder to the other lines. -/
theorem nextBlock_queue_encoder_of_not_pstep (hr : i.rst = false) (hs : pstep b i = false) :
    (nextBlock P b i).q = (nextBlock P b (uncontrolled i)).q ∧ (nextBlock P b i).e = (nextBlock P b (uncontrolled i)).e := by
  have hs' : pstep b (uncontrolled i) = false := pstep_of_not_step_en rfl
  rw [nextBlock_eq hr, nextBlock_eq (i := uncontrolled i) hr]
  simp only [popPhase, parserTakes, ackTake, hs, hs']
  exact ⟨rfl, rfl⟩

/-- R138: what a cycle of a control action comes to: one reset() in place of the parser's step, the queue and the encoder as the
other lines ask, and no report but LineOverflow. -/
structure ResetsParser (P : Params) (b : Block) (i : Inputs) : Prop where
  parser_eq : (nextBlock P b i).p = Parser.reset
  queue_eq : (nextBlock P b i).q = (nextBlock P b (uncontrolled i)).q
  encoder_eq : (nextBlock P b i).e = (nextBlock P b (uncontrolled i)).e
  evt_eq : (outputsOf P b i).evt = if i.repl_err then .lineOverflow else .none
  rx_ack_eq : (outputsOf P b i).rx_ack = false

theorem resetsParser_of_control (hr : i.rst = false) (hc : controlAction b i = true) : ResetsParser P b i where
  parser_eq := by simp [nextBlock_eq hr, hc]
  queue_eq := (nextBlock_queue_encoder_of_not_pstep hr (pstep_of_control hc)).1
  encoder_eq := (nextBlock_queue_encoder_of_not_pstep hr (pstep_of_control hc)).2
  evt_eq := by simp [outputsOf, eventOf, hr, hc]
  rx_ack_eq := by simp [outputsOf, rxAckOf, hc]

/-- R131, R134: a control action with nothing else asked changes the mode and the parser only. -/
theorem nextBlock_of_control_alone (hquiet : Quiet (uncontrolled i)) (hc : controlAction b i = true) :
    nextBlock P b i = { b with mode := modePhase b i, p := Parser.reset } := by
  have hr : i.rst = false := hquiet.rst
  obtain ⟨hp, hq, he, -, -⟩ := resetsParser_of_control (P := P) hr hc
  rw [hquiet.nextBlock_eq_self] at hq he
  rw [← nextBlock_mode (P := P) hr, ← hp, ← hq, ← he]

/-! ### The table of mode transitions -/

/-- Settles O11: rst is the hardware reset, a valid code gives its mode, and a change of mode is a control action. -/
theorem onlyRstAndModeWritesChangeTheMode : Obligations.OnlyRstAndModeWritesChangeTheMode := by
  intro P b i
  have hwrites {m : Mode} (hr : i.rst = false) (hw : i.mode_wr = true) (hv : modeOfCode i.mode_val = some m) :
      (nextBlock P b i).mode = m ∧ (b.mode ≠ m → (nextBlock P b i).p = Parser.reset) :=
    ⟨(nextBlock_mode hr).trans (modePhase_of_write hw hv),
      fun hne => (resetsParser_of_control hr (controlAction_of_write hw hv hne)).parser_eq⟩
  rw [cycle_fst]
  refine ⟨fun hr => ?_, fun hr hw hv => ?_, fun hr hw hv => ?_, fun hr hnot => ?_, fun _ hsame => ?_⟩
  · have hbuf : ∀ k, Block.reset.p.buf.read k = 0 := fun _ => rfl
    rw [nextBlock_of_rst hr]
    exact ⟨rfl, rfl, rfl, rfl, rfl, rfl, rfl, rfl, hbuf, rfl, rfl, rfl, rfl, rfl, rfl, rfl, rfl, rfl⟩
  · obtain ⟨hmode, hp⟩ := hwrites hr hw (modeOfCode_of_zero hv)
    exact ⟨hmode, fun hbin => hp (by simp [hbin])⟩
  · obtain ⟨hmode, hp⟩ := hwrites hr hw (modeOfCode_of_one hv)
    exact ⟨hmode, fun hrepl => hp (by simp [hrepl])⟩
  · have hnone : modeChange b i = none := by
      obtain hw | ⟨h0, h1⟩ := hnot
      · exact modeChange_of_not_write hw
      · exact modeChange_of_no_mode (modeOfCode_of_invalid h0 h1)
    exact (nextBlock_mode hr).trans (modePhase_of_modeChange_none hnone)
  · have hnone : modeChange b i = none := by
      obtain ⟨hv, hm⟩ | ⟨hv, hm⟩ | ⟨h0, h1⟩ := hsame
      · exact modeChange_of_current (modeOfCode_of_zero hv) hm
      · exact modeChange_of_current (modeOfCode_of_one hv) hm
      · exact modeChange_of_no_mode (modeOfCode_of_invalid h0 h1)
    exact cycle_eq_unwritten hnone i.mode_val

/-! ### The priority of the control actions -/

/-- Settles O14: every control action has the one effect of R138, and the mode write is decided apart from it. -/
theorem controlActionsTakeTheirPriority : Obligations.ControlActionsTakeTheirPriority := by
  intro P b i
  refine ⟨fun hr => ?_, fun hr haction => ?_⟩
  · rw [cycle_fst, cycle_fst, nextBlock_of_rst hr, nextBlock_of_rst rfl]
  · intro b' alone
    have hc : controlAction b i = true := by
      obtain ⟨hw, ⟨hv, hne⟩ | ⟨hv, hne⟩⟩ | hsoft | herr := haction
      · exact controlAction_of_write hw (modeOfCode_of_zero hv) hne
      · exact controlAction_of_write hw (modeOfCode_of_one hv) hne
      · simp [controlAction, hsoft]
      · simp [controlAction, herr]
    obtain ⟨hp, hq, he, hevt, hack⟩ := resetsParser_of_control (P := P) hr hc
    have hmode {m : Mode} (hw : i.mode_wr = true) (hv : modeOfCode i.mode_val = some m) : b'.mode = m :=
      (nextBlock_mode hr).trans (modePhase_of_write hw hv)
    exact ⟨hp, hq, he, fun hw hv => hmode hw (modeOfCode_of_zero hv), fun hw hv => hmode hw (modeOfCode_of_one hv), hevt, hack⟩

/-! ### set_mode -/

/-- R131: one cycle that writes the mode `m`. -/
theorem perform_driveMode {s : State} (h : Ready s) (hr : s.pins.rst = false) (hv : modeOfCode v = some m) :
    ∃ t o, perform [driveMode v s.pins] .none s = .next t ∧ t.outs = [o] ∧ t.blk.mode = m
      ∧ (s.blk.mode ≠ m → t.blk.p = Parser.reset ∧ o.evt = if s.pins.repl_err then .lineOverflow else .none)
      ∧ (s.blk.mode = m → t.blk = (cycle s.params s.blk { s.pins with mode_wr := false }).1
          ∧ o = (cycle s.params s.blk { s.pins with mode_wr := false }).2) := by
  obtain ⟨t, hperform, houts, hblk, -⟩ := perform_one_shows h (driveMode v s.pins) .none
  refine ⟨t, _, hperform, houts, ?_, fun hne => ?_, fun hsame => ?_⟩
  · rw [hblk, nextBlock_mode (i := driveMode v s.pins) hr]
    exact modePhase_of_write rfl hv
  · obtain ⟨hp, -, -, hevt, -⟩ := resetsParser_of_control (P := s.params) (i := driveMode v s.pins) hr
      (controlAction_of_write rfl hv hne)
    exact ⟨hblk ▸ hp, hevt⟩
  · have hcycle := cycle_driveMode_of_no_change (P := s.params) (modeChange_of_current (i := driveMode v s.pins) hv hsame)
    exact ⟨hblk.trans (congrArg Prod.fst hcycle), congrArg Prod.snd hcycle⟩

/-- R131: a code that names no mode drives its lines all the same (log 13). -/
theorem step_of_invalid_mode (h0 : v ≠ 0x00) (h1 : v ≠ 0x01) (s : State) (rest : List Stimulus) :
    step { s with stim := { word := .modeVal v, pins := s.pins } :: rest }
      = perform [driveMode v s.pins] .none { s with stim := rest } := by
  have hdecode : decode s.params (.modeVal v) = .error .invalidMode := by rw [decode, if_neg h0, if_neg h1]
  simp only [step, hdecode]
  rfl

/-- Settles O9: a valid code is one cycle of a mode write, and an invalid one changes no mode. -/
theorem setModeSwitchesAndResetsTheParser : Obligations.SetModeSwitchesAndResetsTheParser := by
  intro s hready hr unwritten event
  refine ⟨?_, ?_, fun v rest h0 h1 => ?_⟩
  · obtain ⟨t, o, hexec, houts, hmode, hchange, hsame⟩ := perform_driveMode hready hr (modeOfCode_of_zero rfl)
    exact ⟨t, o, hexec, houts, hmode, fun hbin => hchange (by simp [hbin]), hsame⟩
  · obtain ⟨t, o, hexec, houts, hmode, hchange, hsame⟩ := perform_driveMode hready hr (modeOfCode_of_one rfl)
    exact ⟨t, o, hexec, houts, hmode, fun hrepl => hchange (by simp [hrepl]), hsame⟩
  · obtain ⟨t, hperform, houts, hblk, -⟩ :=
      perform_one_shows (s := { s with stim := rest }) hready (driveMode v s.pins) .none
    have hcycle := cycle_driveMode_of_no_change (P := s.params) (b := s.blk)
      (modeChange_of_no_mode (i := driveMode v s.pins) (modeOfCode_of_invalid h0 h1))
    exact ⟨t, (step_of_invalid_mode h0 h1 s rest).trans hperform, hblk.trans (congrArg Prod.fst hcycle),
      houts.trans (congrArg (fun c => [c.2]) hcycle)⟩

/-- R131, R134: a mode write under quiet lines. -/
theorem Quiet.nextBlock_driveMode (h : Quiet i) (hv : modeOfCode v = some m) (P : Params) (b : Block) :
    nextBlock P b (driveMode v i) = { b with mode := m, p := if b.mode = m then b.p else Parser.reset } := by
  have halone : Quiet (uncontrolled (driveMode v i)) :=
    { h with step_en := rfl, mode_wr := rfl, soft_reset := rfl, repl_err := rfl }
  split_ifs with hm
  · have hunwritten : Quiet { i with mode_wr := false } := { h with mode_wr := rfl }
    have hcycle := cycle_driveMode_of_no_change (P := P) (modeChange_of_current (i := driveMode v i) hv hm)
    subst hm
    exact (congrArg Prod.fst hcycle).trans (hunwritten.nextBlock_eq_self P b)
  · rw [nextBlock_of_control_alone halone (controlAction_of_write rfl hv hm), modePhase_of_write rfl hv]

/-- Settles O10: set_mode is one cycle of a mode write. -/
theorem setModeLeavesQueueAndEncoder : Obligations.SetModeLeavesQueueAndEncoder := by
  intro s hready hquiet
  have hwrite {m : Mode} (v : Byte) (hv : modeOfCode v = some m) : ∃ t, perform [driveMode v s.pins] .none s = .next t
      ∧ t.blk = { s.blk with mode := m, p := if s.blk.mode = m then s.blk.p else Parser.reset } := by
    obtain ⟨t, hperform, -, hblk, -⟩ := perform_one_shows hready (driveMode v s.pins) .none
    exact ⟨t, hperform, hblk.trans (hquiet.nextBlock_driveMode hv s.params s.blk)⟩
  exact ⟨hwrite 0x00 (modeOfCode_of_zero rfl), hwrite 0x01 (modeOfCode_of_one rfl)⟩

/-! ### reset() from outside and the REPL's error -/

/-- The lines of a cycle with neither reset() asked from outside nor the parser's enable. -/
def unreset (i : Inputs) : Inputs := { i with step_en := false, soft_reset := false, repl_err := false }

/-- R134, R135: one cycle in which soft_reset or repl_err is 1. -/
theorem resetsParser_and_frame (hr : i.rst = false) (hreset : i.soft_reset = true ∨ i.repl_err = true) :
    ResetsParser P b i
      ∧ ((nextBlock P b i).q = (nextBlock P b (unreset i)).q ∧ (nextBlock P b i).e = (nextBlock P b (unreset i)).e
        ∧ (nextBlock P b i).mode = (nextBlock P b (unreset i)).mode)
      ∧ (Quiet (unreset i) → nextBlock P b i = { b with p := Parser.reset }) := by
  have hc : controlAction b i = true := by
    obtain h | h := hreset <;> simp [controlAction, h]
  have hresets := resetsParser_of_control (P := P) hr hc
  obtain ⟨hq, he⟩ := nextBlock_queue_encoder_of_not_pstep (P := P) (b := b) (i := unreset i) hr (pstep_of_not_step_en rfl)
  refine ⟨hresets, ⟨hresets.queue_eq.trans hq.symm, hresets.encoder_eq.trans he.symm, ?_⟩, fun hquiet => ?_⟩
  · rw [nextBlock_mode hr, nextBlock_mode (i := unreset i) hr]
    rfl
  · have hw : i.mode_wr = false := hquiet.mode_wr
    rw [nextBlock_of_control_alone { hquiet with mode_wr := rfl } hc,
      modePhase_of_modeChange_none (modeChange_of_not_write hw)]

/-- Settles O12: soft_reset is the one line that reset() drives. -/
theorem softResetClearsTheParserOnly : Obligations.SoftResetClearsTheParserOnly := by
  intro s hready hr
  obtain ⟨t, hexec, houts, hblk, -⟩ := perform_one_shows hready (driveSoftReset true s.pins) .none
  obtain ⟨⟨hp, -, -, hevt, hack⟩, hframe, hquiet⟩ :=
    resetsParser_and_frame (P := s.params) (b := s.blk) (i := driveSoftReset true s.pins) hr (.inl rfl)
  have hbuf : ∀ k, Parser.reset.buf.read k = 0 := fun _ => rfl
  rw [← hblk] at hp hframe hquiet
  refine ⟨t, _, hexec, houts, ?_⟩
  rw [hp]
  exact ⟨rfl, rfl, rfl, rfl, rfl, rfl, rfl, hbuf, hframe, hevt, hack,
    fun h => hquiet { h with step_en := rfl, soft_reset := rfl, repl_err := rfl }⟩

/-- Settles O13: repl_err is the one line that a REPL error drives, and LineOverflow is its report. -/
theorem replErrorResetsAndReportsLineOverflow : Obligations.ReplErrorResetsAndReportsLineOverflow := by
  intro s hready hr
  obtain ⟨t, hexec, houts, hblk, -⟩ := perform_one_shows hready (driveReplErr true s.pins) .none
  obtain ⟨⟨hp, -, -, hevt, hack⟩, hframe, hquiet⟩ :=
    resetsParser_and_frame (P := s.params) (b := s.blk) (i := driveReplErr true s.pins) hr (.inr rfl)
  rw [← hblk] at hp hframe hquiet
  exact ⟨t, _, hexec, houts, hevt, congrArg Event.code hevt, hack, hp, hframe,
    fun h => hquiet { h with step_en := rfl, soft_reset := rfl, repl_err := rfl }⟩

/-! ### Cycles in which the parser makes no step -/

/-- Settles O16: with step_en at 0 or in AsciiRepl mode the parser makes no step, and in AsciiRepl mode for every step_en. -/
theorem parserHoldsWithoutItsEnable : Obligations.ParserHoldsWithoutItsEnable := by
  intro P b i hr hc
  refine ⟨fun hnot => ?_, fun hrepl en => ?_⟩
  · have hs : pstep b i = false := hnot.elim pstep_of_not_step_en pstep_of_asciiRepl
    refine ⟨(nextBlock_of_not_pstep hr hc hs).1, ?_, ?_, fun hbin hv => ?_⟩
    · simp [outputsOf, eventOf, hr, hc, parserPhase_of_not_pstep hs]
    · simp [outputsOf, rxAckOf, parserPhase_of_not_pstep hs]
    · rw [cycle_fst, nextBlock_q_of_binaryFrame hr hbin hv, parserTakes_of_not_pstep hs]
      rfl
  · have hstep : pstep b (withStepAndMode en i.mode_wr i.mode_val i) = pstep b i := by
      rw [pstep_of_asciiRepl hrepl, pstep_of_asciiRepl hrepl]
    exact cycle_withStepAndMode P rfl hstep

end Sys2Proof.Machine

/-! Proofs. 42_checksum.md: the checksum as the modular sum of the bytes of a frame (R160, R163), whatever their order (R165),
and its worked values (R166). -/

namespace Sys2Proof

variable {P : Params} {c : Byte} {payload bytes bytes' : List Byte} {f : Frame}

/-! ### The sum of a list of bytes -/

theorem sumBytes_eq_sum (bytes : List Byte) : sumBytes bytes = bytes.sum := by
  induction bytes with
  | nil => rfl
  | cons b bytes ih => simp [ih]

/-- R165: bytes in another order have the same sum. -/
theorem sumBytes_eq_of_perm (h : bytes.Perm bytes') : sumBytes bytes = sumBytes bytes' := by
  simpa only [sumBytes_eq_sum] using h.sum_eq

/-- R160: the sum on unbounded naturals, reduced at the end. -/
theorem sumBytes_toNat (bytes : List Byte) : (sumBytes bytes).toNat = (bytes.map fun b => b.toNat).sum % 256 := by
  induction bytes with
  | nil => rfl
  | cons b bytes ih => simp [BitVec.toNat_add, ih]

/-! ### The checksum as a sum of bytes -/

theorem cmdTerm_of_sumsCmd (h : P.sumsCmd = true) (c : Byte) : cmdTerm P c = c := by simp [cmdTerm, h]

theorem cmdTerm_of_not_sumsCmd (h : P.sumsCmd = false) (c : Byte) : cmdTerm P c = 0 := by simp [cmdTerm, h]

/-- R160, R163: the checksum is the sum of the frame's bytes, with the term of `cmd` in the place of `cmd`. -/
theorem frameChecksum_eq_sumBytes (P : Params) (c : Byte) (payload : List Byte) :
    frameChecksum P c payload = sumBytes (summedBytes P ⟨cmdTerm P c, payload⟩) := by
  simp [frameChecksum, summedBytes, frameFront, sumBytes_append, ← BitVec.add_assoc]

theorem sumBytes_summedBytes (h : P.sumsCmd = true) (f : Frame) :
    sumBytes (summedBytes P f) = frameChecksum P f.cmd f.payload := by
  rw [frameChecksum_eq_sumBytes, cmdTerm_of_sumsCmd h]

/-- R163: with `cmd` not summed, the sum of the frame's bytes but `cmd`. -/
theorem sumBytes_summedBytes_eraseIdx (h : P.sumsCmd = false) (f : Frame) :
    sumBytes ((summedBytes P f).eraseIdx 2) = frameChecksum P f.cmd f.payload := by
  rw [frameChecksum_eq_sumBytes, cmdTerm_of_not_sumsCmd h]
  simp [summedBytes, frameFront]

/-! ### The order of the bytes -/

/-- R64: below 256 the high byte of `len` is 0, and the low byte is the length. -/
theorem lenBytes_of_lt {n : Nat} (h : n < 256) :
    hiByte (BitVec.ofNat 16 n) = 0 ∧ loByte (BitVec.ofNat 16 n) = BitVec.ofNat 8 n := by
  have hlen : (BitVec.ofNat 16 n).toNat = n := Nat.mod_eq_of_lt (by omega)
  refine ⟨BitVec.eq_of_toNat_eq ?_, BitVec.eq_of_toNat_eq ?_⟩
  · rw [hiByte_toNat, hlen]
    exact Nat.div_eq_of_lt h
  · rw [loByte_toNat, hlen, BitVec.toNat_ofNat]

/-- R165: with `cmd` summed, the low byte of `len` counts as `cmd` does. -/
theorem frameChecksum_of_short (h : P.sumsCmd = true) (c : Byte) (hlen : payload.length < 256) :
    frameChecksum P c payload
      = headMagic0 + headMagic1 + (c + BitVec.ofNat 8 payload.length) + sumBytes payload + tailMagic0 P + tailMagic1 P := by
  obtain ⟨hhi, hlo⟩ := lenBytes_of_lt hlen
  simp [frameChecksum, hhi, hlo, cmdTerm_of_sumsCmd h, BitVec.add_assoc]

/-- Settles O51: the checksum is a sum of bytes, and the sum of bytes does not see their order. -/
theorem checksumIgnoresTheOrderOfBytes : Obligations.ChecksumIgnoresTheOrderOfBytes := by
  refine ⟨fun P f bytes hsums h => ?_, fun P f bytes hsums h => ?_, fun P f g hsums h => ?_, fun P c p p' h => ?_,
    fun P p p' hsums hp hp' h => ?_⟩
  · exact (sumBytes_eq_of_perm h).trans (sumBytes_summedBytes hsums f)
  · exact (sumBytes_eq_of_perm h).trans (sumBytes_summedBytes_eraseIdx hsums f)
  · rw [← sumBytes_summedBytes hsums f, ← sumBytes_summedBytes hsums g]
    exact sumBytes_eq_of_perm h
  · simp only [frameChecksum, h.length_eq, sumBytes_eq_of_perm h]
  · rw [frameChecksum_of_short hsums _ hp', frameChecksum_of_short hsums _ hp, h,
      BitVec.add_comm (BitVec.ofNat 8 p.length)]

/-! ### The worked values -/

/-- R161: a payload of one byte repeated. -/
theorem sumBytes_replicate (n : Nat) (b : Byte) : sumBytes (List.replicate n b) = BitVec.ofNat 8 (n * b.toNat) := by
  refine BitVec.eq_of_toNat_eq ?_
  rw [sumBytes_toNat, List.map_replicate, List.sum_replicate, smul_eq_mul, BitVec.toNat_ofNat]

/-- Settles O52: short payloads are summed by evaluation, the repeated byte by its product. -/
theorem workedChecksumValues : Obligations.WorkedChecksumValues := by
  refine ⟨by decide, by decide, by decide, ?_, by decide⟩
  simp only [frameChecksum, List.length_replicate, sumBytes_replicate]
  decide

/-! ### The checksum on unbounded naturals -/

/-- R160: the fields of a frame, added up without a modulus. -/
def frameSum (P : Params) (f : Frame) : Nat :=
  0xFE + 0x5A + (if P.sumsCmd then f.cmd.toNat else 0) + f.payload.length / 256 + f.payload.length % 256
    + (f.payload.map fun b => b.toNat).sum
    + (match P.tail with
      | .standard => 0xFA + 0xE3
      | .sameAsHead => 0xFE + 0x5A)

theorem cmdTerm_toNat (P : Params) (c : Byte) : (cmdTerm P c).toNat = if P.sumsCmd then c.toNat else 0 := by
  unfold cmdTerm
  split_ifs <;> rfl

/-- R160: the modulus is taken once, at the end. -/
theorem frameChecksum_toNat (h : f.payload.length ≤ 65535) :
    (frameChecksum P f.cmd f.payload).toNat = frameSum P f % 256 := by
  rw [frameChecksum_eq_sumBytes, sumBytes_toNat]
  congr 1
  simp only [summedBytes, frameFront, frameSum, List.map_append, List.map_cons, List.map_nil, List.sum_append, List.sum_cons,
    List.sum_nil, hiByte_toNat, loByte_toNat, length_toNat h, cmdTerm_toNat]
  cases htail : P.tail <;> simp [tailMagic0, tailMagic1, htail] <;> omega

end Sys2Proof

/-! Proofs. 42_checksum.md: the checksum as an operation (R160, R162), and a frame that arrives with a wrong sum (R164, R195). -/

namespace Sys2Proof.Machine

variable {P : Params} {s : State} {c x : Byte} {payload got : List Byte} {len : Half} {p : Parser}

/-! ### The operation -/

/-- Settles O50: the operation is one cycle under the held lines and gives the checksum of the frame. -/
theorem checksumIsTheModularSumOfTheFrame : Obligations.ChecksumIsTheModularSumOfTheFrame := by
  intro s hready
  refine ⟨fun f hfits => ?_, ?_, fun _ => rfl⟩
  · obtain ⟨t, hexec, -, hblk, hret⟩ := perform_one_shows hready s.pins (.sum (checksumOf s.params (some f)))
    exact ⟨t, hexec, hblk, fun hquiet => hblk.trans (hquiet.nextBlock_eq_self _ _), _, hret, frameChecksum_toNat hfits⟩
  · obtain ⟨t, hexec, -, hblk, hret⟩ := perform_one_shows hready s.pins (.sum nullSum)
    exact ⟨t, hexec, hblk, hret⟩

/-! ### A frame with a wrong sum -/

/-- R80, R160: the summed bytes of a frame and a sum byte. -/
theorem frameFront_append_tail_sum (P : Params) (c x : Byte) (payload : List Byte) :
    frameFront c payload ++ [tailMagic0 P, tailMagic1 P, x] = summedBytes P ⟨c, payload⟩ ++ [x] := by
  simp [summedBytes]

/-- R195: a sum byte that is not the frame's checksum. -/
theorem InFrame.onByte_wrong_sum (h : InFrame P c len got p) (hs : p.sub = .sum) (hx : x ≠ frameChecksum P c got) :
    onByte P p x = raiseErr .checksumMismatch p := by
  have hne : x ≠ p.acc := h.acc_eq hs ▸ hx
  simp [onByte, onSum, hs, hne]

/-- R164: a frame with a wrong sum is no operation. -/
theorem decode_of_wrong_sum (hfits : payload.length ≤ 65535) (hx : x ≠ frameChecksum P c payload) :
    decode P (.link (summedBytes P ⟨c, payload⟩ ++ [x])) = .error .badSum := by
  simp [decode, decodeLink, ← frameFront_append_tail_sum, splitFrame_frameFront hfits, hx]

/-- R195: a frame within PAYLOAD_MAX is read with no report up to its sum, and a wrong sum is reported in the last cycle. -/
theorem Listening.rejectsWrongSum (h : Listening s) (hmax : payload.length ≤ s.params.payloadMax)
    (hx : x ≠ frameChecksum s.params c payload) :
    KeepingUp s (payload.length + 8) [] Parser.reset
        (runBlock s.params s.blk (driveLink (summedBytes s.params ⟨c, payload⟩ ++ [x]) s.pins))
      ∧ ∃ front last,
          runOutputs s.params s.blk (driveLink (summedBytes s.params ⟨c, payload⟩ ++ [x]) s.pins) = front ++ [last]
          ∧ AllSilent front ∧ last.evt = .checksumMismatch ∧ last.rx_ack = false := by
  obtain ⟨p, hreads, hin, hsub⟩ := readsTo_sum c hmax
  obtain ⟨hrun, hsilent⟩ := h.run (linkCycle_driveFeedStep s x) hreads (by simp [summedBytes, frameFront])
  obtain ⟨-, he, hv, -⟩ := h
  obtain ⟨hlast, hout⟩ := hrun.reads (x := x) he (linkCycle_driveStep s) (by simp [hsub, ParserSub.readsByte])
  rw [hin.onByte_wrong_sum hsub hx] at hlast hout
  rw [summedBytes_length, arriving_driveStep_of_not_valid hv] at hlast
  rw [driveLink_append_singleton, runBlock_append, runOutputs_append]
  exact ⟨hlast, _, _, rfl, hsilent, hout⟩

/-- Settles O37: the frame is no operation, its bytes arrive, and the last one is a ChecksumMismatch. -/
theorem wrongSumFrameIsDiscarded : Obligations.WrongSumFrameIsDiscarded := by
  intro s c x payload rest h hmax hx
  rw [frameFront_append_tail_sum]
  have hword := decode_of_wrong_sum (hmax.trans s.params.payloadMax_legal) hx
  obtain ⟨hkeeps, front, last, houts, hfront, hevt, hack⟩ := h.rejectsWrongSum hmax hx
  obtain ⟨hinv, ⟨-, hbin, -⟩, -⟩ := h
  have hrest : State.Inv { s with stim := rest } := hinv
  exact ⟨_, front, last, (step_of_link_error hword rest).trans (perform_of_inv hrest _ _), houts, hfront, hevt, hack,
    hkeeps.parser_eq, hkeeps.mode_eq.trans hbin, hkeeps.wr_eq, hkeeps.rd_eq_wr, hkeeps.ovr_eq, hkeeps.kept,
    hkeeps.encoder_eq⟩

end Sys2Proof.Machine

/-! Proofs. 43_frame_parser.md: garbage that arrives at a listening parser (R185, R202). -/

namespace Sys2Proof.Machine

variable {P : Params} {s t : State} {n : Nat} {bytes : List Byte}

/-- R82: bytes without 0xFE are no frame. -/
theorem decode_link_of_noHead (h : ∀ x ∈ bytes, x ≠ headMagic0) : ∃ err, decode P (.link bytes) = .error err := by
  cases hword : decode P (.link bytes) with
  | error err => exact ⟨err, rfl⟩
  | ok i =>
    obtain ⟨c, payload, rfl, -⟩ := eq_of_decodeLink hword
    exact absurd rfl (h headMagic0 (by simp [frameBytes, frameFront]))

/-- R185, R202: with no head among them, the bytes that arrive at a listening parser are dropped. -/
theorem Listening.drops (h : Listening s) (hbytes : ∀ x ∈ bytes, x ≠ headMagic0) :
    KeepingUp s bytes.length [] Parser.reset (runBlock s.params s.blk (driveLink bytes s.pins))
      ∧ AllSilent (runOutputs s.params s.blk (driveLink bytes s.pins)) := by
  have ⟨_, he, hv, _⟩ := h
  have hlast := arriving_driveStep_of_not_valid hv
  by_cases hnil : bytes = []
  · subst hnil
    obtain ⟨hnext, hout⟩ := (keepingUp_start h).waits he (linkCycle_driveStep s)
    rw [hlast] at hnext
    exact ⟨hnext, List.forall_mem_singleton.mpr hout⟩
  · have hrun := h.run (linkCycle_driveStep s) (readsTo_reset_of_noHead hbytes) hnil
    rwa [hlast] at hrun

/-- A parser that has read every byte and is in HEAD0 listens again under the lines it listened under before. -/
theorem KeepingUp.listening (h : KeepingUp s n [] Parser.reset t.blk) (hs : Listening s) (hparams : t.params = s.params)
    (hpins : t.pins = s.pins) : Listening t := by
  obtain ⟨-, ⟨hr, hbin, hc⟩, hv, -⟩ := hs
  have hcontrol : controlAction t.blk t.pins = false := by
    rw [hpins, controlAction_of_mode_eq h.mode_eq, hc]
  have hinv : t.blk.Ok t.params := hparams ▸ h.ok
  exact ⟨hinv, ⟨hpins ▸ hr, h.mode_eq.trans hbin, hcontrol⟩, hpins ▸ hv, h.parser_eq, h.rd_eq_wr.symm⟩

/-- Settles O39: the garbage is no operation, its bytes arrive, and each is dropped in HEAD0. -/
theorem garbageBeforeAHeadIsIgnored : Obligations.GarbageBeforeAHeadIsIgnored := by
  intro s bytes rest h hbytes
  obtain ⟨err, hword⟩ := decode_link_of_noHead (P := s.params) hbytes
  obtain ⟨hkeeps, hsilent⟩ := h.drops hbytes
  have ⟨hinv, _⟩ := h
  have hrest : State.Inv { s with stim := rest } := hinv
  exact ⟨_, (step_of_link_error hword rest).trans (perform_of_inv hrest _ _), hsilent, hkeeps.listening h rfl rfl,
    hkeeps.wr_eq, hkeeps.ovr_eq⟩

end Sys2Proof.Machine

/-! Proofs. 43_frame_parser.md: a cycle in which the parser makes its step (R137, R201), its frame (R181, R182), and the rule of
each sub-state for the byte it reads (R185 to R197). -/

namespace Sys2Proof.Machine

variable {P : Params} {b b' : Block} {i j : Inputs} {o : Outputs} {r : ParserStep} {p : Parser} {x : Byte} {k : Event} {s : State}

/-! ### A cycle in which the parser makes its step -/

/-- A cycle follows the parser's step `r`: it ends in the step's parser and shows the step's report. -/
structure Follows (b' : Block) (o : Outputs) (r : ParserStep) : Prop where
  parser_eq : b'.p = r.p
  evt_eq : o.evt = r.evt
  rx_ack_eq : o.rx_ack = r.rxAck

/-- R137, R201: a cycle with the parser's enable follows the parser's step. -/
theorem follows_of_pstep (P : Params) (h : pstep b i = true) :
    Follows (nextBlock P b i) (outputsOf P b i) (parserStep P b i) := by
  obtain ⟨hr, -, -, hc⟩ := pstep_iff.mp h
  have hphase := parserPhase_of_pstep (P := P) h
  exact ⟨by simp [nextBlock_eq hr, hc, hphase], by simp [outputsOf, eventOf, hr, hc, hphase],
    by simp [outputsOf, rxAckOf, hr, hc, hphase]⟩

theorem Follows.quiet (h : Follows b' o (quietStep p)) : b'.p = p ∧ o.evt = .none := ⟨h.parser_eq, h.evt_eq⟩

theorem Follows.raised (h : Follows b' o (raiseErr k p)) : b'.p = Parser.reset ∧ o.evt = k ∧ o.evt.code = k.code :=
  ⟨h.parser_eq, h.evt_eq, congrArg Event.code h.evt_eq⟩

/-- R131: with the parser's enable no control action changes the mode. -/
theorem nextBlock_mode_of_pstep (P : Params) (h : pstep b i = true) : (nextBlock P b i).mode = b.mode := by
  obtain ⟨hr, -, -, hc⟩ := pstep_iff.mp h
  exact (nextBlock_mode hr).trans (modePhase_of_not_control hc)

theorem nextBlock_e (hr : i.rst = false) : (nextBlock P b i).e = encoderPhase P b.e i (ackTake b i) := by rw [nextBlock_eq hr]

theorem nextBlock_q (hr : i.rst = false) : (nextBlock P b i).q = pushPhase P (popPhase P b i) i := by rw [nextBlock_eq hr]

theorem ackTake_of_ne_ackReq (h : b.p.sub ≠ .ackReq) : ackTake b i = false := by simp [ackTake, h]

theorem ackTake_of_not_pstep (h : pstep b i = false) : ackTake b i = false := by simp [ackTake, h]

/-- R242: without an ACK taken, the encoder makes of a cycle what it makes of the same lines with step_en at 0. -/
theorem nextBlock_e_eq_unstepped (hr : i.rst = false) (hj : j.rst = false) (hack : ackTake b i = false)
    (hstep : j.step_en = false) (hlines : encoderPhase P b.e i false = encoderPhase P b.e j false) :
    (nextBlock P b i).e = (nextBlock P b j).e := by
  rw [nextBlock_e hr, nextBlock_e hj, hack, ackTake_of_not_pstep (pstep_of_not_step_en hstep), hlines]

theorem pstep_driveStep (h : ParserEnabled s) : pstep s.blk (driveStep true s.pins) = true := by
  obtain ⟨hr, hbin, hc⟩ := h
  exact pstep_iff.mpr ⟨hr, hbin, rfl, hc⟩

/-- R181: a sub-state that reads a byte consumes it, if the queue has one. -/
theorem nextBlock_q_of_reads (P : Params) (h : pstep b i = true) (hreads : b.p.sub.readsByte = true) (hv : i.in_valid = false) :
    (nextBlock P b i).q = if b.q.wr = b.q.rd then b.q else qPop P b.q := by
  obtain ⟨hr, hbin, -⟩ := pstep_iff.mp h
  have htakes : parserTakes b i = !qEmpty b.q := by simp [parserTakes, h, hreads]
  rw [nextBlock_q_of_binaryFrame hr hbin hv, htakes]
  by_cases hempty : b.q.wr = b.q.rd <;> simp [qEmpty, hempty]

/-- R198, R199: DISPATCH and ACKREQ consume no byte. -/
theorem nextBlock_q_of_not_reads (P : Params) (h : pstep b i = true) (hreads : b.p.sub.readsByte = false)
    (hv : i.in_valid = false) : (nextBlock P b i).q = b.q := by
  obtain ⟨hr, hbin, -⟩ := pstep_iff.mp h
  have htakes : parserTakes b i = false := by simp [parserTakes, hreads]
  rw [nextBlock_q_of_binaryFrame hr hbin hv, htakes]
  rfl

/-! ### The rule of each sub-state -/

theorem joinBytes_eq_ofNat (hi lo : Byte) : joinBytes hi lo = BitVec.ofNat 16 (hi.toNat * 256 + lo.toNat) := by
  rw [← joinBytes_toNat, BitVec.ofNat_toNat, BitVec.setWidth_eq]

theorem onByte_of_head0 (h : p.sub = .head0) : onByte P p x = onHead0 p x := by simp only [onByte, h]

theorem onByte_of_head1 (h : p.sub = .head1) : onByte P p x = onHead1 p x := by simp only [onByte, h]

theorem onByte_of_cmd (h : p.sub = .cmd) : onByte P p x = onCmd P p x := by simp only [onByte, h]

theorem onByte_of_lenHi (h : p.sub = .lenHi) : onByte P p x = onLenHi p x := by simp only [onByte, h]

/-- R189, for the length `L` that the two bytes make. -/
theorem onByte_of_lenLo (h : p.sub = .lenLo) {L : Half} (hL : joinBytes (hiByte p.len) x = L) :
    onByte P p x =
      if P.payloadMax < L.toNat then raiseErr .allocationFailure p
      else if L = 0 then quietStep { p with sub := .tail0, len := L, acc := p.acc + x, tim := 0 }
      else quietStep { p with sub := .payload, len := L, idx := 0, acc := p.acc + x, tim := 0 } := by
  simp only [onByte, h, onLenLo, hL, add8_eq]

theorem onByte_of_payload (h : p.sub = .payload) : onByte P p x = onPayload p x := by simp only [onByte, h]

theorem onByte_of_tail0 (h : p.sub = .tail0) : onByte P p x = onTail0 p x := by simp only [onByte, h]

theorem onByte_of_tail1 (h : p.sub = .tail1) : onByte P p x = onTail1 P p x := by simp only [onByte, h]

theorem onByte_of_sum (h : p.sub = .sum) : onByte P p x = onSum p x := by simp only [onByte, h]

/-! ### process_step -/

/-- R181, R201: process_step of an enabled parser with a byte in the queue: a sub-state that reads a byte follows its rule with
that byte, which is consumed. -/
theorem processStep_reads (hready : Ready s) (he : ParserEnabled s) (hne : s.blk.q.wr ≠ s.blk.q.rd) :
    ∃ t o, exec .processStep s = .next t ∧ t.outs = [o]
      ∧ (∀ {sub r}, s.blk.p.sub = sub → sub.readsByte = true →
          onByte s.params s.blk.p (s.blk.q.buf.read s.blk.q.rd) = r → Follows t.blk o r)
      ∧ (s.blk.p.sub.readsByte = true → s.pins.in_valid = false → t.blk.q = qPop s.params s.blk.q) := by
  obtain ⟨t, hexec, houts, hblk, -⟩ := perform_one_shows hready (driveStep true s.pins) .none
  have hstep := pstep_driveStep he
  refine ⟨t, _, hexec, houts, ?_, fun hreads hv => ?_⟩
  · rintro sub r rfl hreads rfl
    have hfollows := follows_of_pstep s.params hstep
    rw [parserStep_of_byte hreads hne] at hfollows
    rwa [hblk]
  · rw [hblk, nextBlock_q_of_reads s.params hstep hreads hv, if_neg hne]

/-- Settles O24: the rules of HEAD0 and HEAD1. -/
theorem headBytesAreMatchedInOrder : Obligations.HeadBytesAreMatchedInOrder := by
  intro s hready he hne p x
  obtain ⟨t, o, hexec, houts, hread, hq⟩ := processStep_reads hready he hne
  refine ⟨t, o, hexec, houts, fun hs hx => ?_, fun hs hx => ?_, fun hs hx => ?_, fun hs hx => ?_, fun hs hv => ?_⟩
  · exact (hread hs rfl ((onByte_of_head0 hs).trans (if_pos hx))).quiet
  · exact (hread hs rfl ((onByte_of_head0 hs).trans (if_neg hx))).quiet
  · exact (hread hs rfl ((onByte_of_head1 hs).trans (if_pos hx))).quiet
  · exact (hread hs rfl ((onByte_of_head1 hs).trans (if_neg hx))).raised
  · exact hq (by obtain hs | hs := hs <;> exact hs ▸ rfl) hv

/-- Settles O25: the rules of CMD, LENHI and LENLO. -/
theorem cmdAndLenBytesAreTaken : Obligations.CmdAndLenBytesAreTaken := by
  intro s hready he hne P p x L
  obtain ⟨t, o, hexec, houts, hread, -⟩ := processStep_reads hready he hne
  have hhi : joinBytes x 0 = BitVec.ofNat 16 (x.toNat * 256) := by simp [joinBytes_eq_ofNat]
  have hL : joinBytes (hiByte p.len) x = L := by rw [joinBytes_eq_ofNat, hiByte_toNat]
  refine ⟨t, o, hexec, houts, fun hs => ?_, fun hs => ?_, fun hs hmax => ?_, fun hs hzero => ?_, fun hs hpos hmax => ?_⟩
  · exact (hread hs rfl (onByte_of_cmd hs)).quiet
  · rw [← hhi]
    exact (hread hs rfl (onByte_of_lenHi hs)).quiet
  · exact (hread hs rfl ((onByte_of_lenLo hs hL).trans (if_pos hmax))).raised
  · have hL0 : joinBytes (hiByte p.len) x = 0 := hL.trans (BitVec.eq_of_toNat_eq hzero)
    exact (hread hs rfl ((onByte_of_lenLo hs hL0).trans ((if_neg (by simp)).trans (if_pos rfl)))).quiet
  · have hL0 : L ≠ 0 := fun h0 => by simp [h0] at hpos
    exact (hread hs rfl ((onByte_of_lenLo hs hL).trans ((if_neg (Nat.not_lt.mpr hmax)).trans (if_neg hL0)))).quiet

/-- Settles O26: the rule of PAYLOAD, and the laws of a write to p_buf. -/
theorem payloadByteIsStoredAtItsIndex : Obligations.PayloadByteIsStoredAtItsIndex := by
  intro s hready he hne hs p x
  obtain ⟨t, o, hexec, houts, hread, -⟩ := processStep_reads hready he hne
  obtain ⟨-, -, hwf⟩ := hready
  obtain ⟨hp, hevt, -⟩ := hread hs rfl (onByte_of_payload hs)
  refine ⟨t, o, hexec, houts, hevt, ?_⟩
  rw [hp]
  exact ⟨Memory.read_write_same hwf _ x, fun k hk => Memory.read_write_other hwf x hk, rfl, rfl, rfl, rfl, rfl, rfl, rfl⟩

/-- Settles O27: the rules of TAIL0 and TAIL1. -/
theorem tailBytesAreComparedTogether : Obligations.TailBytesAreComparedTogether := by
  intro s hready he hne p x T
  obtain ⟨t, o, hexec, houts, hread, hq⟩ := processStep_reads hready he hne
  have hT : (p.t0, x) = T ↔ p.t0 = tailMagic0 s.params ∧ x = tailMagic1 s.params := by
    rw [← Prod.mk.injEq]
    simp only [T, tailMagic0, tailMagic1]
    cases s.params.tail <;> rfl
  refine ⟨t, o, hexec, houts, fun hs => ?_, fun hs hx => ?_, fun hs hx => ?_, fun hs hv => ?_⟩
  · exact (hread hs rfl (onByte_of_tail0 hs)).quiet
  · exact (hread hs rfl ((onByte_of_tail1 hs).trans (if_pos (hT.mp hx)))).quiet
  · exact (hread hs rfl ((onByte_of_tail1 hs).trans (if_neg (mt hT.mpr hx)))).raised
  · exact hq (by obtain hs | hs := hs <;> exact hs ▸ rfl) hv

/-- Settles O28: the rule of SUM, and the classification of a frame by its command. -/
theorem sumByteIsCheckedBeforeTheCommand : Obligations.SumByteIsCheckedBeforeTheCommand := by
  intro s hready he hne hs p x
  obtain ⟨t, o, hexec, houts, hread, -⟩ := processStep_reads hready he hne
  have hrule : onByte s.params p x = onSum p x := onByte_of_sum hs
  have hright (hx : x = p.acc) : Follows t.blk o (classify p) := hread hs rfl (hrule.trans (if_pos hx))
  refine ⟨t, o, hexec, houts, fun hx => ?_, fun hx hcmd => ?_, fun hx hcmd => ?_, fun hx h1 h2 h3 h4 h5 => ?_⟩
  · obtain ⟨hp, hevt, hack⟩ := hread hs rfl (hrule.trans (if_neg hx))
    exact ⟨hp, hevt, congrArg Event.code hevt, hack⟩
  · obtain ⟨hp, hevt, hack⟩ := classify_of_dispatched hcmd ▸ hright hx
    exact ⟨hp, hevt, hack⟩
  · obtain ⟨hp, hevt, hack⟩ := classify_of_ack hcmd ▸ hright hx
    exact ⟨hp, hevt, hack⟩
  · obtain ⟨hp, hevt, hack⟩ := classify_of_unknown h1 h2 h3 h4 h5 ▸ hright hx
    exact ⟨hp, hevt, congrArg Event.code hevt, hack⟩

/-- Settles O29: a sub-state that reads a byte takes one, the others none, and outside ACKREQ the encoder sees no request for
an ACK. -/
theorem parserStepLeavesTheOtherUnits : Obligations.ParserStepLeavesTheOtherUnits := by
  intro s hready he hv unstepped
  obtain ⟨t, hexec, -, hblk, -⟩ := perform_one_shows hready (driveStep true s.pins) .none
  have hstep := pstep_driveStep he
  obtain ⟨hr, -, -⟩ := he
  have hencoder (hne : s.blk.p.sub ≠ .ackReq) : t.blk.e = unstepped.e :=
    (congrArg Block.e hblk).trans
      (nextBlock_e_eq_unstepped (i := driveStep true s.pins) hr hr (ackTake_of_ne_ackReq hne) rfl rfl)
  refine ⟨t, hexec, hblk ▸ nextBlock_mode_of_pstep s.params hstep, hencoder, ?_⟩
  cases hreads : s.blk.p.sub.readsByte
  case false =>
    have hnot : ¬ (s.blk.p.sub ≠ .dispatch ∧ s.blk.p.sub ≠ .ackReq) := by simp [← ParserSub.readsByte_iff, hreads]
    rw [hblk, nextBlock_q_of_not_reads s.params hstep hreads hv]
    exact ⟨rfl, rfl, rfl, fun _ => rfl, fun hdisp hack => absurd ⟨hdisp, hack⟩ hnot⟩
  case true =>
    obtain ⟨hdisp, hack⟩ := ParserSub.readsByte_iff.mp hreads
    rw [hblk, nextBlock_q_of_reads s.params hstep hreads hv]
    split_ifs with hempty
    · exact ⟨rfl, rfl, rfl, fun _ => rfl, fun _ _ hne => absurd hempty hne⟩
    · refine ⟨rfl, rfl, rfl, fun hnone => ?_, fun _ _ _ => rfl⟩
      tauto

end Sys2Proof.Machine

/-! Proofs. 43_frame_parser.md: one poll of a byte read (R107, R183, R184). -/

namespace Sys2Proof.Machine

variable {P : Params} {b : Block} {i : Inputs} {p : Parser} {x : Byte} {T : Nat} {tick : Bool}

/-! ### The timer -/

/-- R184: a byte that is read restarts the timer, and is never a Timeout. -/
theorem onByte_restarts_timer (h : p.sub.readsByte = true) :
    (onByte P p x).p.tim = 0 ∧ (onByte P p x).evt ≠ .timeout := by
  cases hs : p.sub
  case head0 =>
    rw [onByte_of_head0 hs, onHead0]
    split_ifs <;> simp
  case head1 =>
    rw [onByte_of_head1 hs, onHead1]
    split_ifs <;> simp [Parser.reset]
  case cmd => simp [onByte_of_cmd hs, onCmd]
  case lenHi => simp [onByte_of_lenHi hs, onLenHi]
  case lenLo =>
    rw [onByte_of_lenLo hs rfl]
    split_ifs <;> simp [Parser.reset]
  case payload => simp [onByte_of_payload hs, onPayload]
  case tail0 => simp [onByte_of_tail0 hs, onTail0]
  case tail1 =>
    rw [onByte_of_tail1 hs, onTail1]
    split_ifs <;> simp [Parser.reset]
  case sum =>
    rw [onByte_of_sum hs, onSum, classify]
    split_ifs <;> simp [Parser.reset]
  case dispatch | ackReq => simp [hs, ParserSub.readsByte] at h

/-- R183: HEAD0 waits without a budget (D10). -/
theorem onEmpty_of_head0 (P : Params) (h : p.sub = .head0) (tick : Bool) : onEmpty P p tick = quietStep p := by
  simp only [onEmpty, h, budget]

/-- R183: only a tick counts towards the budget. -/
theorem onEmpty_of_not_tick (h : budget P p.sub = some T) (ht : tick = false) : onEmpty P p tick = quietStep p := by
  simp [onEmpty, h, ht]

/-- R183: the tick that brings the wait to the budget is a Timeout. -/
theorem onEmpty_of_tick (h : budget P p.sub = some T) (ht : tick = true) :
    onEmpty P p tick = if T ≤ p.tim + 1 then raiseErr .timeout p else quietStep { p with tim := p.tim + 1 } := by
  simp only [onEmpty, h, ht, if_true]

/-! ### pop_blocking -/

/-- R107, R184: a poll with a byte in the queue takes the byte. -/
theorem poll_of_byte (hstep : pstep b i = true) (hreads : b.p.sub.readsByte = true) (hne : b.q.wr ≠ b.q.rd) :
    pollResult P b i = .byte (b.q.buf.read b.q.rd) ∧ (nextBlock P b i).p.tim = 0 ∧ (outputsOf P b i).evt ≠ .timeout := by
  obtain ⟨hdisp, hack⟩ := ParserSub.readsByte_iff.mp hreads
  have htakes := (parserTakes_iff hstep).mpr ⟨hdisp, hack, hne⟩
  obtain ⟨hp, hevt, -⟩ := follows_of_pstep P hstep
  rw [hp, hevt, parserStep_of_byte hreads hne]
  refine ⟨?_, onByte_restarts_timer hreads⟩
  simp only [pollResult, parserPopped, htakes, if_true]
  rfl

/-- R107, R183: a poll with an empty queue is the wait of the sub-state. -/
theorem poll_of_empty (hstep : pstep b i = true) (hreads : b.p.sub.readsByte = true) (hempty : b.q.wr = b.q.rd) {r : ParserStep}
    (hr : onEmpty P b.p i.tick = r) :
    pollResult P b i = (if r.evt = .timeout then .timeout else .waiting)
      ∧ Follows (nextBlock P b i) (outputsOf P b i) r := by
  have hfollows := follows_of_pstep P hstep
  rw [parserStep_of_empty hreads hempty, hr] at hfollows
  have htakes : parserTakes b i = false := by simp [parserTakes, qEmpty_iff.mpr hempty]
  have hevt : eventOf P b i = r.evt := hfollows.evt_eq
  exact ⟨by simp [pollResult, parserPopped, htakes, hevt], hfollows⟩

/-- R107: a poll without the parser's enable waits. -/
theorem pollResult_of_not_pstep (hr : i.rst = false) (hc : controlAction b i = false) (hstep : pstep b i = false) :
    pollResult P b i = .waiting ∧ (outputsOf P b i).evt = .none := by
  have hevt : eventOf P b i = .none := by simp [eventOf, hr, hc, parserPhase_of_not_pstep hstep]
  exact ⟨by simp [pollResult, parserPopped, parserTakes_of_not_pstep hstep, hevt], hevt⟩

/-- Settles O23: with a byte in the queue the poll is the parser's read, with none its wait, and without step_en the parser
makes no step. -/
theorem pollTakesAByteOrCountsTowardsTimeout : Obligations.PollTakesAByteOrCountsTowardsTimeout := by
  intro s tick hready he P p T hdisp hack unstepped
  have ⟨hr, hbin, hc⟩ := he
  have hreads : s.blk.p.sub.readsByte = true := ParserSub.readsByte_iff.mpr ⟨hdisp, hack⟩
  have hencoder (v : Bool) : (nextBlock P s.blk (driveStepTick v tick s.pins)).e = unstepped.e :=
    nextBlock_e_eq_unstepped (i := driveStepTick v tick s.pins) hr hr (ackTake_of_readsByte hreads) rfl rfl
  have hbudget (h0 : p.sub ≠ .head0) : budget P p.sub = some T := by
    simp only [T, p]
    cases hs : s.blk.p.sub
    case head0 => exact absurd hs h0
    case dispatch => exact absurd hs hdisp
    case ackReq => exact absurd hs hack
    all_goals rfl
  refine ⟨?_, ?_⟩
  · obtain ⟨t, hexec, houts, hblk, hret⟩ := perform_one_shows hready (driveStepTick true tick s.pins)
      (.polled (pollResult P s.blk (driveStepTick true tick s.pins)))
    have hstep : pstep s.blk (driveStepTick true tick s.pins) = true := pstep_iff.mpr ⟨hr, hbin, rfl, hc⟩
    have hwaits {r : ParserStep} (hempty : s.blk.q.wr = s.blk.q.rd) (hrule : onEmpty P p tick = r) :
        t.ret = .polled (if r.evt = .timeout then .timeout else .waiting)
          ∧ Follows t.blk (outputsOf P s.blk (driveStepTick true tick s.pins)) r := by
      obtain ⟨hresult, hfollows⟩ := poll_of_empty hstep hreads hempty hrule
      exact ⟨hret.trans (congrArg Result.polled hresult), hblk ▸ hfollows⟩
    refine ⟨t, _, hexec, houts, hblk ▸ nextBlock_mode_of_pstep P hstep, (congrArg Block.e hblk).trans (hencoder true),
      fun hv => ?_, fun hne => ?_, fun hempty hs => ?_, fun hempty h0 ht => ?_, fun hempty h0 ht hlt => ?_,
      fun hempty h0 ht hle => ?_⟩
    · rw [hblk, nextBlock_q_of_reads P hstep hreads hv]
      split_ifs <;> exact ⟨rfl, rfl, rfl, rfl⟩
    · obtain ⟨hresult, htim, hevt⟩ := poll_of_byte (P := P) hstep hreads hne
      exact ⟨hret.trans (congrArg Result.polled hresult), hblk ▸ htim, hevt⟩
    · obtain ⟨hret, hfollows⟩ := hwaits hempty (onEmpty_of_head0 P hs tick)
      exact ⟨hret, hfollows.quiet⟩
    · obtain ⟨hret, hfollows⟩ := hwaits hempty (onEmpty_of_not_tick (hbudget h0) ht)
      exact ⟨hret, hfollows.quiet⟩
    · obtain ⟨hret, hfollows⟩ := hwaits hempty ((onEmpty_of_tick (hbudget h0) ht).trans (if_neg (Nat.not_le.mpr hlt)))
      exact ⟨hret, hfollows.quiet⟩
    · obtain ⟨hret, hfollows⟩ := hwaits hempty ((onEmpty_of_tick (hbudget h0) ht).trans (if_pos hle))
      exact ⟨hret, hfollows.raised⟩
  · obtain ⟨t, hexec, houts, hblk, hret⟩ := perform_one_shows hready (driveStepTick false tick s.pins)
      (.polled (pollResult P s.blk (driveStepTick false tick s.pins)))
    have hstep : pstep s.blk (driveStepTick false tick s.pins) = false := pstep_of_not_step_en rfl
    obtain ⟨hp, hmode⟩ := nextBlock_of_not_pstep (P := P) (i := driveStepTick false tick s.pins) hr hc hstep
    obtain ⟨hresult, hevt⟩ := pollResult_of_not_pstep (P := P) (i := driveStepTick false tick s.pins) hr hc hstep
    have hq : (nextBlock P s.blk (driveStepTick false tick s.pins)).q = unstepped.q :=
      (nextBlock_q (i := driveStepTick false tick s.pins) hr).trans (nextBlock_q (i := { s.pins with step_en := false }) hr).symm
    exact ⟨t, _, hexec, houts, hret.trans (congrArg Result.polled hresult), hblk ▸ hp, hevt, hblk ▸ hq, hblk ▸ hmode,
      (congrArg Block.e hblk).trans (hencoder false)⟩

end Sys2Proof.Machine

/-! Proofs. 43_frame_parser.md: the two sub-states that read no byte, DISPATCH (R198) and ACKREQ (R199, R242). -/

namespace Sys2Proof.Machine

variable {P : Params} {b : Block} {i : Inputs} {a : Bool} {c : Byte} {p : Parser}

/-! ### The sink's answer -/

/-- The lines of a cycle in which the sink gives no answer. -/
def unanswered (i : Inputs) : Inputs := { i with disp_done := false }

/-- R198: the answer is the parser's alone. -/
theorem nextBlock_driveDisp_frame (P : Params) (b : Block) (i : Inputs) (a : Bool) :
    (nextBlock P b (driveDisp true a i)).q = (nextBlock P b (unanswered i)).q
      ∧ (nextBlock P b (driveDisp true a i)).mode = (nextBlock P b (unanswered i)).mode
      ∧ (nextBlock P b (driveDisp true a i)).e = (nextBlock P b (unanswered i)).e := by
  cases hr : i.rst
  case true =>
    rw [nextBlock_of_rst (i := driveDisp true a i) hr, nextBlock_of_rst (i := unanswered i) hr]
    exact ⟨rfl, rfl, rfl⟩
  case false =>
    rw [nextBlock_eq (i := driveDisp true a i) hr, nextBlock_eq (i := unanswered i) hr]
    exact ⟨rfl, rfl, rfl⟩

/-- R137, R198: outside DISPATCH, and without the parser's enable, the parser does not see the answer. -/
theorem parserPhase_driveDisp (P : Params) (h : b.p.sub ≠ .dispatch ∨ pstep b i = false) :
    parserPhase P b (driveDisp true a i) = parserPhase P b (unanswered i) := by
  obtain hs | hstep := h
  · simp only [parserPhase, parserStep, if_neg hs]
    rfl
  · rw [parserPhase_of_not_pstep (i := driveDisp true a i) hstep, parserPhase_of_not_pstep (i := unanswered i) hstep]

theorem cycle_driveDisp_of_unseen (P : Params) (h : b.p.sub ≠ .dispatch ∨ pstep b i = false) :
    cycle P b (driveDisp true a i) = cycle P b (unanswered i) := by
  simp only [cycle, nextBlock, outputsOf, eventOf, rxAckOf, parserPhase_driveDisp P h]
  rfl

/-! ### DISPATCH -/

theorem ackWanted_of_always (h : c = cmdTransCmd ∨ c = cmdFileParam) (a : Bool) : ackWanted c a = true := by
  obtain rfl | rfl := h <;> rfl

theorem ackWanted_of_asked (h : c = cmdFilePacket ∨ c = cmdCustomize) (a : Bool) : ackWanted c a = a := by
  obtain rfl | rfl := h <;> rfl

theorem ackWanted_of_other (h1 : c ≠ cmdTransCmd) (h3 : c ≠ cmdFileParam) (h4 : c ≠ cmdFilePacket) (h5 : c ≠ cmdCustomize)
    (a : Bool) : ackWanted c a = false := by
  rw [ackWanted, decide_eq_false h1, decide_eq_false h3, decide_eq_false h4, decide_eq_false h5]
  rfl

theorem parserStep_of_dispatch (P : Params) (h : b.p.sub = .dispatch) (i : Inputs) :
    parserStep P b i = onDispatch b.p i.disp_done i.disp_ack := if_pos h

theorem onDispatch_of_acknowledged (h : ackWanted p.cmd a = true) :
    onDispatch p true a = quietStep { p with sub := .ackReq } := if_pos h

theorem onDispatch_of_released (h : ackWanted p.cmd a = false) : onDispatch p true a = quietStep Parser.reset := by
  simp [onDispatch, h]

theorem onDispatch_evt (p : Parser) (done a : Bool) : (onDispatch p done a).evt = .none := by
  unfold onDispatch
  split_ifs <;> rfl

/-- R198: without an answer the parser waits in DISPATCH. -/
theorem parserStep_of_dispatch_unanswered (P : Params) (h : b.p.sub = .dispatch) (hd : i.disp_done = false) :
    parserStep P b i = quietStep b.p := by
  rw [parserStep_of_dispatch P h, hd]
  rfl

/-- Settles O30: the answer reaches a cycle through the parser alone, and in DISPATCH the command decides what it means. -/
theorem sinkAnswerDecidesTheAck : Obligations.SinkAnswerDecidesTheAck := by
  intro s a hready unansweredCycle
  obtain ⟨t, hexec, houts, hblk, -⟩ := perform_one_shows hready (driveDisp true a s.pins) .none
  obtain ⟨hq, hmode, he⟩ := nextBlock_driveDisp_frame s.params s.blk s.pins a
  refine ⟨t, _, hexec, houts, hblk ▸ hq, hblk ▸ hmode, hblk ▸ he, fun he hen hs => ?_, fun hunseen => ?_,
    fun he hdone hs => ?_⟩
  · obtain ⟨hr, hbin, hc⟩ := he
    have hstep : pstep s.blk (driveDisp true a s.pins) = true := pstep_iff.mpr ⟨hr, hbin, hen, hc⟩
    have hfollows := follows_of_pstep s.params hstep
    rw [parserStep_of_dispatch s.params hs, ← hblk] at hfollows
    obtain ⟨hport, -⟩ := dispatchPortShowsTheFrameInDispatchOnly s.params s.blk (driveDisp true a s.pins) hr
    obtain ⟨hvalid, hcmd, hlen, hread, -⟩ := hport hs
    have hacked (h : ackWanted s.blk.p.cmd a = true) : t.blk.p = { s.blk.p with sub := .ackReq } :=
      hfollows.parser_eq.trans (congrArg ParserStep.p (onDispatch_of_acknowledged h))
    have hreleased (h : ackWanted s.blk.p.cmd a = false) : t.blk.p = Parser.reset :=
      hfollows.parser_eq.trans (congrArg ParserStep.p (onDispatch_of_released h))
    exact ⟨hvalid, hcmd, hlen, hfollows.evt_eq.trans (onDispatch_evt _ _ _), hread,
      fun h => hacked (ackWanted_of_always h a),
      fun h ha => hacked ((ackWanted_of_asked h a).trans ha),
      fun h ha => hreleased ((ackWanted_of_asked h a).trans ha),
      fun h1 h3 h4 h5 => hreleased (ackWanted_of_other h1 h3 h4 h5 a)⟩
  · have hcycle := cycle_driveDisp_of_unseen (a := a) s.params hunseen
    exact ⟨hblk.trans (congrArg Prod.fst hcycle), congrArg Prod.snd hcycle⟩
  · obtain ⟨u, hexec, -, hblk, -⟩ := perform_one_shows hready (driveStep true s.pins) .none
    have hfollows := follows_of_pstep s.params (pstep_driveStep he)
    rw [parserStep_of_dispatch_unanswered (i := driveStep true s.pins) s.params hs hdone, ← hblk] at hfollows
    exact ⟨u, hexec, hfollows.parser_eq⟩

/-! ### ACKREQ -/

theorem parserStep_of_ackReq_idle (P : Params) (h : b.p.sub = .ackReq) (hidle : b.e.sub = .idle) (i : Inputs) :
    parserStep P b i = quietStep Parser.reset := by
  simp [parserStep, onAckReq, h, hidle]

theorem parserStep_of_ackReq_busy (P : Params) (h : b.p.sub = .ackReq) (hbusy : b.e.sub ≠ .idle) (i : Inputs) :
    parserStep P b i = quietStep b.p := by
  simp [parserStep, onAckReq, h, hbusy]

/-- R242: an enabled parser in ACKREQ hands its ACK over exactly when the encoder is idle. -/
theorem ackTake_of_ackReq (hstep : pstep b i = true) (h : b.p.sub = .ackReq) : ackTake b i = decide (b.e.sub = .idle) := by
  simp [ackTake, hstep, h]

/-- R242, R243: the ACK goes ahead of an external request. -/
theorem txAcceptOf_of_ackTake (h : ackTake b i = true) : txAcceptOf b i = false := by
  simp [txAcceptOf, accepts, h]

/-- Settles O31: with the encoder idle the ACK is taken and the parser resets; with it busy the parser's step changes nothing. -/
theorem ackIsHandedToAnIdleEncoder : Obligations.AckIsHandedToAnIdleEncoder := by
  intro s hready he hs
  obtain ⟨t, hexec, houts, hblk, hret⟩ :=
    perform_one_shows hready (driveStep true s.pins) (.flag (ackTake s.blk (driveStep true s.pins)))
  have hstep := pstep_driveStep he
  obtain ⟨hr, -, -⟩ := he
  have hfollows := follows_of_pstep s.params hstep
  have hack := ackTake_of_ackReq hstep hs
  have hmode : t.blk.mode = s.blk.mode := hblk ▸ nextBlock_mode_of_pstep s.params hstep
  have hq (hv : s.pins.in_valid = false) : t.blk.q = s.blk.q := by
    rw [hblk]
    exact nextBlock_q_of_not_reads s.params hstep (hs ▸ rfl) hv
  by_cases hidle : s.blk.e.sub = .idle
  · rw [parserStep_of_ackReq_idle s.params hs hidle, ← hblk] at hfollows
    obtain ⟨hp, hevt⟩ := hfollows.quiet
    have htaken : ackTake s.blk (driveStep true s.pins) = true := by simp [hack, hidle]
    have hload : t.blk.e = loadAck := by
      rw [hblk, nextBlock_e (i := driveStep true s.pins) hr, encoderPhase_of_idle hidle, if_pos htaken]
    exact ⟨t, _, hexec, houts, hevt,
      fun _ => ⟨by rw [hret, htaken], hp, txAcceptOf_of_ackTake htaken, hload⟩, fun hbusy => absurd hidle hbusy, hq, hmode⟩
  · rw [parserStep_of_ackReq_busy s.params hs hidle, ← hblk] at hfollows
    obtain ⟨hp, hevt⟩ := hfollows.quiet
    have hkept : ackTake s.blk (driveStep true s.pins) = false := by simp [hack, hidle]
    have hencoder := (congrArg Block.e hblk).trans
      (nextBlock_e_eq_unstepped (i := driveStep true s.pins) (j := { s.pins with step_en := false }) hr hr hkept rfl rfl)
    exact ⟨t, _, hexec, houts, hevt, fun h => absurd h hidle, fun _ => ⟨by rw [hret, hkept], hp, hencoder⟩, hq, hmode⟩

end Sys2Proof.Machine

/-! Proofs. 44_frame_encoder.md: the frames that the encoder makes of its requests on its own: the ACK frame with the bytes of
ACK_ROM (R246, R250, R251), and the L + 8 cycles of a frame that nothing stalls (R253). -/

namespace Sys2Proof.Machine

variable {P : Params} {c : Byte} {given sent : List Byte} {e : Encoder} {b : Block} {i : Inputs}

/-! ### The ACK frame on the wire -/

/-- R246: the payload byte that a transfer of an ACK frame carries is the next one of ACK_ROM. -/
theorem Sending.ack_payload_prefix (h : Sending P c 4 given sent e) (hsrc : e.src = .ack) (hgiven : given <+: ackPayload)
    (i : Inputs) : given ++ payloadPart e (outByte P e i) <+: ackPayload := by
  by_cases hs : e.sub = .payload
  · have hupTo := h.upTo
    simp only [GivenUpTo, hs, h.len_eq] at hupTo
    obtain ⟨hcount, hlt⟩ := hupTo
    have hmore : given.length < ackPayload.length := by rwa [hcount]
    simpa [payloadPart, outByte, ackRom, hs, hsrc, ← hcount, hmore] using List.concat_get_prefix hgiven hmore
  · simpa [payloadPart, hs] using hgiven

/-- R248: an ACK frame takes nothing from the external sender. -/
theorem takenByte_of_ack (hsrc : b.e.src = .ack) : takenByte P b i = none := by
  simp [takenByte, outputsOf, txDready, hsrc]

/-- R250, R251: a run of cycles without rst, busy up to its end, sends an ACK frame on from where the encoder is in it, with the
bytes of ACK_ROM as its payload. -/
theorem Sending.after_ack_run {ins : List Inputs} (h : Sending P c 4 given sent b.e) (hsrc : b.e.src = .ack)
    (hgiven : given <+: ackPayload) (hr : ∀ i ∈ ins, i.rst = false) (hbusy : BusyUntilEnd P b ins) :
    takenBytes P b ins = []
      ∧ ∃ given', given' <+: ackPayload ∧ Sending P c 4 given' (sent ++ sentBytes P b ins) (runBlock P b ins).e := by
  induction ins generalizing b given sent with
  | nil => exact ⟨rfl, given, hgiven, by simpa [sentBytes, runBlock] using h⟩
  | cons i ins ih =>
    obtain ⟨hri, hr⟩ := List.forall_mem_cons.mp hr
    obtain ⟨hb, hbusy⟩ := busyUntilEnd_cons hbusy
    have hnext := nextBlock_e_of_busy (P := P) hri hb
    simp only [takenBytes, sentBytes, runBlock, takenByte_of_ack hsrc, sentByte_of_not_rst hri, cycle_fst] at hbusy ⊢
    by_cases hx : xfer b.e i = true
    · rw [if_pos hx] at hnext ⊢
      have hsending := h.after_transfer hb i
      rw [← hnext] at hsending
      have hkept : (nextBlock P b i).e.src = .ack := by rw [hnext, (advance_keeps P b.e _).1, hsrc]
      simpa [List.append_assoc] using ih hsending hkept (h.ack_payload_prefix hsrc hgiven i) hr hbusy
    · rw [if_neg hx] at hnext ⊢
      rw [← hnext] at h hsrc
      simpa using ih h hsrc hgiven hr hbusy

/-- R251: the ACK frame's tail and sum under the standard tail. -/
theorem ack_tail_of_standard (htail : P.tail = .standard) {x : Byte} (hterm : cmdTerm P cmdAck = x) :
    (frameBytes P cmdAck ackPayload).drop 9 = [0xFA, 0xE3, x + 0x08] := by
  have h0 : tailMagic0 P = 0xFA := by simp [tailMagic0, htail]
  have h1 : tailMagic1 P = 0xE3 := by simp [tailMagic1, htail]
  have hsum : frameChecksum P cmdAck ackPayload = x + 0x08 := by
    rw [frameChecksum, hterm, h0, h1]
    change 0x58 + x + 0x00 + 0x04 + 0xCF + 0xFA + 0xE3 = x + 0x08
    bv_omega
  change [tailMagic0 P, tailMagic1 P, frameChecksum P cmdAck ackPayload] = _
  rw [h0, h1, hsum]

/-- Settles O47: the encoder is on its way through the ACK frame from the hand-over on, and at its end it has given
ACK_ROM whole. -/
theorem ackFrameLeavesWholeAndInOrder : Obligations.AckFrameLeavesWholeAndInOrder := by
  intro P b ins he hr hbusy
  have hstart : Sending P cmdAck 4 [] [] b.e := by
    rw [he]
    exact ⟨rfl, rfl, ⟨rfl, rfl⟩, rfl, fun _ => rfl⟩
  obtain ⟨htaken, given, hprefix, hend⟩ := hstart.after_ack_run (by rw [he]) List.nil_prefix hr hbusy
  obtain ⟨-, hidle⟩ := hbusy
  have hupTo := hend.upTo
  simp only [GivenUpTo, hidle, hend.len_eq] at hupTo
  obtain rfl : given = ackPayload := hprefix.eq_of_length hupTo
  have hsent : sentBytes P b ins = frameBytes P cmdAck ackPayload := by simpa [hidle, leftBy] using hend.sent_eq
  rw [hsent]
  refine ⟨htaken, rfl, rfl, fun htail => ⟨fun hsums => ?_, fun hsums => ?_⟩⟩
  · exact ack_tail_of_standard htail (cmdTerm_of_sumsCmd hsums _)
  · exact ack_tail_of_standard htail (cmdTerm_of_not_sumsCmd hsums _)

/-! ### A frame that nothing stalls -/

/-- R241, R253: how many transfers an encoder is from idle: the bytes from its sub-state to the sum byte. In E_PAYLOAD the byte
at e_idx is among them. -/
def transfersLeft (e : Encoder) : Nat :=
  let payload := (e.len - (e.idx + 1)).toNat + 1
  let payloadOrNone := if e.len = 0 then 0 else payload
  match e.sub with
  | .idle => 0
  | .sum => 1
  | .tail1 => 2
  | .tail0 => 3
  | .payload => payload + 3
  | .lenLo => payloadOrNone + 4
  | .lenHi => payloadOrNone + 5
  | .cmd => payloadOrNone + 6
  | .head1 => payloadOrNone + 7
  | .head0 => payloadOrNone + 8

theorem transfersLeft_eq_zero_iff : transfersLeft e = 0 ↔ e.sub = .idle := by
  cases hs : e.sub <;> simp [transfersLeft, hs]

/-- R253: at the start of a frame of length L they are L + 8. -/
theorem transfersLeft_of_head0 (hs : e.sub = .head0) (hidx : e.idx = 0) : transfersLeft e = e.len.toNat + 8 := by
  by_cases hlen : e.len = 0
  · simp [transfersLeft, hs, hlen]
  · have hpos := toNat_pos_of_ne_zero hlen
    simp only [transfersLeft, hs, hidx, hlen, if_false]
    bv_omega

/-- R247: each transfer is one of them. -/
theorem transfersLeft_advance (P : Params) (o : Byte) (hbusy : e.sub ≠ .idle) :
    transfersLeft e = transfersLeft (advance P e o) + 1 := by
  cases hs : e.sub
  case idle => exact absurd hs hbusy
  case lenLo =>
    by_cases hlen : e.len = 0
    · simp [advance_lenLo_of_zero hs hlen, transfersLeft, hs, hlen]
    · simp only [advance_lenLo_of_ne_zero hs hlen, transfersLeft, hs, if_neg hlen]
  case payload =>
    by_cases hlast : e.idx + 1 = e.len
    · simp only [advance_payload_of_last hs hlast, transfersLeft, hs, hlast, BitVec.sub_self, BitVec.toNat_zero]
    · simp only [advance_payload_of_not_last hs hlast, transfersLeft, hs]
      bv_omega
  all_goals simp [advance, transfersLeft, hs]

theorem busyUntilEnd_nil (h : b.e.sub = .idle) : BusyUntilEnd P b [] := ⟨fun _ hk => absurd hk (Nat.not_lt_zero _), h⟩

theorem BusyUntilEnd.cons {ins : List Inputs} (hbusy : b.e.sub ≠ .idle) (h : BusyUntilEnd P (nextBlock P b i) ins) :
    BusyUntilEnd P b (i :: ins) := by
  obtain ⟨hrest, hidle⟩ := h
  refine ⟨fun k hk => ?_, hidle⟩
  cases k with
  | zero => exact hbusy
  | succ k => exact hrest k (by simpa using hk)

/-- R247: with out_ready and tx_dvalid at 1 a busy encoder's byte transfers. -/
theorem xfer_of_unstalled (hbusy : e.sub ≠ .idle) (hready : i.out_ready = true) (hvalid : i.tx_dvalid = true) :
    xfer e i = true := by
  simp [xfer, outValid_of_busy hbusy, hready, hvalid]

/-- R253: with out_ready and tx_dvalid held 1 the encoder is busy for as many cycles as it has transfers left. -/
theorem busyUntilEnd_of_unstalled {ins : List Inputs}
    (h : ∀ i ∈ ins, i.rst = false ∧ i.out_ready = true ∧ i.tx_dvalid = true) (hlen : ins.length = transfersLeft b.e) :
    BusyUntilEnd P b ins := by
  induction ins generalizing b with
  | nil => exact busyUntilEnd_nil (transfersLeft_eq_zero_iff.mp hlen.symm)
  | cons i ins ih =>
    obtain ⟨⟨hr, hready, hvalid⟩, hrest⟩ := List.forall_mem_cons.mp h
    have hbusy : b.e.sub ≠ .idle := fun hidle => by simp [transfersLeft_eq_zero_iff.mpr hidle] at hlen
    have hnext := nextBlock_e_of_busy (P := P) hr hbusy
    rw [if_pos (xfer_of_unstalled hbusy hready hvalid)] at hnext
    have hleft := transfersLeft_advance P (outByte P b.e i) hbusy
    rw [← hnext] at hleft
    exact BusyUntilEnd.cons hbusy (ih hrest (Nat.succ_injective (hlen.trans hleft)))

/-- Settles O48: an accepted frame of length L has L + 8 transfers left. -/
theorem unstalledFrameTakesItsLengthInCycles : Obligations.UnstalledFrameTakesItsLengthInCycles :=
  fun _ _ _ hs hidx h hlen => busyUntilEnd_of_unstalled h (hlen.trans (transfersLeft_of_head0 hs hidx).symm)

end Sys2Proof.Machine

/-! Proofs. 44_frame_encoder.md: what the encoder reads of a cycle, its own registers, the lines of the sender and the transport,
and the ACK hand-over (R240, R242); a request of the external sender (R243, R244) and the transfer of one byte (R245, R247,
R248). -/

namespace Sys2Proof.Machine

variable {P : Params} {b : Block} {e : Encoder} {i j : Inputs} {a : Bool}

/-! ### What the encoder reads of a cycle -/

/-- The lines of ports tx and out are the same. -/
structure SameSenderLines (i j : Inputs) : Prop where
  tx_req : i.tx_req = j.tx_req
  tx_cmd : i.tx_cmd = j.tx_cmd
  tx_len : i.tx_len = j.tx_len
  tx_dvalid : i.tx_dvalid = j.tx_dvalid
  tx_data : i.tx_data = j.tx_data
  out_ready : i.out_ready = j.out_ready

section
variable (h : SameSenderLines i j)
include h

theorem SameSenderLines.outValid_eq (e : Encoder) : outValid e i = outValid e j := by
  simp only [outValid, h.tx_dvalid]

theorem SameSenderLines.outByte_eq (P : Params) (e : Encoder) : outByte P e i = outByte P e j := by
  simp only [outByte, h.tx_dvalid, h.tx_data]

theorem SameSenderLines.txDready_eq (e : Encoder) : txDready e i = txDready e j := by
  simp only [txDready, h.out_ready]

theorem SameSenderLines.accepts_eq (e : Encoder) (a : Bool) : accepts e i a = accepts e j a := by
  simp only [accepts, h.tx_req]

theorem SameSenderLines.encoderPhase_eq (P : Params) (e : Encoder) (a : Bool) :
    encoderPhase P e i a = encoderPhase P e j a := by
  have hxfer : xfer e i = xfer e j := by simp only [xfer, h.outValid_eq, h.out_ready]
  simp only [encoderPhase, hxfer, h.outByte_eq, h.tx_req, h.tx_cmd, h.tx_len]

end

/-- R316: the next encoder is reset by rst, and otherwise made by the encoder's own phase. -/
theorem nextBlock_e_eq_ite (P : Params) (b : Block) (i : Inputs) :
    (nextBlock P b i).e = if i.rst then Encoder.reset else encoderPhase P b.e i (ackTake b i) := by
  by_cases hr : i.rst = true
  · simp [nextBlock_of_rst hr, hr]
  · simp [nextBlock_e (Bool.eq_false_of_not_eq_true hr), hr]

/-- Settles O49: outside ACKREQ no ACK is taken, and the rest of what the encoder reads is the same. -/
theorem encoderIsIndependentOfTheOtherUnits : Obligations.EncoderIsIndependentOfTheOtherUnits := by
  intro P b c i j he hb hc hr hreq hcmd hlen hdvalid hdata hready
  have hlines : SameSenderLines i j := ⟨hreq, hcmd, hlen, hdvalid, hdata, hready⟩
  have hack : ackTake b i = ackTake c j := (ackTake_of_ne_ackReq hb).trans (ackTake_of_ne_ackReq hc).symm
  simp only [cycle_fst, cycle_snd, nextBlock_e_eq_ite, outputsOf, txAcceptOf, he, hr, hack]
  rw [hlines.encoderPhase_eq, hlines.outValid_eq, hlines.outByte_eq, hlines.txDready_eq, hlines.accepts_eq]
  exact ⟨rfl, rfl, rfl, rfl, rfl⟩

/-! ### A request of the external sender -/

/-- R100, R137: the queue, the mode and the parser do not read the sender's request. -/
theorem nextBlock_driveTx (P : Params) (b : Block) (hr : i.rst = false) (req : Bool) (cmd : Byte) (len : Half) :
    nextBlock P b (driveTx req cmd len i) =
      { nextBlock P b i with e := encoderPhase P b.e (driveTx req cmd len i) (ackTake b i) } := by
  rw [nextBlock_eq hr, nextBlock_eq (i := driveTx req cmd len i) hr]
  rfl

/-- R243: an accepted request is loaded. -/
theorem encoderPhase_of_accepts (h : accepts e i a = true) : encoderPhase P e i a = loadExt i.tx_cmd i.tx_len := by
  obtain ⟨⟨hidle, hreq⟩, hack⟩ : (e.sub = .idle ∧ i.tx_req = true) ∧ a = false := by simpa [accepts] using h
  simp [encoderPhase_of_idle hidle, hreq, hack]

/-- R243: a request that is not accepted asks for nothing. -/
theorem encoderPhase_of_not_accepts (h : accepts e i a = false) :
    encoderPhase P e i a = encoderPhase P e { i with tx_req := false } a := by
  by_cases hidle : e.sub = .idle
  · rw [encoderPhase_of_idle hidle, encoderPhase_of_idle hidle]
    cases ha : a
    · have hreq : i.tx_req = false := by simpa [accepts, hidle, ha] using h
      simp [hreq]
    · rfl
  · rw [encoderPhase_of_busy hidle, encoderPhase_of_busy hidle]
    rfl

/-- Settles O43: the request is accepted exactly when the encoder is idle and takes no ACK, and the encoder
follows the accept. -/
theorem sendFrameIsAcceptedByAnIdleEncoder : Obligations.SendFrameIsAcceptedByAnIdleEncoder := by
  intro s c len hready hr unasked
  let asked := driveTx true c len s.pins
  obtain ⟨t, hexec, houts, hblk, hret⟩ := perform_one_shows hready asked (.flag (txAcceptOf s.blk asked))
  have htake : ackTake s.blk asked = ackTake s.blk s.pins := rfl
  have hunasked : unasked = { nextBlock s.params s.blk s.pins with
      e := encoderPhase s.params s.blk.e { s.pins with tx_req := false } (ackTake s.blk s.pins) } :=
    nextBlock_driveTx s.params s.blk hr false s.pins.tx_cmd s.pins.tx_len
  have haccept : txAcceptOf s.blk asked = accepts s.blk.e asked (ackTake s.blk s.pins) := by
    simp [txAcceptOf, asked, hr, htake]
  rw [nextBlock_driveTx s.params s.blk hr] at hblk
  refine ⟨t, _, hexec, houts, by rw [hblk, hunasked], by rw [hblk, hunasked], by rw [hblk, hunasked], ?_, ?_⟩
  · intro hidle hnoAck
    have hack : ackTake s.blk s.pins = false := by
      by_contra htaken
      obtain ⟨hstep, hs, -⟩ := ackTake_iff.mp (Bool.eq_true_of_not_eq_false htaken)
      exact hnoAck ⟨hstep, hs⟩
    have htaken : accepts s.blk.e asked (ackTake s.blk s.pins) = true := by simp [accepts, asked, hidle, hack]
    exact ⟨by rw [hret, haccept, htaken], haccept.trans htaken, (congrArg Block.e hblk).trans (encoderPhase_of_accepts htaken)⟩
  · intro hrefuses
    have hrefused : accepts s.blk.e asked (ackTake s.blk s.pins) = false := by
      obtain hbusy | ⟨hstep, hs⟩ := hrefuses
      · simp [accepts, hbusy]
      · simp +contextual [accepts, ackTake_of_ackReq hstep hs]
    refine ⟨by rw [hret, haccept, hrefused], haccept.trans hrefused, ?_⟩
    rw [hblk, hunasked]
    exact encoderPhase_of_not_accepts hrefused

/-! ### The transfer of one byte -/

/-- R100, R137: the queue, the mode and the parser do not read the transport's out_ready. -/
theorem nextBlock_driveOut (P : Params) (b : Block) (hr : i.rst = false) (ready : Bool) :
    nextBlock P b (driveOut ready i) =
      { nextBlock P b i with e := encoderPhase P b.e (driveOut ready i) (ackTake b i) } := by
  rw [nextBlock_eq hr, nextBlock_eq (i := driveOut ready i) hr]
  rfl

/-- R245: an idle encoder does not read out_ready. -/
theorem nextBlock_driveOut_of_idle (P : Params) (i : Inputs) (hidle : b.e.sub = .idle) (ready : Bool) :
    nextBlock P b (driveOut ready i) = nextBlock P b i := by
  by_cases hr : i.rst = true
  · rw [nextBlock_of_rst hr, nextBlock_of_rst (i := driveOut ready i) hr]
  · have hr := Bool.eq_false_of_not_eq_true hr
    have hphase : encoderPhase P b.e (driveOut ready i) (ackTake b i) = encoderPhase P b.e i (ackTake b i) := by
      rw [encoderPhase_of_idle hidle, encoderPhase_of_idle hidle]
      rfl
    rw [nextBlock_driveOut P b hr, hphase, ← nextBlock_e hr]

/-- Settles O45: nothing is offered, so nothing transfers, and out_ready is not read. -/
theorem idleEncoderOffersNothing : Obligations.IdleEncoderOffersNothing := by
  intro s ready hready hidle
  obtain ⟨t, hexec, houts, hblk, hret⟩ :=
    perform_one_shows hready (driveOut ready s.pins) (.popped (sentByte s.params s.blk (driveOut ready s.pins)))
  have hsent : sentByte s.params s.blk (driveOut ready s.pins) = none := by simp [sentByte, xfer_of_idle hidle]
  rw [nextBlock_driveOut_of_idle s.params s.pins hidle] at hblk
  exact ⟨t, _, hexec, houts, by simp [outputsOf, outValid, hidle], by simp [outputsOf, outByte, hidle],
    by simp [outputsOf, txDready, hidle], hret.trans (congrArg Result.popped hsent), hblk⟩

/-- R245, R248: the encoder waits for the external sender's byte. -/
def WaitsForData (e : Encoder) (i : Inputs) : Prop := e.sub = .payload ∧ e.src = .ext ∧ i.tx_dvalid = false

theorem outValid_of_waits (h : WaitsForData e i) : outValid e i = false := by
  obtain ⟨hs, hsrc, hvalid⟩ := h
  simp [outValid, hs, hsrc, hvalid]

theorem outValid_of_not_waits (hbusy : e.sub ≠ .idle) (h : ¬ WaitsForData e i) : outValid e i = true := by
  rw [outValid_of_busy hbusy]
  by_contra hwaits
  exact h (by simpa [WaitsForData, and_assoc] using hwaits)

theorem outByte_of_waits (h : WaitsForData e i) : outByte P e i = 0 := by
  obtain ⟨hs, hsrc, hvalid⟩ := h
  simp [outByte, hs, hsrc, hvalid]

theorem outByte_toNat_of_lenHi (hs : e.sub = .lenHi) : (outByte P e i).toNat = e.len.toNat / 256 := by
  simp only [outByte, hs, hiByte_toNat]

theorem outByte_toNat_of_lenLo (hs : e.sub = .lenLo) : (outByte P e i).toNat = e.len.toNat % 256 := by
  simp only [outByte, hs, loByte_toNat]

/-- R245: the payload byte offered is ACK_ROM's or the external sender's. -/
theorem outByte_of_payload (hs : e.sub = .payload) (hoffers : ¬ WaitsForData e i) :
    (e.src = .ack → outByte P e i = ackPayload.getD e.idx.toNat 0) ∧ (e.src = .ext → outByte P e i = i.tx_data) := by
  refine ⟨fun hsrc => by simp [outByte, ackRom, hs, hsrc], fun hsrc => ?_⟩
  have hvalid : i.tx_dvalid = true := by simpa [WaitsForData, hs, hsrc] using hoffers
  simp [outByte, hs, hsrc, hvalid]

/-- R247: what a byte_out gives and leaves of a busy encoder: the byte offered and the encoder moved on, or nothing. -/
structure Transfers (P : Params) (e : Encoder) (i : Inputs) (sent : Option Byte) (e' : Encoder) : Prop where
  moves : ¬ WaitsForData e i → i.out_ready = true → sent = some (outByte P e i) ∧ e' = advance P e (outByte P e i)
  holds : WaitsForData e i ∨ i.out_ready = false → sent = none ∧ e' = e

theorem transfers_of_busy (hr : i.rst = false) (hbusy : b.e.sub ≠ .idle) :
    Transfers P b.e i (sentByte P b i) (nextBlock P b i).e := by
  rw [sentByte_of_not_rst hr, nextBlock_e_of_busy hr hbusy]
  constructor
  · intro hoffers hready
    have hx : xfer b.e i = true := by simp [xfer, outValid_of_not_waits hbusy hoffers, hready]
    simp [hx]
  · intro hholds
    have hx : xfer b.e i = false := by
      obtain hwaits | hready := hholds
      · simp [xfer, outValid_of_waits hwaits]
      · simp [xfer, hready]
    simp [hx]

/-- Settles O44: the byte offered and the encoder after its transfer are compared in each sub-state. -/
theorem byteOutTransfersTheOfferedByte : Obligations.ByteOutTransfersTheOfferedByte := by
  intro s ready hstate hr hbusy P e waits T unready
  let i := driveOut ready s.pins
  obtain ⟨t, hexec, houts, hblk, hret⟩ := perform_one_shows hstate i (.popped (sentByte P s.blk i))
  obtain ⟨hmoves, hholds⟩ := transfers_of_busy (P := P) (i := i) hr hbusy
  rw [← hblk] at hmoves hholds
  have hT : T = (tailMagic0 P, tailMagic1 P) := by cases htail : P.tail <;> simp [T, tailMagic0, tailMagic1, htail]
  have hadvance (hoffers : ¬waits) {e' : Encoder} (he' : advance P e (outByte P e i) = e') : ready = true → t.blk.e = e' :=
    fun h => (hmoves hoffers h).2.trans he'
  have hoffers (hs : e.sub ≠ .payload) : ¬waits := fun hwaits => hs hwaits.1
  have hoffer (hs : e.sub ≠ .payload) {x : Byte} {e' : Encoder} (hx : outByte P e i = x) (he' : advance P e x = e') :
      outByte P e i = x ∧ (ready = true → t.blk.e = e') :=
    ⟨hx, hadvance (hoffers hs) (hx ▸ he')⟩
  rw [nextBlock_driveOut P s.blk hr] at hblk
  have hunready : unready = _ := nextBlock_driveOut P s.blk hr false
  refine ⟨t, _, hexec, houts, by rw [hblk, hunready], by rw [hblk, hunready], by rw [hblk, hunready], ?_, ?_, ?_, ?_, ?_, ?_⟩
  · intro hwaits
    obtain ⟨hnone, hheld⟩ := hholds (.inl hwaits)
    exact ⟨outValid_of_waits hwaits, outByte_of_waits hwaits, hret.trans (congrArg Result.popped hnone), hheld⟩
  · exact outValid_of_not_waits hbusy
  · intro _ hunready
    obtain ⟨hnone, hheld⟩ := hholds (.inr hunready)
    exact ⟨hret.trans (congrArg Result.popped hnone), hheld⟩
  · intro hoffers h
    exact hret.trans (congrArg Result.popped (hmoves hoffers h).1)
  · simp [outputsOf, txDready, i, e, hr, Bool.and_assoc]
  change (e.sub = .head0 → outByte P e i = _ ∧ _) ∧ _
  rw [hT]
  refine ⟨?head0, ?head1, ?cmd, ?lenHi, ?lenLo, ?payload, ?tail0, ?tail1, ?sum⟩ <;> intro hs
  case lenHi =>
    exact ⟨outByte_toNat_of_lenHi hs, hadvance (hoffers (by simp [hs])) (by simp only [advance, hs, add8_eq]; rfl)⟩
  case lenLo =>
    exact ⟨outByte_toNat_of_lenLo hs, hadvance (hoffers (by simp [hs])) (by simp only [advance, hs, add8_eq]; rfl)⟩
  case payload =>
    intro hoffers
    obtain ⟨hack, hext⟩ := outByte_of_payload (P := P) hs hoffers
    exact ⟨hack, hext, hadvance hoffers (by simp only [advance, hs, add8_eq]; rfl)⟩
  case cmd => exact hoffer (by simp [hs]) (by simp only [outByte, hs]) (by simp only [advance, hs, add8_eq, cmdTerm])
  case head0 | head1 | tail0 | tail1 | sum =>
    exact hoffer (by simp [hs]) (by simp only [outByte, hs]) (by simp only [advance, hs, add8_eq])

end Sys2Proof.Machine

/-! Proofs. 60_exceptions.md: the cause of each event of a cycle (R281), and the enable under which it arises (R283). -/

namespace Sys2Proof.Machine

variable {P : Params} {b : Block} {i : Inputs} {p : Parser} {x : Byte} {k : Event} {tick : Bool} {Report : ParserStep → Prop}

/-! ### The byte that causes an error -/

/-- R281: the byte `x`, read in the parser's sub-state, is the cause of an error of kind `k`. -/
def ByteError (P : Params) (p : Parser) (x : Byte) (k : Event) : Prop :=
  match k with
  | .magicMismatch =>
    (p.sub = .head1 ∧ x ≠ headMagic1) ∨ (p.sub = .tail1 ∧ ¬ (p.t0 = tailMagic0 P ∧ x = tailMagic1 P))
  | .checksumMismatch => p.sub = .sum ∧ x ≠ p.acc
  | .unknownCommand =>
    p.sub = .sum ∧ x = p.acc ∧ p.cmd ≠ cmdTransCmd ∧ p.cmd ≠ cmdAck ∧ p.cmd ≠ cmdFileParam ∧ p.cmd ≠ cmdFilePacket
      ∧ p.cmd ≠ cmdCustomize
  | .allocationFailure => p.sub = .lenLo ∧ P.payloadMax < (joinBytes (hiByte p.len) x).toNat
  | .none | .timeout | .lineOverflow => False

/-- R185 to R197: a byte is read in silence, or is the cause of the error reported. -/
theorem onByte_evt_cases (P : Params) (p : Parser) (x : Byte) :
    (onByte P p x).evt = .none ∨ ByteError P p x (onByte P p x).evt := by
  cases hs : p.sub
  case head0 =>
    rw [onByte_of_head0 hs, onHead0]
    split_ifs <;> exact .inl rfl
  case head1 =>
    rw [onByte_of_head1 hs, onHead1]
    split_ifs with hx
    · exact .inl rfl
    · exact .inr (.inl ⟨hs, hx⟩)
  case cmd => exact .inl (congrArg ParserStep.evt (onByte_of_cmd hs))
  case lenHi => exact .inl (congrArg ParserStep.evt (onByte_of_lenHi hs))
  case lenLo =>
    rw [onByte_of_lenLo hs rfl]
    split_ifs with hmax
    · exact .inr ⟨hs, hmax⟩
    · exact .inl rfl
    · exact .inl rfl
  case payload => exact .inl (congrArg ParserStep.evt (onByte_of_payload hs))
  case tail0 => exact .inl (congrArg ParserStep.evt (onByte_of_tail0 hs))
  case tail1 =>
    rw [onByte_of_tail1 hs, onTail1]
    split_ifs with hx
    · exact .inl rfl
    · exact .inr (.inr ⟨hs, hx⟩)
  case sum =>
    rw [onByte_of_sum hs, onSum, classify]
    split_ifs with hx hdispatched hack
    · exact .inl rfl
    · exact .inl rfl
    · push Not at hdispatched
      obtain ⟨h1, h3, h4, h5⟩ := hdispatched
      exact .inr ⟨hs, hx, h1, hack, h3, h4, h5⟩
    · exact .inr ⟨hs, hx⟩
  case dispatch | ackReq => exact .inl (by simp only [onByte, hs, quietStep_evt])

/-- R186, R189, R194 to R197: the byte that is a cause of an error raises it. -/
theorem ByteError.onByte_evt (h : ByteError P p x k) : (onByte P p x).evt = k := by
  cases k with
  | magicMismatch =>
    obtain ⟨hs, hx⟩ | ⟨hs, hx⟩ := h
    · rw [onByte_of_head1 hs, onHead1, if_neg hx, raiseErr_evt]
    · rw [onByte_of_tail1 hs, onTail1, if_neg hx, raiseErr_evt]
  | checksumMismatch =>
    obtain ⟨hs, hx⟩ := h
    rw [onByte_of_sum hs, onSum, if_neg hx, raiseErr_evt]
  | unknownCommand =>
    obtain ⟨hs, hx, h1, h2, h3, h4, h5⟩ := h
    rw [onByte_of_sum hs, onSum, if_pos hx, classify_of_unknown h1 h2 h3 h4 h5, raiseErr_evt]
  | allocationFailure =>
    obtain ⟨hs, hmax⟩ := h
    rw [onByte_of_lenLo hs rfl, if_pos hmax, raiseErr_evt]
  | none | timeout | lineOverflow => exact h.elim

theorem onByte_evt_eq_iff (hk : k ≠ .none) : (onByte P p x).evt = k ↔ ByteError P p x k := by
  refine ⟨?_, ByteError.onByte_evt⟩
  rintro rfl
  exact (onByte_evt_cases P p x).resolve_left hk

/-- R197: the sum of a received ACK frame is the byte that pulses rx_ack. -/
theorem onByte_rxAck_iff : (onByte P p x).rxAck = true ↔ p.sub = .sum ∧ x = p.acc ∧ p.cmd = cmdAck := by
  constructor
  · intro h
    obtain ⟨-, hnot⟩ | ⟨-, -, -, -, hnot⟩ | ⟨hs, hcmd, -⟩ := onByte_lawful P p x
    · simp [hnot] at h
    · simp [hnot] at h
    · refine ⟨hs, ?_, hcmd⟩
      by_contra hx
      simp [onByte_of_sum hs, onSum, hx] at h
  · rintro ⟨hs, hx, hcmd⟩
    rw [onByte_of_sum hs, onSum, if_pos hx, classify_of_ack hcmd]

/-! ### The wait that causes a Timeout -/

/-- R183: a wait reports the Timeout of its budget and nothing else. -/
theorem onEmpty_evt_eq_iff (hk : k ≠ .none) :
    (onEmpty P p tick).evt = k ↔ k = .timeout ∧ tick = true ∧ ∃ T, budget P p.sub = some T ∧ T ≤ p.tim + 1 := by
  cases hT : budget P p.sub with
  | none => simp [onEmpty, hT, hk.symm]
  | some T =>
    cases ht : tick
    · simp [onEmpty_of_not_tick hT, hk.symm]
    · rw [onEmpty_of_tick hT rfl]
      split_ifs with hle <;> simp [hle, hk.symm, eq_comm]

theorem onEmpty_rxAck (P : Params) (p : Parser) (tick : Bool) : (onEmpty P p tick).rxAck = false := by
  unfold onEmpty
  split
  · rfl
  · split_ifs <;> rfl

/-! ### What a cycle reports -/

theorem pstep_of_rst (h : i.rst = true) : pstep b i = false := by simp [pstep, h]

/-- R198, R199: DISPATCH and ACKREQ report nothing. -/
theorem parserStep_of_not_readsByte (P : Params) (b : Block) (i : Inputs) (h : b.p.sub.readsByte = false) :
    ∃ p, parserStep P b i = quietStep p := by
  cases hs : b.p.sub
  case dispatch =>
    rw [parserStep_of_dispatch P hs, onDispatch]
    split_ifs <;> exact ⟨_, rfl⟩
  case ackReq =>
    by_cases hidle : b.e.sub = .idle
    · exact ⟨_, parserStep_of_ackReq_idle P hs hidle i⟩
    · exact ⟨_, parserStep_of_ackReq_busy P hs hidle i⟩
  all_goals simp [hs, ParserSub.readsByte] at h

/-- R180, R201: what the parser reports of a cycle, beyond silence, comes from the byte that a step reads or from its wait. -/
theorem parserPhase_reports_iff (hquiet : ∀ p, ¬ Report (quietStep p)) :
    Report (parserPhase P b i) ↔
      pstep b i = true ∧ ((b.q.wr ≠ b.q.rd ∧ Report (onByte P b.p (b.q.buf.read b.q.rd)))
        ∨ (b.q.wr = b.q.rd ∧ Report (onEmpty P b.p i.tick))) := by
  cases hstep : pstep b i
  case false => simp [parserPhase_of_not_pstep hstep, hquiet]
  rw [parserPhase_of_pstep hstep]
  cases hreads : b.p.sub.readsByte
  case false =>
    obtain ⟨p, hp⟩ := parserStep_of_not_readsByte P b i hreads
    have hsilent : onByte P b.p (b.q.buf.read b.q.rd) = quietStep b.p ∧ onEmpty P b.p i.tick = quietStep b.p := by
      cases hs : b.p.sub
      case dispatch | ackReq => exact ⟨by simp only [onByte, hs], by simp only [onEmpty, hs, budget]⟩
      all_goals simp [hs, ParserSub.readsByte] at hreads
    simp [hp, hsilent, hquiet]
  by_cases hempty : b.q.wr = b.q.rd
  · simp [parserStep_of_empty hreads hempty, hempty]
  · simp [parserStep_of_byte hreads hempty, hempty, qFront]

/-- R281, R283: the causes of what the parser reports on evt. -/
theorem parserPhase_evt_eq_iff (hk : k ≠ .none) :
    (parserPhase P b i).evt = k ↔
      pstep b i = true ∧ ((b.q.wr ≠ b.q.rd ∧ ByteError P b.p (b.q.buf.read b.q.rd) k)
        ∨ (b.q.wr = b.q.rd ∧ k = .timeout ∧ i.tick = true ∧ ∃ T, budget P b.p.sub = some T ∧ T ≤ b.p.tim + 1)) := by
  rw [← onByte_evt_eq_iff hk, ← onEmpty_evt_eq_iff hk]
  exact parserPhase_reports_iff (Report := fun r => r.evt = k) fun _ => hk.symm

/-- R88, R283: every event but LineOverflow is the parser's. -/
theorem eventOf_eq_iff_parserPhase (h0 : k ≠ .none) (h6 : k ≠ .lineOverflow) :
    eventOf P b i = k ↔ (parserPhase P b i).evt = k := by
  unfold eventOf
  split_ifs with hr hc he
  · simp [parserPhase_of_not_pstep (pstep_of_rst hr), h0.symm]
  · simp [parserPhase_of_not_pstep (pstep_of_control hc), h0.symm, h6.symm]
  · simp [parserPhase_of_not_pstep (pstep_of_control hc), h0.symm]
  · rfl

/-- R281, R283: codes 2 to 5 are raised by the byte that a step of the parser reads. -/
theorem eventOf_eq_iff_byteError (hk : k ≠ .none ∧ k ≠ .timeout ∧ k ≠ .lineOverflow) :
    eventOf P b i = k ↔ pstep b i = true ∧ b.q.wr ≠ b.q.rd ∧ ByteError P b.p (b.q.buf.read b.q.rd) k := by
  obtain ⟨h0, h1, h6⟩ := hk
  simp only [eventOf_eq_iff_parserPhase h0 h6, parserPhase_evt_eq_iff h0, h1, false_and, and_false, or_false]

/-- R281, R283: code 1 is raised by the tick that brings a step's wait to its budget. -/
theorem eventOf_eq_timeout_iff :
    eventOf P b i = .timeout ↔
      pstep b i = true ∧ b.q.wr = b.q.rd ∧ i.tick = true ∧ ∃ T, budget P b.p.sub = some T ∧ T ≤ b.p.tim + 1 := by
  simp [eventOf_eq_iff_parserPhase, parserPhase_evt_eq_iff, ByteError]

/-- R135, R283: code 6 is repl_err's, and the parser never has it. -/
theorem eventOf_eq_lineOverflow_iff : eventOf P b i = .lineOverflow ↔ i.rst = false ∧ i.repl_err = true := by
  unfold eventOf
  split_ifs with hr hc he
  · simp [hr]
  · simp [hr, he]
  · simp [he]
  · have he : i.repl_err = false := by simp_all [controlAction]
    simp [parserPhase_evt_eq_iff, ByteError, he]

/-- R197, R283: rx_ack is pulsed by the byte that a step of the parser reads. -/
theorem rxAckOf_iff :
    rxAckOf P b i = true ↔
      pstep b i = true ∧ b.q.wr ≠ b.q.rd ∧ b.p.sub = .sum ∧ b.q.buf.read b.q.rd = b.p.acc ∧ b.p.cmd = cmdAck := by
  have hphase : rxAckOf P b i = (parserPhase P b i).rxAck := by
    unfold rxAckOf
    split_ifs with h
    · have hstep : pstep b i = false := (Bool.or_eq_true _ _).mp h |>.elim pstep_of_rst pstep_of_control
      simp [parserPhase_of_not_pstep hstep]
    · rfl
  rw [hphase, parserPhase_reports_iff (Report := fun r => r.rxAck = true) (by simp), onByte_rxAck_iff, onEmpty_rxAck]
  simp

/-- R310: an rst cycle reports nothing. -/
theorem reports_nothing_of_rst (hr : i.rst = true) : eventOf P b i = .none ∧ rxAckOf P b i = false := by
  simp [eventOf, rxAckOf, hr]

/-- Settles O33: `enabled` is the parser's step, and each kind has its cause of `ByteError` or of the wait. -/
theorem eventsAriseOnlyFromTheirCause : Obligations.EventsAriseOnlyFromTheirCause := by
  intro P b i evt p x enabled readsIn T tailBytes
  have hstep : pstep b i = true ↔ enabled := pstep_iff
  have hbudget : (∃ t, budget P p.sub = some t ∧ t ≤ p.tim + 1)
      ↔ p.sub ≠ .head0 ∧ p.sub ≠ .dispatch ∧ p.sub ≠ .ackReq ∧ T ≤ p.tim + 1 := by
    simp only [T, p]
    cases b.p.sub <;> simp [budget]
  have htail : (p.t0, x) ≠ tailBytes ↔ ¬ (p.t0 = tailMagic0 P ∧ x = tailMagic1 P) := by
    rw [← Prod.mk.injEq]
    simp only [tailBytes, tailMagic0, tailMagic1]
    cases P.tail <;> rfl
  have hlen : (joinBytes (hiByte p.len) x).toNat = p.len.toNat / 256 * 256 + x.toNat := by rw [joinBytes_toNat, hiByte_toNat]
  have hreads (sub : ParserSub) (c : Prop) : (pstep b i = true ∧ b.q.wr ≠ b.q.rd ∧ p.sub = sub ∧ c) ↔ readsIn sub ∧ c := by
    simp only [readsIn, hstep, and_assoc]
  refine ⟨eventOf_eq_lineOverflow_iff, eventOf_eq_timeout_iff.trans ?_, ?_, ?_, ?_, ?_, rxAckOf_iff.trans (hreads .sum _),
    reports_nothing_of_rst⟩
  · rw [hbudget, hstep]
    tauto
  · rw [htail, ← hreads, ← hreads, ← and_or_left, ← and_or_left]
    exact eventOf_eq_iff_byteError (by simp)
  · exact (eventOf_eq_iff_byteError (by simp)).trans (hreads .sum _)
  · exact (eventOf_eq_iff_byteError (by simp)).trans (hreads .sum _)
  · rw [← hlen]
    exact (eventOf_eq_iff_byteError (by simp)).trans (hreads .lenLo _)

end Sys2Proof.Machine

/-! Proofs. 70_reset_and_hazards.md: hardware reset (R310, R311), the invariant it gives, and the way from reset to a listening
parser (R313, R314). -/

namespace Sys2Proof.Machine

variable {P : Params} {b : Block} {i : Inputs} {s : State}

/-! ### Hardware reset -/

/-- R310: rst completes from any state, even one with an index out of range, and resets the block. -/
theorem exec_rst_resets (s : State) :
    ∃ t, exec .rst s = .next t ∧ t.outs = [outputsOf s.params s.blk (driveRst true s.pins)] ∧ t.blk = Block.reset := by
  have hexec : exec .rst s = .next (endCycle (driveRst true s.pins) (beginOp .none s)) :=
    (perform_one (driveRst true s.pins) .none s).trans (if_pos rfl)
  have hblk : nextBlock s.params s.blk (driveRst true s.pins) = Block.reset := nextBlock_of_rst rfl
  exact ⟨_, hexec, rfl, hblk⟩

/-- R310: an rst cycle accepts no request and asks for no payload byte. -/
theorem takes_nothing_of_rst (P : Params) (b : Block) (hr : i.rst = true) :
    (outputsOf P b i).tx_accept = false ∧ (outputsOf P b i).tx_dready = false := by
  simp [outputsOf, txAcceptOf, hr]

/-- Settles O8: the next block is the reset block, rst masks the pulses, and the status outputs read no input. -/
theorem rstResetsTheBlockFromAnyState : Obligations.RstResetsTheBlockFromAnyState := by
  intro s
  obtain ⟨t, hexec, houts, hblk⟩ := exec_rst_resets s
  obtain ⟨hevt, hrxAck⟩ := reports_nothing_of_rst (P := s.params) (b := s.blk) (i := driveRst true s.pins) rfl
  obtain ⟨haccept, hdready⟩ := takes_nothing_of_rst s.params s.blk (i := driveRst true s.pins) rfl
  have hbuf : ∀ k, Parser.reset.buf.read k = 0 := fun _ => rfl
  refine ⟨t, _, hexec, houts, ?_⟩
  rw [hblk]
  exact ⟨rfl, rfl, rfl, rfl, rfl, rfl, rfl, rfl, hbuf, rfl, rfl, rfl, rfl, rfl, rfl, rfl, rfl, rfl,
    hevt, hrxAck, haccept, hdready, rfl, rfl, rfl, rfl, rfl⟩

/-- Settles O53: the reset block has the invariant under all parameters. -/
theorem resetStateMeetsTheInvariant : Obligations.ResetStateMeetsTheInvariant := Block.reset_ok State.reset.params

/-! ### From reset to the REPL -/

/-- R101, R106: in AsciiRepl mode a byte pushed into an empty queue is offered to the REPL from the next cycle. -/
theorem replValid_of_push (hq : QueueOk P b.q) (hempty : b.q.wr = b.q.rd) (hmode : b.mode = .asciiRepl) (hr : i.rst = false)
    (hc : controlAction b i = false) (hv : i.in_valid = true) :
    replValid (nextBlock P b i) = true ∧ qFront (nextBlock P b i).q = i.in_byte := by
  obtain ⟨hone, -⟩ := pushIsPoppableFromTheNextCycle P b i hq hr hv
  obtain ⟨-, -, hne, hfront⟩ := hone hempty
  obtain ⟨-, hkept⟩ := nextBlock_of_not_pstep (P := P) hr hc (pstep_of_asciiRepl hmode)
  exact ⟨by simpa [replValid_eq, hkept, hmode] using hne, hfront⟩

/-! ### From reset to a listening parser -/

theorem Block.eq_of_units {b c : Block} (hq : b.q = c.q) (hmode : b.mode = c.mode) (hp : b.p = c.p) (he : b.e = c.e) :
    b = c := by
  cases b
  cases c
  congr

/-- R131, R245: a mode write changes the mode and the parser only, when nothing else is asked and the encoder is idle. -/
theorem nextBlock_driveMode_of_idle {m : Mode} {v : Byte} (hquiet : Quiet (driveOut false i)) (hidle : b.e.sub = .idle)
    (hv : modeOfCode v = some m) (P : Params) :
    nextBlock P b (driveMode v i) = { b with mode := m, p := if b.mode = m then b.p else Parser.reset } :=
  (nextBlock_driveOut_of_idle P (driveMode v i) hidle false).symm.trans (hquiet.nextBlock_driveMode hv P b)

/-- R183, D10: a listening parser steps without effect, and so does an idle encoder with no request. -/
theorem Listening.nextBlock_driveStep_eq_self (h : Listening s) (hidle : s.blk.e.sub = .idle) (hreq : s.pins.tx_req = false) :
    nextBlock s.params s.blk (driveStep true s.pins) = s.blk := by
  have ⟨_, he, hv, hp, hempty⟩ := h
  obtain ⟨hwaits, -⟩ := (keepingUp_start h).waits he (linkCycle_driveStep s)
  have hreads : s.blk.p.sub.readsByte = true := hp ▸ rfl
  have hq := nextBlock_q_of_reads s.params (pstep_driveStep he) hreads hv
  exact Block.eq_of_units (hq.trans (if_pos hempty)) hwaits.mode_eq (hwaits.parser_eq.trans hp.symm)
    (hwaits.encoder_eq hidle hreq)

/-- R314: set_mode 0x01 after rst leads to a listening parser. -/
theorem setModeBinaryFrame_listens (hblk : s.blk = Block.reset) (hpins : s.pins = Inputs.idle) :
    ∃ u, exec .setModeBinaryFrame s = .next u ∧ Listening u ∧ u.blk.e = Encoder.reset ∧ u.pins = Inputs.idle := by
  have hinv : s.blk.Ok s.params := hblk ▸ Block.reset_ok s.params
  obtain ⟨u, hexec, -, hnext, -⟩ := perform_one_shows (ready_of_inv hinv) (driveMode 0x01 s.pins) .none
  obtain ⟨-, hkept, -⟩ := perform_keeps hexec
  have hpins' : u.pins = Inputs.idle := hkept.trans hpins
  have hquiet : Quiet (driveOut false Inputs.idle) := ⟨rfl, rfl, rfl, rfl, rfl, rfl, rfl, rfl, rfl⟩
  have hblk' : u.blk = { Block.reset with mode := .binaryFrame } := by
    rw [hnext, hblk, hpins]
    exact nextBlock_driveMode_of_idle hquiet rfl (modeOfCode_of_one rfl) s.params
  have henabled : ParserEnabled u := by
    rw [ParserEnabled, hblk', hpins']
    exact ⟨rfl, rfl, rfl⟩
  refine ⟨u, hexec, ⟨inv_perform hexec hinv, henabled, ?_, ?_, ?_⟩, ?_, hpins'⟩
  · rw [hpins']
    rfl
  all_goals
    rw [hblk']
    rfl

/-- Settles O58: rst leaves the reset block, whose empty queue offers a pushed byte, and set_mode 0x01 makes the parser listen. -/
theorem bootLeadsToTheParser : Obligations.BootLeadsToTheParser := by
  intro s hidle
  obtain ⟨t, hrst, -, hblk⟩ := exec_rst_resets s
  obtain ⟨-, hkept, -⟩ := perform_keeps hrst
  have hpins : t.pins = Inputs.idle := hkept.trans hidle
  obtain ⟨u, hmode, hlistens, hencoder, hpins'⟩ := setModeBinaryFrame_listens hblk hpins
  have ⟨hinv, _⟩ := hlistens
  obtain ⟨v, hstep, -, hnext, -⟩ := perform_one_shows (ready_of_inv hinv) (driveStep true u.pins) .none
  have hheld : v.blk = u.blk := hnext.trans (hlistens.nextBlock_driveStep_eq_self (hencoder ▸ rfl) (hpins' ▸ rfl))
  refine ⟨t, u, v, hrst, hmode, hlistens, fun x => ?_, hstep, hheld⟩
  have hok : t.blk.Ok t.params := hblk ▸ Block.reset_ok t.params
  obtain ⟨w, hpush, -, hpushed, -⟩ := perform_one_shows (ready_of_inv hok) (driveIn true x t.pins) .none
  have hoffers : replValid w.blk = true ∧ qFront w.blk.q = x := by
    rw [hpushed, hblk, hpins]
    exact replValid_of_push (i := driveIn true x Inputs.idle) (queueOk_reset t.params) rfl rfl rfl rfl rfl
  obtain ⟨hvalid, hfront⟩ := hoffers
  exact ⟨w, hpush, hvalid, by simp [outputsOf, hvalid, hfront]⟩

end Sys2Proof.Machine
